-- ==== Sys2Proof/Syntax.lean ====
section
/-! DEFINITION. Syntax.lean: the 13 commands of R92, one constructor for each row of spec/opcode_table.json. -/

namespace Sys2Proof

/-- A command of the core (R92). No command carries an operand in its word (R90, R94), so no constructor has an argument. -/
inductive Instr where
  /-- LOADHDR (R111): read the carrier header. -/
  | loadhdr
  /-- CAPEST (R113): estimate the capacity. -/
  | capest
  /-- CHKCAP (R117): check the capacity. -/
  | chkcap
  /-- PACKB (R131): pack one byte. -/
  | packb
  /-- PACKW (R134): pack one 32-bit value. -/
  | packw
  /-- UNPACKB (R151): unpack one byte. -/
  | unpackb
  /-- UNPACKW (R154): unpack one 32-bit value. -/
  | unpackw
  /-- ENCODE (R171): the frame writer. -/
  | encode
  /-- DECODE (R201): the frame reader. -/
  | decode
  /-- EMITHDR (R231): write the held header. -/
  | emithdr
  /-- COPY (R233): copy a range of the carrier. -/
  | copy
  /-- COPYREST (R235): copy the rest of the carrier. -/
  | copyrest
  /-- SKIP (R237): discard a range of the carrier. -/
  | skip
deriving DecidableEq, Repr

end Sys2Proof
end

