-- ==== Sys2Proof/Word.lean ====
section
/-! DEFINITION. Word.lean: the widths of the core: a stream byte, a 32-bit register, a 64-bit count (R21, R40, R45, R46, R76). -/

namespace Sys2Proof

/-- One byte of a stream, of HDR or of MARKER (R14, R76). -/
abbrev Byte := BitVec 8

/-- One register of the register block (R21). -/
abbrev Word := BitVec 32

/-- A 64-bit value that the host reads as a LO and HI pair: CAP, CCNT, OCNT (R40, R45, R46). -/
abbrev Dword := BitVec 64

end Sys2Proof
end

