-- ==== Sys2Proof/Decode.lean ====
section
/-! DEFINITION. Decode.lean: the command word (R90): the total decoder of R103, the encoder of R92 and R102, and the
reading of a row of spec/opcode_table.json. -/

namespace Sys2Proof

/-- Why a command word is invalid; the core answers both with InvalidArguments (R251). -/
inductive DecodeError where
  /-- CMD[31:8] is not zero (R91). -/
  | rsvNonzero
  /-- CMD[7:0] is 0x00 or 0x0E to 0xFF (R93). -/
  | reservedOpcode
deriving DecidableEq, Repr

/-- CMD[7:0], the OPCODE field (R90). -/
def opcodeField (w : Word) : Byte := w.extractLsb' 0 8

/-- CMD[31:8], the RSV field (R90). -/
def rsvField (w : Word) : BitVec 24 := w.extractLsb' 8 24

/-- The opcode map of R92. -/
def opcodeMap : List (Byte × Instr) :=
  [(0x01#8, .loadhdr), (0x02#8, .capest), (0x03#8, .chkcap), (0x04#8, .packb), (0x05#8, .packw),
   (0x06#8, .unpackb), (0x07#8, .unpackw), (0x08#8, .encode), (0x09#8, .decode), (0x0A#8, .emithdr),
   (0x0B#8, .copy), (0x0C#8, .copyrest), (0x0D#8, .skip)]

/-- The command decoder: total, one of the 13 commands or "invalid", from the written value alone (R103). -/
def decode (w : Word) : Except DecodeError Instr :=
  if rsvField w ≠ 0 then .error .rsvNonzero
  else match opcodeMap.lookup (opcodeField w) with
    | some i => .ok i
    | none => .error .reservedOpcode

/-- The command word of a command: 24 zero bits and then its opcode (R92, R102). -/
def encode : Instr → Word
  | .loadhdr => 0x00000001
  | .capest => 0x00000002
  | .chkcap => 0x00000003
  | .packb => 0x00000004
  | .packw => 0x00000005
  | .unpackb => 0x00000006
  | .unpackw => 0x00000007
  | .encode => 0x00000008
  | .decode => 0x00000009
  | .emithdr => 0x0000000A
  | .copy => 0x0000000B
  | .copyrest => 0x0000000C
  | .skip => 0x0000000D

/-- The command the decoder reads from an instruction whose bits are `w`, numbered as spec/opcode_table.json numbers
them. A command is one 32-bit word, written in one host access (R99), so there is no order of bytes or words to fix; bits
that the table does not give are zero, and an instruction longer than a word does not exist. -/
def decodeTableWord (nbits w : Nat) : Option Instr :=
  if w % 2 ^ nbits < 2 ^ 32 then (decode (BitVec.ofNat 32 (w % 2 ^ nbits))).toOption else none

end Sys2Proof
end

