-- ==== Sys2Proof/Config.lean ====
section
/-! DEFINITION. Config.lean: what is fixed for one machine (the constants of R10, the parameter MARKER_MAX of R11), the
free values of the hidden state (R47, R48), and the two open parameters of the host (R283, R284). -/

namespace Sys2Proof.Config

/-- HDR_LEN of R10: the carrier header's size in bytes. -/
abbrev hdrLen : Nat := 54

/-- WIDTH_OFF of R10: the header offset of the little-endian width. -/
abbrev widthOff : Nat := 18

/-- HEIGHT_OFF of R10: the header offset of the little-endian height. -/
abbrev heightOff : Nat := 22

/-- BYTES_PER_PIXEL of R10. -/
abbrev bytesPerPixel : Nat := 3

/-- CARRIER_BYTES_PER_PAYLOAD_BYTE of R10: one payload bit in each carrier byte. -/
abbrev carrierBytesPerPayloadByte : Nat := 8

/-- LEN_FIELD_BITS of R10: the width of a length field. -/
abbrev lenFieldBits : Nat := 32

/-- The upper bound of MARKER_MAX (R11): the room of the MARKER window 0x100 to 0x1FF (R43). -/
abbrev markerSlots : Nat := 64

/-- By how much MARKER_MAX exceeds its least value 9 (R11, D14). A parameter: it has no body, so a claim holds for every
value R11 allows. Log 1 (DESIGN CHOICE of form: the spec leaves the value to the implementation; safe). -/
opaque markerMaxOver : Fin 56

/-- MARKER_MAX of R11, with 9 ≤ MARKER_MAX ≤ 64. -/
def markerMax : Nat := markerMaxOver.val + 9

/-- The hidden bit index after the n-th command: unspecified (R47, I-16). Log 4 (free value; safe). -/
opaque freeBit : Nat → BitVec 5

/-- The hidden accumulator after the n-th command: unspecified (R47, I-16). Log 4 (free value; safe). -/
opaque freeAcc : Nat → BitVec 32

/-- The hidden byte index after the n-th command: unspecified (R47, I-16). Log 4 (free value; safe). -/
opaque freeIdx : Nat → BitVec 33

/-- Element i of the hidden file RXM after the n-th command: unspecified (R48, I-16). Log 4 (free value; safe). -/
opaque freeRxm : Nat → Nat → Byte

/-- HOST_NO_DOT_EXT of R284: the extension the host uses for a filename with no '.', left open by D27. Log 8 (safe). -/
opaque hostNoDotExt : List Byte

/-- HOST_EXIT_MAP of R283: the host's exit status for each STATUS.ERR, left open by D39. Log 8 (safe). -/
opaque hostExitMap : BitVec 4 → Nat

end Sys2Proof.Config
end

