-- ==== Sys2Proof/Machine/State.lean ====
section
/-! DEFINITION. Machine/State.lean: the state of the core (R20 to R51), of its ports (R63 to R65) and of its host (R280,
R100), as plain data, and the state right after reset. -/

namespace Sys2Proof.Machine

/-- The six byte-stream ports of R63. -/
inductive Port where
  | cin | sout | pin | ein | pout | eout
deriving DecidableEq, Repr

/-- The input ports of R63. -/
inductive InId where
  | cin | pin | ein
deriving DecidableEq, Repr

/-- The output ports of R63. -/
inductive OutId where
  | sout | pout | eout
deriving DecidableEq, Repr

/-- One item of an input port: a byte or the error token ERR (R64). -/
inductive Item where
  | byte (b : Byte)
  | err
deriving DecidableEq, Repr

/-- What reading an input port returns (R64). -/
inductive PortRead where
  | byte (b : Byte)
  | err
  | eos
deriving DecidableEq, Repr

/-- An input port: environment state set by the host (R64). -/
structure InPort where
  attached : Bool
  items : List Item
deriving DecidableEq, Repr

/-- An output port: environment state (R65). `attempts` is the k of WriteFails(port, k): the writes attempted since the
command started. `fails` is that oracle for this port: the attempts for which it answers true (log 2). -/
structure OutPort where
  attached : Bool
  data : List Byte
  attempts : Nat
  fails : List Nat
deriving DecidableEq, Repr

/-- The sequencer states of R28. -/
inductive Seq where
  | idle | validate | header | capcheck | hdrcopy | marker | extlen | ext | paylen | payload | trailer | prim | done | fail
deriving DecidableEq, Repr

/-- The error kinds of R30. -/
inductive ErrKind where
  | invalidArguments | unopenableFile | insufficientCapacity | markerMismatch | unexpectedEndOfCarrier | ioFailure
deriving DecidableEq, Repr

/-- What a `raise K(p)` names: the kind and the port involved, or no port (R16, R255). -/
structure Raise where
  kind : ErrKind
  port : Option Port
deriving DecidableEq, Repr

/-- The fields of STATUS (R24); its bits [31:20] are reserved, hold nothing and read 0. -/
structure Status where
  busy : Bool
  done : Bool
  fail : Bool
  insuf : Bool
  err : BitVec 4
  state : BitVec 4
  failstate : BitVec 4
  failport : BitVec 4
deriving DecidableEq, Repr

/-- The hidden state of the engine (R47, R48); the sequencer state, its fourth part, is the field STATUS.STATE that mirrors
it. No host access reads it, and it has no defined value between commands. -/
structure Hidden where
  bit : BitVec 5
  acc : BitVec 32
  idx : BitVec 33
  rxm : Vector Byte Config.markerSlots
deriving DecidableEq, Repr

/-- The registers of the map of R61. -/
inductive Reg where
  | cmd | status | arg | result | mlen | elen | plen | width | height | capLo | capHi | rxElen | rxPlen
  | ccntLo | ccntHi | ocntLo | ocntHi
  | marker (i : Nat)
  | hdr (i : Nat)
deriving DecidableEq, Repr

/-- One action of the host (R280) or of its program (R100, with labels resolved to positions in the program). -/
inductive HostStmt where
  /-- `MemWrite(off, size, v)`; a write of CMD starts a command (R60, R95). -/
  | wr (off size : Nat) (v : Word)
  /-- `MemRead(off, size)`, its value shown in the trace (R60, R100). -/
  | rd (off size : Nat)
  /-- Branch to `target` if field [hi:lo] of the register at `off` equals `v` (R100). -/
  | beq (off hi lo : Nat) (v : Word) (target : Nat)
  /-- Branch to `target` if field [hi:lo] of the register at `off` differs from `v` (R100). -/
  | bne (off hi lo : Nat) (v : Word) (target : Nat)
  /-- The host stops (R100). -/
  | halt
  /-- Attach a port (R280). -/
  | attach (p : Port)
  /-- Detach a port (R280). -/
  | detach (p : Port)
  /-- Set an input port's items (R280, R64). -/
  | setItems (p : InId) (items : List Item)
  /-- Read an output port's data (R280). -/
  | takeData (p : OutId)
  /-- Clear an output port's data (R280). -/
  | clearData (p : OutId)
  /-- The environment fixes which writes of an output port fail from here on (R65; log 2). -/
  | planFails (p : OutId) (ks : List Nat)
  /-- Assert the reset input (R290). -/
  | reset
deriving DecidableEq, Repr

/-- One reading of an output port by the host; `valid` is whether the host may use the data: STATUS.DONE was 1, and the
data held no byte that a failed command had put there (R260, I-3; log 16). -/
structure Take where
  port : OutId
  data : List Byte
  valid : Bool
deriving DecidableEq, Repr

/-- The host's side (R4, R100): its program and its position in it, the values its register reads returned, what its
readings of output ports returned (log 7), and `spoiled`, its own mark on the output ports that hold bytes of a failed
command, which it must treat as invalid (R260, R283 point 4; log 16). It is no part of the core, which marks nothing
(R260). -/
structure HostSide where
  prog : List HostStmt
  hpc : Nat
  reads : List Word
  takes : List Take
  spoiled : List OutId
deriving DecidableEq, Repr

/-- The whole machine: the register block, the files HDR and MARKER, the hidden state, the reset line (R20), the ports
(R63) and the host's side. CAP, CCNT and OCNT are stored as 64 bits and read as pairs (R40, R45, R46). Only the first
MARKER_MAX slots of `marker` are registers (R43). `epoch` is the model's own: it indexes the free values of the hidden
state (log 4). -/
structure State where
  cmd : Word
  status : Status
  arg : Word
  result : Word
  mlen : Word
  elen : Word
  plen : Word
  width : Word
  height : Word
  cap : Dword
  rxElen : Word
  rxPlen : Word
  ccnt : Dword
  ocnt : Dword
  marker : Vector Byte Config.markerSlots
  hdr : Vector Byte Config.hdrLen
  hidden : Hidden
  resetLine : Bool
  cin : InPort
  pin : InPort
  ein : InPort
  sout : OutPort
  pout : OutPort
  eout : OutPort
  host : HostSide
  epoch : Nat
deriving DecidableEq, Repr

/-- Why the machine stops with a fault: it never does. Every error of the core is an outcome recorded in STATUS, after
which the core takes the next command (R255, R262, R271); so there is no constructor. -/
inductive Fault where
deriving DecidableEq, Repr

/-- Why the model has no step for an action of the host. No meaning of a command answers with one of these. -/
inductive Refusal where
  /-- An instruction that has no meaning yet: raised by no arm of exec. Safe: it stops the model. -/
  | notModelled (mnemonic : String)
  /-- A register access that is not 32 bits wide, not aligned to 4, or outside 0x000 to 0x3FF (R62, I-17): raised by the
  host's read, write and branch. Safe: the spec asks for a refusal. -/
  | accessWithoutMeaning (off size : Nat)
  /-- A change or reading of a port while STATUS.BUSY = 1 (R280, R281, I-18): raised by the host's port actions. Safe: the
  spec asks for a refusal. No reachable state has BUSY = 1 (R25). -/
  | portActionWhileBusy
deriving DecidableEq, Repr

/-- STATUS right after reset: every field 0, STATE = IDLE (R51). -/
def Status.reset : Status :=
  { busy := false, done := false, fail := false, insuf := false, err := 0, state := 0, failstate := 0, failport := 0 }

/-- The hidden state right after reset: unspecified, and "a model may give it any value" (R292). DESIGN CHOICE zero, log 3. -/
def Hidden.reset : Hidden :=
  { bit := 0, acc := 0, idx := 0, rxm := Vector.replicate Config.markerSlots 0 }

/-- An input port that the host has not set up. DESIGN CHOICE, log 6. -/
def InPort.none : InPort := { attached := false, items := [] }

/-- An output port that the host has not set up. DESIGN CHOICE, logs 2 and 6. -/
def OutPort.none : OutPort := { attached := false, data := [], attempts := 0, fails := [] }

/-- The machine right after power-on (R291): every register as R51 says; nothing attached (R293), the host idle. -/
def State.reset : State :=
  { cmd := 0, status := Status.reset, arg := 0, result := 0, mlen := 0, elen := 0, plen := 0, width := 0, height := 0
    cap := 0, rxElen := 0, rxPlen := 0, ccnt := 0, ocnt := 0
    marker := Vector.replicate Config.markerSlots 0, hdr := Vector.replicate Config.hdrLen 0
    hidden := Hidden.reset, resetLine := false
    cin := InPort.none, pin := InPort.none, ein := InPort.none
    sout := OutPort.none, pout := OutPort.none, eout := OutPort.none
    host := { prog := [], hpc := 0, reads := [], takes := [], spoiled := [] }, epoch := 0 }

end Sys2Proof.Machine
end

