-- ==== Sys2Proof/Machine/Flags.lean ====
section
/-! DEFINITION. Machine/Flags.lean: STATUS: its codes (R28, R30, R63), its word (R24), and what a command start, a check,
an error and a completion do to its fields (R25 to R32, R95, R255). -/

namespace Sys2Proof.Machine

/-- The identifier of a port (R63). -/
def portId : Port → BitVec 4
  | .cin => 1
  | .sout => 2
  | .pin => 3
  | .ein => 4
  | .pout => 5
  | .eout => 6

/-- The identifier recorded for the port of a raise: 0 means "no port" (R32, R63). -/
def portIdOf : Option Port → BitVec 4
  | none => 0
  | some p => portId p

/-- The code of a sequencer state (R28). -/
def seqCode : Seq → BitVec 4
  | .idle => 0
  | .validate => 1
  | .header => 2
  | .capcheck => 3
  | .hdrcopy => 4
  | .marker => 5
  | .extlen => 6
  | .ext => 7
  | .paylen => 8
  | .payload => 9
  | .trailer => 10
  | .prim => 11
  | .done => 12
  | .fail => 13

/-- The code of an error kind (R30). -/
def errCode : ErrKind → BitVec 4
  | .invalidArguments => 1
  | .unopenableFile => 2
  | .insufficientCapacity => 3
  | .markerMismatch => 4
  | .unexpectedEndOfCarrier => 5
  | .ioFailure => 6

/-- STATUS as the host reads it (R24): bits [31:20] are 0. -/
def statusWord (q : Status) : Word :=
  0#12 ++ q.failport ++ q.failstate ++ q.state ++ q.err ++
    BitVec.ofBool q.insuf ++ BitVec.ofBool q.fail ++ BitVec.ofBool q.done ++ BitVec.ofBool q.busy

/-- STATUS when a command has started and stands in VALIDATE: all fields cleared, BUSY set (R95). -/
def statusStarted : Status := { Status.reset with busy := true, state := seqCode .validate }

/-- `state <- S` (R16, R28). -/
def statusAt (q : Seq) (t : Status) : Status := { t with state := seqCode q }

/-- STATUS.INSUF set by an insufficient capacity (R29, R119). -/
def statusInsufficient (t : Status) : Status := { t with insuf := true }

/-- What `raise K(p)` writes to STATUS (R255): FAILSTATE from the state in force, FAILPORT, ERR, FAIL, DONE, then
STATE = FAIL and BUSY = 0. INSUF is kept. -/
def statusRaised (r : Raise) (t : Status) : Status :=
  { t with
    failstate := t.state, failport := portIdOf r.port, err := errCode r.kind
    fail := true, done := false, state := seqCode .fail, busy := false }

/-- What completing writes to STATUS (R95): STATE = DONE, DONE = 1, BUSY = 0. -/
def statusDone (t : Status) : Status := { t with state := seqCode .done, done := true, busy := false }

end Sys2Proof.Machine
end

