-- ==== Sys2Proof/Machine/Operands.lean ====
section
/-! DEFINITION. Machine/Operands.lean: the operand forms (R94: every operand is a register), the byte orders (R72, R73, R74)
and the least-significant-bit rule (R75). -/

namespace Sys2Proof.Machine

/-- Byte `i` of a byte-register file; 0 outside the file, where no rule reads. -/
def fileByte {n : Nat} (f : Vector Byte n) (i : Nat) : Byte := (f[i]?).getD 0

/-- `ARG[7:0]`, the operand of PACKB (R33). -/
def argByte (s : State) : Byte := s.arg.extractLsb' 0 8

/-- `ARG[31:0]`, the operand of PACKW (R33). -/
def argWord (s : State) : Word := s.arg

/-- `ARG[31:0]` as a count of bytes, the operand of COPY and SKIP (R33). -/
def argCount (s : State) : Nat := s.arg.toNat

/-- `LE32(b0, b1, b2, b3)` of R16: the first byte is the least significant. -/
def le32 (b0 b1 b2 b3 : Byte) : Word := b3 ++ b2 ++ b1 ++ b0

/-- The four header bytes from `off` as one little-endian number (R72). -/
def hdrLe32 (s : State) (off : Nat) : Word :=
  le32 (fileByte s.hdr off) (fileByte s.hdr (off + 1)) (fileByte s.hdr (off + 2)) (fileByte s.hdr (off + 3))

/-- `BE32(v)` of R16: the four bytes of `v`, the most significant first. -/
def be32 (v : Word) : List Byte :=
  [v.extractLsb' 24 8, v.extractLsb' 16 8, v.extractLsb' 8 8, v.extractLsb' 0 8]

/-- The i-th bit of `v` counted from its MSB: `(v >> (w - 1 - i)) & 1` (R73, R130, R133). -/
def msbFirst {w : Nat} (v : BitVec w) (i : Nat) : Bool := v.getLsbD (w - 1 - i)

/-- A carrier byte with its LSB set or cleared to the payload bit, its other bits kept: `c | 0x01` or `c & 0xFE` (R75). -/
def withLsb (c : Byte) (b : Bool) : Byte := if b then c ||| 0x01 else c &&& 0xFE

/-- `((acc << 1) | (c & 0x01))[w-1:0]` on the 32-bit accumulator (R47, R150, R153). -/
def shiftIn (w : Nat) (acc : Word) (c : Byte) : Word :=
  (((acc <<< 1) ||| ((c &&& 0x01).setWidth 32)).setWidth w).setWidth 32

/-- CAPB of R114: the carrier bytes the header's width and height promise, an exact natural. -/
def capBytes (width height : Word) : Nat := width.toNat * height.toNat * Config.bytesPerPixel

/-- CAP of R114: the payload bytes that fit in CAPB carrier bytes. -/
def capOf (width height : Word) : Dword :=
  BitVec.ofNat 64 (capBytes width height / Config.carrierBytesPerPayloadByte)

/-- S of R119: the size of the frame in payload bytes, an exact natural. -/
def frameSize (s : State) : Nat := s.plen.toNat + s.mlen.toNat + s.elen.toNat + 4 + 4

/-- `1 <= MLEN <= MARKER_MAX` (R35, R97). -/
def markerLenOk (s : State) : Bool := 1 ≤ s.mlen.toNat && s.mlen.toNat ≤ Config.markerMax

end Sys2Proof.Machine
end

