-- ==== Sys2Proof/Machine/Ops.lean ====
section
/-! DEFINITION. Machine/Ops.lean: the engine's operations: the port primitives (R64 to R71), the raise (R255), the start
and the end of a command (R95), the command-start checks (R97, R98), and the reset (R290). -/

namespace Sys2Proof.Machine

/-! ## Reading and writing the parts of State -/

/-- An input port of the state. -/
def State.inPort (s : State) : InId → InPort
  | .cin => s.cin
  | .pin => s.pin
  | .ein => s.ein

/-- Put an input port back. -/
def State.withIn (s : State) (p : InId) (q : InPort) : State :=
  match p with
  | .cin => { s with cin := q }
  | .pin => { s with pin := q }
  | .ein => { s with ein := q }

/-- An output port of the state. -/
def State.outPort (s : State) : OutId → OutPort
  | .sout => s.sout
  | .pout => s.pout
  | .eout => s.eout

/-- Put an output port back. -/
def State.withOut (s : State) (p : OutId) (q : OutPort) : State :=
  match p with
  | .sout => { s with sout := q }
  | .pout => { s with pout := q }
  | .eout => { s with eout := q }

/-- An input port as one of the six ports of R63. -/
def InId.port : InId → Port
  | .cin => .cin
  | .pin => .pin
  | .ein => .ein

/-- An output port as one of the six ports of R63. -/
def OutId.port : OutId → Port
  | .sout => .sout
  | .pout => .pout
  | .eout => .eout

/-- The attached flag of a port (R64, R65). -/
def State.attached (s : State) : Port → Bool
  | .cin => s.cin.attached
  | .sout => s.sout.attached
  | .pin => s.pin.attached
  | .ein => s.ein.attached
  | .pout => s.pout.attached
  | .eout => s.eout.attached

/-- `state <- S` (R16). -/
def State.withSeq (s : State) (q : Seq) : State := { s with status := statusAt q s.status }

/-- CCNT <- (CCNT + 1) mod 2^64 (R45, R66). -/
def State.countCarrier (s : State) : State := { s with ccnt := s.ccnt + 1 }

/-- OCNT <- (OCNT + 1) mod 2^64 (R46, R67). -/
def State.countStego (s : State) : State := { s with ocnt := s.ocnt + 1 }

/-- `HDR[i] <- b` (R44, R112). -/
def State.withHdrByte (s : State) (i : Nat) (b : Byte) : State := { s with hdr := s.hdr.setIfInBounds i b }

/-- The hidden register `bit` (R47). -/
def State.withBit (s : State) (i : Nat) : State := { s with hidden := { s.hidden with bit := BitVec.ofNat 5 i } }

/-- The hidden register `acc` (R47). -/
def State.withAcc (s : State) (v : Word) : State := { s with hidden := { s.hidden with acc := v } }

/-- The hidden register `idx` (R47). -/
def State.withIdx (s : State) (i : Nat) : State := { s with hidden := { s.hidden with idx := BitVec.ofNat 33 i } }

/-- `RXM[i] <- b` (R48, R203). -/
def State.withRxmByte (s : State) (i : Nat) (b : Byte) : State :=
  { s with hidden := { s.hidden with rxm := s.hidden.rxm.setIfInBounds i b } }

/-- The hidden state after the n-th command: free values, because it has no defined value between commands (R47, R48).
Log 4. -/
def Hidden.free (n : Nat) : Hidden :=
  { bit := Config.freeBit n, acc := Config.freeAcc n, idx := Config.freeIdx n, rxm := Vector.ofFn (Config.freeRxm n ·) }

/-- The end of a command leaves the hidden state without a defined value (R47, R48). Log 4. -/
def State.forgetHidden (s : State) : State := { s with hidden := Hidden.free s.epoch, epoch := s.epoch + 1 }

/-! ## The engine -/

/-- A part of a command: it changes the state and answers a value, or raises an error, keeping every change made before
the raise (R258). -/
abbrev Engine (α : Type) := EStateM Raise State α

/-- `raise K(p)` within a command: nothing after it is performed (R255); `State.raise` records it. -/
def raiseError {α : Type} (k : ErrKind) (p : Option Port) : Engine α := throw { kind := k, port := p }

/-- `state <- S` (R16). -/
def setSeq (q : Seq) : Engine Unit := modify (·.withSeq q)

/-- `body i, body (i + 1), …`, `n` times in all. -/
def forFrom (body : Nat → Engine Unit) : (n i : Nat) → Engine Unit
  | 0, _ => pure ()
  | n + 1, i => do body i; forFrom body n (i + 1)

/-- `for i in 0 .. n-1: body i`, zero times when n = 0 (R16). -/
def forUpTo (n : Nat) (body : Nat → Engine Unit) : Engine Unit := forFrom body n 0

/-! ## The port primitives -/

/-- Read an input port (R64): EOS consumes nothing, a byte and ERR are consumed. -/
def readPort (p : InId) : Engine PortRead := fun s =>
  match (s.inPort p).items with
  | [] => .ok .eos s
  | .byte b :: rest => .ok (.byte b) (s.withIn p { s.inPort p with items := rest })
  | .err :: rest => .ok .err (s.withIn p { s.inPort p with items := rest })

/-- WriteFails(p, k) for the next write of `p`, k being the writes attempted since the command started (R65). Log 2. -/
def OutPort.failsNext (q : OutPort) : Bool := q.fails.contains q.attempts

/-- Write a byte to an output port (R65): it answers true for OK and false for ERR; an attempt is counted either way, and
a failed write appends nothing. -/
def writePort (p : OutId) (b : Byte) : Engine Bool := fun s =>
  let q := s.outPort p
  if q.failsNext then .ok false (s.withOut p { q with attempts := q.attempts + 1 })
  else .ok true (s.withOut p { q with data := q.data ++ [b], attempts := q.attempts + 1 })

/-- `CarrierRead()` of R66. -/
def carrierRead : Engine Byte := do
  match ← readPort .cin with
  | .eos => raiseError .unexpectedEndOfCarrier (some .cin)
  | .err => raiseError .ioFailure (some .cin)
  | .byte b => do
    modify State.countCarrier
    pure b

/-- `StegoWrite(b)` of R67. -/
def stegoWrite (b : Byte) : Engine Unit := do
  if ← writePort .sout b then modify State.countStego
  else raiseError .ioFailure (some .sout)

/-- A read of PIN or EIN, which treats EOS and ERR alike (R68, R69). -/
def sourceRead (p : InId) : Engine Byte := do
  match ← readPort p with
  | .byte b => pure b
  | .eos => raiseError .ioFailure (some p.port)
  | .err => raiseError .ioFailure (some p.port)

/-- `PayloadRead()` of R68. -/
def payloadRead : Engine Byte := sourceRead .pin

/-- `ExtRead()` of R69. -/
def extRead : Engine Byte := sourceRead .ein

/-- A write of POUT or EOUT (R70, R71). -/
def sinkWrite (p : OutId) (b : Byte) : Engine Unit := do
  if ← writePort p b then pure () else raiseError .ioFailure (some p.port)

/-- `PayloadWrite(b)` of R70. -/
def payloadWrite (b : Byte) : Engine Unit := sinkWrite .pout b

/-- `ExtWrite(b)` of R71. -/
def extWrite (b : Byte) : Engine Unit := sinkWrite .eout b

/-! ## The command-start checks -/

/-- The ports a command needs, in ascending identifier (R98). -/
def portsRequired : Instr → List Port
  | .loadhdr => [.cin]
  | .capest => []
  | .chkcap => []
  | .packb => [.cin, .sout]
  | .packw => [.cin, .sout]
  | .unpackb => [.cin]
  | .unpackw => [.cin]
  | .encode => [.cin, .sout, .pin, .ein]
  | .decode => [.cin, .pout, .eout]
  | .emithdr => [.sout]
  | .copy => [.cin, .sout]
  | .copyrest => [.cin, .sout]
  | .skip => [.cin]

/-- The first required port that is not attached raises UnopenableFile (R97, R252). -/
def checkPorts : List Port → Engine Unit
  | [] => pure ()
  | p :: ps => do
    if (← get).attached p then checkPorts ps else raiseError .unopenableFile (some p)

/-- Whether a command checks MLEN at its start (R97): ENCODE and DECODE. -/
def checksMarkerLen (i : Instr) : Bool := i == .encode || i == .decode

/-- `validate(v)` of R97 for a word that is a command; a word that is none is rejected before (`rejectCommand`). -/
def validate (i : Instr) : Engine Unit := do
  if checksMarkerLen i && !markerLenOk (← get) then raiseError .invalidArguments none
  checkPorts (portsRequired i)

/-! ## Start, raise, completion -/

/-- The start of a command by a write of `v` to CMD, up to VALIDATE (R95). The write attempts of R65 count from here. -/
def State.start (s : State) (v : Word) : State :=
  { s with
    cmd := v, status := statusStarted, ccnt := 0, ocnt := 0
    sout := { s.sout with attempts := 0 }, pout := { s.pout with attempts := 0 }, eout := { s.eout with attempts := 0 } }

/-- TAKING AN ERROR (R255), the core's counterpart of exception entry: FAILSTATE, FAILPORT, ERR, FAIL, DONE, STATE and BUSY
are written, no other register changes, no port is touched. There is no return from it (R262): the next command start
clears what it wrote. -/
def State.raise (s : State) (r : Raise) : State := ({ s with status := statusRaised r s.status } : State).forgetHidden

/-- Completing a command (R95). -/
def State.finish (s : State) : State := ({ s with status := statusDone s.status } : State).forgetHidden

/-- The end of a command: DONE, or FAIL with what the raise recorded (R95, R255, R271). -/
def endCommand : EStateM.Result Raise State Unit → State
  | .ok _ s => s.finish
  | .error r s => s.raise r

/-- A whole command as one big step (R78, R95): start, validate, execute its rule, end. -/
def runCommand (i : Instr) (body : Engine Unit) (s : State) : Host.Outcome State Fault Refusal :=
  .next (endCommand ((do validate i; body : Engine Unit) (s.start (encode i))))

/-- A CMD write whose word is no command: started, and InvalidArguments raised at VALIDATE (R91, R93, R95, R97). -/
def rejectCommand (v : Word) (s : State) : State :=
  (s.start v).raise { kind := .invalidArguments, port := none }

/-! ## Reset -/

/-- What an asserted reset does (R290): every register takes its value of R51 and the engine is IDLE; the ports stay. The
line itself is released. The hidden state is unspecified (R292); log 3. -/
def State.afterReset (s : State) : State :=
  { State.reset with
    cin := s.cin, pin := s.pin, ein := s.ein, sout := s.sout, pout := s.pout, eout := s.eout
    host := s.host, epoch := s.epoch }

end Sys2Proof.Machine
end

