-- ==== Sys2Proof/Machine/Capacity.lean ====
section
/-! DEFINITION. Machine/Capacity.lean: the Capacity Estimator: LOADHDR, CAPEST, CHKCAP (40_capacity.md). -/

namespace Sys2Proof.Machine

/-- `ReadHeader()` of R112: HDR[i] is written as soon as its byte arrives. -/
def readHeader : Engine Unit :=
  forUpTo Config.hdrLen fun i => do
    modify (·.withIdx i)
    let b ← carrierRead
    modify (·.withHdrByte i b)

/-- What `Estimate()` leaves (R114): WIDTH and HEIGHT from the header, unsigned little-endian, and CAP, computed exactly. -/
def State.estimated (s : State) : State :=
  let w := hdrLe32 s Config.widthOff
  let h := hdrLe32 s Config.heightOff
  { s with width := w, height := h, cap := capOf w h }

/-- `Estimate()` of R114. -/
def estimate : Engine Unit := modify State.estimated

/-- S > CAP (R119, R120). -/
def insufficient (s : State) : Bool := s.cap.toNat < frameSize s

/-- What `CheckCapacity()` leaves (R119): RESULT, and INSUF when insufficient. -/
def State.capacityChecked (s : State) : State :=
  if insufficient s then { s with result := 0, status := statusInsufficient s.status } else { s with result := 1 }

/-- `CheckCapacity()` of R119; it answers whether the capacity is sufficient. -/
def checkCapacity : Engine Bool := fun s => .ok (!insufficient s) s.capacityChecked

/-- LOADHDR (R111). -/
def execLoadhdr (s : State) : Host.Outcome State Fault Refusal :=
  runCommand .loadhdr (do setSeq .prim; readHeader) s

/-- CAPEST (R113). -/
def execCapest (s : State) : Host.Outcome State Fault Refusal :=
  runCommand .capest (do setSeq .prim; estimate) s

/-- CHKCAP (R117): an insufficient capacity is a result, not an error. -/
def execChkcap (s : State) : Host.Outcome State Fault Refusal :=
  runCommand .chkcap (do setSeq .prim; let _ ← checkCapacity) s

end Sys2Proof.Machine
end

