-- ==== Sys2Proof/Machine/Unpacker.lean ====
section
/-! DEFINITION. Machine/Unpacker.lean: the Bit Unpacker: UNPACKB, UNPACKW (42_bit_unpacker.md). -/

namespace Sys2Proof.Machine

/-- The loop of R150 and R153: the LSBs of `w` carrier bytes, MSB first, in the hidden accumulator. -/
def unpackBits (w : Nat) : Engine Word := do
  modify (·.withAcc 0)
  forUpTo w fun i => do
    modify (·.withBit i)
    let c ← carrierRead
    modify fun s => s.withAcc (shiftIn w s.hidden.acc c)
  return (← get).hidden.acc

/-- `UnpackByte()` of R150. -/
def unpackByte : Engine Byte := do
  let acc ← unpackBits 8
  return acc.extractLsb' 0 8

/-- `UnpackInt32()` of R153. -/
def unpackInt32 : Engine Word := unpackBits Config.lenFieldBits

/-- UNPACKB (R151): RESULT is written only when the byte is complete. -/
def execUnpackb (s : State) : Host.Outcome State Fault Refusal :=
  runCommand .unpackb (do
    setSeq .prim
    let b ← unpackByte
    modify fun t => { t with result := b.setWidth 32 }) s

/-- UNPACKW (R154): RESULT is written only when the value is complete. -/
def execUnpackw (s : State) : Host.Outcome State Fault Refusal :=
  runCommand .unpackw (do
    setSeq .prim
    let v ← unpackInt32
    modify fun t => { t with result := v }) s

end Sys2Proof.Machine
end

