-- ==== Sys2Proof/Machine/FrameReader.lean ====
section
/-! DEFINITION. Machine/FrameReader.lean: the Frame Reader: DECODE (44_frame_reader.md). -/

namespace Sys2Proof.Machine

/-- RX_ELEN and RX_PLEN cleared by a DECODE whose validation succeeded (R95, R41, R42). -/
def clearDecoded : Engine Unit := modify fun s => { s with rxElen := 0, rxPlen := 0 }

/-- The unpacking half of MARKER: all MLEN bytes into RXM (R203). -/
def unpackMarker : Engine Unit := do
  forUpTo (← get).mlen.toNat fun i => do
    modify (·.withIdx i)
    let b ← unpackByte
    modify (·.withRxmByte i b)

/-- The comparing half of MARKER: every RXM[i] against MARKER[i][7:0] (R203, R254). -/
def compareMarker : Engine Unit := do
  forUpTo (← get).mlen.toNat fun i => do
    modify (·.withIdx i)
    let s ← get
    if fileByte s.hidden.rxm i != fileByte s.marker i then raiseError .markerMismatch (some .cin)

/-- EXTLEN (R205): RX_ELEN is written only after all 32 carrier bytes are read. -/
def readExtLen : Engine Unit := do
  let e ← unpackInt32
  modify fun s => { s with rxElen := e }

/-- EXT (R206): each byte is unpacked and written to EOUT. -/
def readExt : Engine Unit := do
  forUpTo (← get).rxElen.toNat fun i => do
    modify (·.withIdx i)
    let b ← unpackByte
    extWrite b

/-- PAYLEN (R207): RX_PLEN is written only after all 32 carrier bytes are read. -/
def readPayLen : Engine Unit := do
  let p ← unpackInt32
  modify fun s => { s with rxPlen := p }

/-- PAYLOAD (R208): each byte is unpacked and written to POUT before the next is unpacked. -/
def readPayload : Engine Unit := do
  forUpTo (← get).rxPlen.toNat fun i => do
    modify (·.withIdx i)
    let b ← unpackByte
    payloadWrite b

/-- The states of DECODE after VALIDATE, in order (R201, R49), the clear of R95 first. -/
def decodeBody : Engine Unit := do
  clearDecoded
  setSeq .header
  readHeader
  setSeq .marker
  unpackMarker
  compareMarker
  setSeq .extlen
  readExtLen
  setSeq .ext
  readExt
  setSeq .paylen
  readPayLen
  setSeq .payload
  readPayload

/-- DECODE (R201). -/
def execDecode (s : State) : Host.Outcome State Fault Refusal := runCommand .decode decodeBody s

end Sys2Proof.Machine
end

