-- ==== Sys2Proof/Machine/Packer.lean ====
section
/-! DEFINITION. Machine/Packer.lean: the Bit Packer: PACKB, PACKW (41_bit_packer.md). -/

namespace Sys2Proof.Machine

/-- One bit of a pack: the carrier read, then the stego write of the byte with its LSB replaced (R75, R130, R135). -/
def packBit (b : Bool) : Engine Unit := do
  let c ← carrierRead
  stegoWrite (withLsb c b)

/-- The loop of R130 and R133 over the bits of `v`, MSB first. -/
def packBits {w : Nat} (v : BitVec w) : Engine Unit :=
  forUpTo w fun i => do
    modify (·.withBit i)
    packBit (msbFirst v i)

/-- `PackByte(b)` of R130. -/
def packByte (b : Byte) : Engine Unit := packBits b

/-- `PackInt32(v)` of R133. -/
def packInt32 (v : Word) : Engine Unit := packBits v

/-- PACKB (R131): ARG[31:8] is ignored. -/
def execPackb (s : State) : Host.Outcome State Fault Refusal :=
  runCommand .packb (do setSeq .prim; packByte (argByte (← get))) s

/-- PACKW (R134). -/
def execPackw (s : State) : Host.Outcome State Fault Refusal :=
  runCommand .packw (do setSeq .prim; packInt32 (argWord (← get))) s

end Sys2Proof.Machine
end

