-- ==== Sys2Proof/Machine/Passthrough.lean ====
section
/-! DEFINITION. Machine/Passthrough.lean: the Carrier Passthrough: EMITHDR, COPY, COPYREST, SKIP (45_passthrough.md). -/

namespace Sys2Proof.Machine

/-- `EmitHeader()` of R230. -/
def emitHeader : Engine Unit :=
  forUpTo Config.hdrLen fun i => do
    modify (·.withIdx i)
    stegoWrite (fileByte (← get).hdr i)

/-- `CopyN(n)` of R232. -/
def copyN (n : Nat) : Engine Unit :=
  forUpTo n fun i => do
    modify (·.withIdx i)
    let b ← carrierRead
    stegoWrite b

/-- The loop of R234, for at most `n` reads of CIN. -/
def copyRestWithin : Nat → Engine Unit
  | 0 => pure ()
  | n + 1 => do
    match ← readPort .cin with
    | .eos => pure ()
    | .err => raiseError .ioFailure (some .cin)
    | .byte b => do
      modify State.countCarrier
      stegoWrite b
      copyRestWithin n

/-- `CopyRest()` of R234. CIN holds a finite number of items (R64), and each turn but the last consumes one, so one read
more than there are items always meets EOS. -/
def copyRest : Engine Unit := do
  copyRestWithin ((← get).cin.items.length + 1)

/-- `SkipN(n)` of R236. -/
def skipN (n : Nat) : Engine Unit :=
  forUpTo n fun i => do
    modify (·.withIdx i)
    let _ ← carrierRead

/-- EMITHDR (R231). -/
def execEmithdr (s : State) : Host.Outcome State Fault Refusal :=
  runCommand .emithdr (do setSeq .prim; emitHeader) s

/-- COPY (R233). -/
def execCopy (s : State) : Host.Outcome State Fault Refusal :=
  runCommand .copy (do setSeq .prim; copyN (argCount (← get))) s

/-- COPYREST (R235). -/
def execCopyrest (s : State) : Host.Outcome State Fault Refusal :=
  runCommand .copyrest (do setSeq .prim; copyRest) s

/-- SKIP (R237). -/
def execSkip (s : State) : Host.Outcome State Fault Refusal :=
  runCommand .skip (do setSeq .prim; skipN (argCount (← get))) s

end Sys2Proof.Machine
end

