-- ==== Sys2Proof/Machine/FrameWriter.lean ====
section
/-! DEFINITION. Machine/FrameWriter.lean: the Frame Writer: ENCODE (43_frame_writer.md). -/

namespace Sys2Proof.Machine

/-- CAPCHECK (R173): the estimate, then the check, whose insufficiency is ENCODE's error. -/
def capCheck : Engine Unit := do
  estimate
  if !(← checkCapacity) then raiseError .insufficientCapacity none

/-- MARKER (R175): the bytes MARKER[0..MLEN-1] in order. -/
def packMarker : Engine Unit := do
  forUpTo (← get).mlen.toNat fun i => do
    modify (·.withIdx i)
    packByte (fileByte (← get).marker i)

/-- EXT (R177): each extension byte is read before the carrier bytes that carry it (R185). -/
def packExt : Engine Unit := do
  forUpTo (← get).elen.toNat fun i => do
    modify (·.withIdx i)
    let b ← extRead
    packByte b

/-- PAYLOAD (R179): each payload byte is read before the carrier bytes that carry it (R185). -/
def packPayload : Engine Unit := do
  forUpTo (← get).plen.toNat fun i => do
    modify (·.withIdx i)
    let b ← payloadRead
    packByte b

/-- The states of ENCODE after VALIDATE, in order (R171, R49). -/
def encodeBody : Engine Unit := do
  setSeq .header
  readHeader
  setSeq .capcheck
  capCheck
  setSeq .hdrcopy
  emitHeader
  setSeq .marker
  packMarker
  setSeq .extlen
  packInt32 (← get).elen
  setSeq .ext
  packExt
  setSeq .paylen
  packInt32 (← get).plen
  setSeq .payload
  packPayload
  setSeq .trailer
  copyRest

/-- ENCODE (R171). -/
def execEncode (s : State) : Host.Outcome State Fault Refusal := runCommand .encode encodeBody s

end Sys2Proof.Machine
end

