-- ==== Sys2Proof/Machine/Dispatch.lean ====
section
/-! DEFINITION. Machine/Dispatch.lean: one command as one big step (R78, R92): one arm per constructor of Instr. -/

namespace Sys2Proof.Machine

def exec (i : Instr) (s : State) : Host.Outcome State Fault Refusal :=
  match i with
  | .loadhdr => Sys2Proof.Machine.execLoadhdr s
  | .capest => Sys2Proof.Machine.execCapest s
  | .chkcap => Sys2Proof.Machine.execChkcap s
  | .packb => Sys2Proof.Machine.execPackb s
  | .packw => Sys2Proof.Machine.execPackw s
  | .unpackb => Sys2Proof.Machine.execUnpackb s
  | .unpackw => Sys2Proof.Machine.execUnpackw s
  | .encode => Sys2Proof.Machine.execEncode s
  | .decode => Sys2Proof.Machine.execDecode s
  | .emithdr => Sys2Proof.Machine.execEmithdr s
  | .copy => Sys2Proof.Machine.execCopy s
  | .copyrest => Sys2Proof.Machine.execCopyrest s
  | .skip => Sys2Proof.Machine.execSkip s

end Sys2Proof.Machine
end

