-- ==== Sys2Proof/Machine/Registers.lean ====
section
/-! DEFINITION. Machine/Registers.lean: the register space: its map (R61), which accesses have a meaning (R60, R62), reads
and writes of registers (R22 to R46). -/

namespace Sys2Proof.Machine

/-- An access with a meaning: 32 bits wide, aligned to 4, within 0x000 to 0x3FF (R60, R62). -/
def accessOk (off size : Nat) : Bool := size == 4 && off % 4 == 0 && decide (off < 0x400)

/-- The registers below 0x100 (R61). -/
def namedRegs : List (Nat × Reg) :=
  [(0x000, .cmd), (0x004, .status), (0x008, .arg), (0x00C, .result), (0x010, .mlen), (0x014, .elen), (0x018, .plen),
   (0x01C, .width), (0x020, .height), (0x024, .capLo), (0x028, .capHi), (0x02C, .rxElen), (0x030, .rxPlen),
   (0x034, .ccntLo), (0x038, .ccntHi), (0x03C, .ocntLo), (0x040, .ocntHi)]

/-- The register at an aligned offset, none where the map has no register (R61, R62). -/
def regAt (off : Nat) : Option Reg :=
  if off < 0x100 then namedRegs.lookup off
  else if off < 0x200 then
    if (off - 0x100) / 4 < Config.markerMax then some (.marker ((off - 0x100) / 4)) else none
  else if (off - 0x200) / 4 < Config.hdrLen then some (.hdr ((off - 0x200) / 4)) else none

/-- The value a host read of a register returns (R22 to R46). A read has no side effect (R62). -/
def readReg (s : State) : Reg → Word
  | .cmd => s.cmd
  | .status => statusWord s.status
  | .arg => s.arg
  | .result => s.result
  | .mlen => s.mlen
  | .elen => s.elen
  | .plen => s.plen
  | .width => s.width
  | .height => s.height
  | .capLo => s.cap.extractLsb' 0 32
  | .capHi => s.cap.extractLsb' 32 32
  | .rxElen => s.rxElen
  | .rxPlen => s.rxPlen
  | .ccntLo => s.ccnt.extractLsb' 0 32
  | .ccntHi => s.ccnt.extractLsb' 32 32
  | .ocntLo => s.ocnt.extractLsb' 0 32
  | .ocntHi => s.ocnt.extractLsb' 32 32
  | .marker i => (fileByte s.marker i).setWidth 32
  | .hdr i => (fileByte s.hdr i).setWidth 32

/-- What a host write of a register other than CMD stores: an RW register takes the value (MARKER its low byte, R43), an
RO register ignores it (R22). A write of CMD starts a command instead (R23, R95), in Machine/HostActions.lean. -/
def writeReg (s : State) (r : Reg) (v : Word) : State :=
  match r with
  | .arg => { s with arg := v }
  | .mlen => { s with mlen := v }
  | .elen => { s with elen := v }
  | .plen => { s with plen := v }
  | .marker i => { s with marker := s.marker.setIfInBounds i (v.extractLsb' 0 8) }
  | .cmd | .status | .result | .width | .height | .capLo | .capHi | .rxElen | .rxPlen => s
  | .ccntLo | .ccntHi | .ocntLo | .ocntHi | .hdr _ => s

/-- `MemRead(off, 4)` for an access with a meaning: an unmapped offset reads 0 (R62). -/
def readOffset (s : State) (off : Nat) : Word :=
  match regAt off with
  | some r => readReg s r
  | none => 0

end Sys2Proof.Machine
end

