-- ==== Sys2Proof/Machine/HostActions.lean ====
section
/-! DEFINITION. Machine/HostActions.lean: what each action of the host does (R280, R100), and the host's position in its
program. -/

namespace Sys2Proof.Machine

/-- The host's position in its program. -/
def State.goto (s : State) (n : Nat) : State := { s with host := { s.host with hpc := n } }

/-- The host goes on to the statement after this one. -/
def State.advance (s : State) : State := s.goto (s.host.hpc + 1)

/-- The output ports of R63 that hold bytes of a failed command after a command took `s` to `t`: those that did before, and,
when this command failed, those on which it put bytes (R260). -/
def spoiledAfter (s t : State) : List OutId :=
  if t.status.fail then
    [.sout, .pout, .eout].filter fun p =>
      s.host.spoiled.contains p || decide ((s.outPort p).data.length < (t.outPort p).data.length)
  else s.host.spoiled

/-- The host's judgement of the outputs once a command has taken `s` to `t` (R260, R283 point 4; log 16). Nothing of the core
or of its ports changes. -/
def State.judged (t s : State) : State := { t with host := { t.host with spoiled := spoiledAfter s t } }

/-- A command as the host sees it end: its own meaning, and then the host's judgement of its outputs (R260, R283). -/
def runJudged (i : Instr) (s : State) : Host.Outcome State Fault Refusal :=
  match exec i s with
  | .next t => .next (t.judged s)
  | .fault r => .fault r
  | .refused r => .refused r

/-- A write of CMD (R23, R95): ignored while BUSY = 1 (R96); else the command its word decodes to runs as one big step,
or the word is rejected, which puts no byte anywhere (R91, R93). -/
def writeCmd (v : Word) (s : State) : Host.Outcome State Fault Refusal :=
  if s.status.busy then .next s
  else match decode v with
    | .ok i => runJudged i s
    | .error _ => .next (rejectCommand v s)

/-- `MemWrite(off, size, v)` (R60, R62): refused where it has no meaning, ignored at an unmapped offset and while
BUSY = 1 (R22, R96). -/
def hostWrite (off size : Nat) (v : Word) (s : State) : Host.Outcome State Fault Refusal :=
  if !accessOk off size then .refused (.accessWithoutMeaning off size)
  else match regAt off with
    | none => .next s
    | some .cmd => writeCmd v s
    | some r => .next (if s.status.busy then s else writeReg s r v)

/-- The value of a register read shown in the host's trace (R100). -/
def State.traced (s : State) (v : Word) : State := { s with host := { s.host with reads := s.host.reads ++ [v] } }

/-- `MemRead(off, size)` (R60, R62): refused where it has no meaning; any time, with no side effect on the core (R280). -/
def hostRead (off size : Nat) (s : State) : Host.Outcome State Fault Refusal :=
  if !accessOk off size then .refused (.accessWithoutMeaning off size) else .next (s.traced (readOffset s off))

/-- Field [hi:lo] of a value, as an unsigned number (R14). -/
def bitField (hi lo : Nat) (v : Word) : Nat := v.toNat / 2 ^ lo % 2 ^ (hi + 1 - lo)

/-- `beq` and `bne` (R100): the register is read through `rd`, so its value enters the trace (log 9), and the host's
position becomes `target` when the comparison with the field answers `eq`. -/
def hostBranch (eq : Bool) (off hi lo : Nat) (v : Word) (target : Nat) (s : State) : Host.Outcome State Fault Refusal :=
  if !accessOk off 4 then .refused (.accessWithoutMeaning off 4)
  else
    let x := readOffset s off
    let t := s.traced x
    .next (if (bitField hi lo x == v.toNat) == eq then t.goto target else t)

/-- An action on a port, which has a step only while BUSY = 0 (R280, R281, I-18). -/
def portAction (f : State → State) (s : State) : Host.Outcome State Fault Refusal :=
  if s.status.busy then .refused .portActionWhileBusy else .next (f s)

/-- The attached flag of a port set by the host (R280). -/
def State.withAttached (s : State) (p : Port) (b : Bool) : State :=
  match p with
  | .cin => { s with cin := { s.cin with attached := b } }
  | .sout => { s with sout := { s.sout with attached := b } }
  | .pin => { s with pin := { s.pin with attached := b } }
  | .ein => { s with ein := { s.ein with attached := b } }
  | .pout => { s with pout := { s.pout with attached := b } }
  | .eout => { s with eout := { s.eout with attached := b } }

/-- Whether the host may use the data of an output port: the last command is DONE, and no failed command has put a byte there
since the host last cleared it (R260, R283, I-3; log 16). -/
def State.outputValid (s : State) (p : OutId) : Bool := s.status.done && !s.host.spoiled.contains p

/-- The host reads an output port's data, and knows whether it is a valid output (R260, R280). -/
def State.took (s : State) (p : OutId) : State :=
  { s with host := { s.host with
      takes := s.host.takes ++ [{ port := p, data := (s.outPort p).data, valid := s.outputValid p }] } }

/-- The host clears an output port's data (R280): what a failed command had put there is removed (R260). -/
def State.cleared (s : State) (p : OutId) : State :=
  let t := s.withOut p { s.outPort p with data := [] }
  { t with host := { t.host with spoiled := t.host.spoiled.filter (· != p) } }

/-- One action of the host (R280, R100), from the state whose position has already moved past it. -/
def hostAct : HostStmt → State → Host.Outcome State Fault Refusal
  | .wr off size v => hostWrite off size v
  | .rd off size => hostRead off size
  | .beq off hi lo v target => hostBranch true off hi lo v target
  | .bne off hi lo v target => hostBranch false off hi lo v target
  | .halt => fun s => .next (s.goto s.host.prog.length)
  | .attach p => portAction (·.withAttached p true)
  | .detach p => portAction (·.withAttached p false)
  | .setItems p items => portAction fun s => s.withIn p { s.inPort p with items := items }
  | .takeData p => portAction (·.took p)
  | .clearData p => portAction (·.cleared p)
  | .planFails p ks => portAction fun s => s.withOut p { s.outPort p with fails := ks }
  | .reset => fun s => .next { s with resetLine := true }

/-- The statement the host takes next, none when it has stopped or has reached the end of its program. -/
def nextStmt (s : State) : Option HostStmt := s.host.prog[s.host.hpc]?

/-- One step: an asserted reset line resets the core (R290); else the host takes its next action; a host with no action
left leaves every register as it is (R270, log 7). -/
def stepOnce (s : State) : Host.Outcome State Fault Refusal :=
  if s.resetLine then .next s.afterReset
  else match nextStmt s with
    | some c => hostAct c s.advance
    | none => .next s

/-- The host about to write `v` to CMD, on a core that takes it: the write is the host's only statement, no reset is
asserted, and BUSY = 0 (R95, R96). -/
def State.aboutToWriteCmd (s : State) (v : Word) : State :=
  { s with
    host := { s.host with prog := [.wr 0x000 4 v], hpc := 0 }
    resetLine := false
    status := { s.status with busy := false } }

end Sys2Proof.Machine
end

