-- ==== Sys2Proof/Machine/Step.lean ====
section
/-! DEFINITION. Machine/Step.lean: one step of the machine: one action of the host (R280); and how an instruction comes to
be its next one. -/

namespace Sys2Proof.Machine

/-- One step (R78, R280, R290). -/
def step (s : State) : Host.Outcome State Fault Refusal := stepOnce s

/-- `s` with the command word `w` where step takes its next instruction: the next action of the host writes it to CMD
(R95). A command is one word (R99), so nothing of a longer instruction is left over. Log 7. -/
def State.withFetchWord (s : State) (nbits w : Nat) : State := s.aboutToWriteCmd (BitVec.ofNat 32 (w % 2 ^ nbits))

end Sys2Proof.Machine
end

