-- ==== Sys2Proof/Machine/HostProgram.lean ====
section
/-! DEFINITION. Machine/HostProgram.lean: the host's notation (R100, R101) and its duties outside the core (R283, R284). -/

namespace Sys2Proof.Machine

/-- `wr REG, v` at an aligned offset (R100). -/
def asmWr (off : Nat) (v : Word) : HostStmt := .wr off 4 v

/-- `MNEMONIC`: a write of its command word to CMD (R100). -/
def asmCommand (i : Instr) : HostStmt := asmWr 0x000 (encode i)

/-- `PACKB imm8` (R101). -/
def asmPackb (v : Byte) : List HostStmt := [asmWr 0x008 (v.setWidth 32), asmCommand .packb]

/-- `PACKW imm32` (R101). -/
def asmPackw (v : Word) : List HostStmt := [asmWr 0x008 v, asmCommand .packw]

/-- `COPY n` (R101). -/
def asmCopy (n : Word) : List HostStmt := [asmWr 0x008 n, asmCommand .copy]

/-- `SKIP n` (R101). -/
def asmSkip (n : Word) : List HostStmt := [asmWr 0x008 n, asmCommand .skip]

/-- The MARKER writes of `marker "s"`, from element `i` on (R101). -/
def asmMarkerFrom (i : Nat) : List Byte → List HostStmt
  | [] => []
  | b :: bs => asmWr (0x100 + 4 * i) (b.setWidth 32) :: asmMarkerFrom (i + 1) bs

/-- `marker "s"` (R101). -/
def asmMarker (bs : List Byte) : List HostStmt := asmMarkerFrom 0 bs ++ [asmWr 0x010 (BitVec.ofNat 32 bs.length)]

/-- `frame e, p` (R101). -/
def asmFrame (e p : Word) : List HostStmt := [asmWr 0x014 e, asmWr 0x018 p]

/-- The part of a filename after its last '.', none where it has no '.' (R284). -/
def afterLastDot : List Byte → Option (List Byte)
  | [] => none
  | b :: bs =>
    match afterLastDot bs with
    | some e => some e
    | none => if b = 0x2E then some bs else none

/-- The extension the host derives from a payload's filename, the host's duty of R284: the substring after the last '.'
with a '.' before it; HOST_NO_DOT_EXT where there is no '.' (D27). -/
def hostExtension (name : List Byte) : List Byte :=
  match afterLastDot name with
  | some e => 0x2E :: e
  | none => Config.hostNoDotExt

/-- The exit status the host reports for the last command (R283 point 5, D39). -/
def hostExitStatus (s : State) : Nat := Config.hostExitMap s.status.err

end Sys2Proof.Machine
end

