-- ==== Sys2Proof/Safety.lean ====
section
/-! DEFINITION. Safety.lean: the terms of the statements: what every reachable state satisfies, what a finished command
leaves, and what the streams hold, written from the spec's closed formulas (R132, R170, R180) and not from the loops. -/

namespace Sys2Proof.Machine

/-! ## What every reachable state satisfies -/

/-- STATUS between commands (R24 to R32, R271): nothing has run, or the last command is DONE, or it is FAIL with a legal
code in every field. -/
abbrev Status.Legal (q : Status) : Prop :=
  q.busy = false ∧
    (q = Status.reset ∨
      (q.done = true ∧ q.fail = false ∧ q.err = 0 ∧ q.state = 12 ∧ q.failstate = 0 ∧ q.failport = 0) ∨
      (q.done = false ∧ q.fail = true ∧ 1 ≤ q.err.toNat ∧ q.err.toNat ≤ 6 ∧ q.state = 13 ∧
        1 ≤ q.failstate.toNat ∧ q.failstate.toNat ≤ 11 ∧ q.failport.toNat ≤ 6))

/-- What holds of the machine between steps: STATUS is legal; slots of MARKER beyond MARKER_MAX are 0 (R43); CAP is the
capacity of WIDTH and HEIGHT and is below 2^63 (R40, R114); INSUF = 1 goes with RESULT = 0 (R119); DONE = 1 goes with a
command in CMD (R23, R103). -/
abbrev State.Inv (s : State) : Prop :=
  s.status.Legal ∧ (∀ i, Config.markerMax ≤ i → fileByte s.marker i = 0) ∧
    (s.cap.toNat = s.width.toNat * s.height.toNat * 3 / 8 ∧ s.cap.toNat < 2 ^ 63) ∧
    (s.status.insuf = true → s.result = 0) ∧
    (s.status.done = true → ∃ i, decode s.cmd = .ok i)

/-! ## What a finished command leaves -/

/-- The state after a command `i` that completed and changed nothing but what every command changes (R95): CMD, STATUS
(0x00000C02), the two counters and the count of write attempts from 0, the hidden state free (R47). -/
def State.completed (s : State) (i : Instr) : State :=
  { s with
    cmd := encode i
    status := { Status.reset with done := true, state := 12 }
    ccnt := 0, ocnt := 0
    sout := { s.sout with attempts := 0 }, pout := { s.pout with attempts := 0 }, eout := { s.eout with attempts := 0 }
    hidden := Hidden.free s.epoch, epoch := s.epoch + 1 }

/-- The state after a command word `v` that failed with kind `k` at port `p` in sequencer state `q` and changed nothing but
what every command changes (R95, R255). -/
def State.failed (s : State) (v : Word) (k : ErrKind) (p : Option Port) (q : Seq) : State :=
  { s with
    cmd := v
    status := { Status.reset with fail := true, state := 13, err := errCode k, failstate := seqCode q, failport := portIdOf p }
    ccnt := 0, ocnt := 0
    sout := { s.sout with attempts := 0 }, pout := { s.pout with attempts := 0 }, eout := { s.eout with attempts := 0 }
    hidden := Hidden.free s.epoch, epoch := s.epoch + 1 }

/-- The state after a DECODE that read a whole header `hb` and then failed: `n` carrier bytes read in all with `left` left,
`e` and `l` in RX_ELEN and RX_PLEN, and the bytes `x` and `y` on EOUT and POUT (R211). -/
def State.decodeFailed (s : State) (k : ErrKind) (p : Port) (q : Seq) (hb : Vector Byte 54) (e l : Word) (n : Nat)
    (left : List Item) (x y : List Byte) : State :=
  { s.failed (encode .decode) k (some p) q with
    hdr := hb, rxElen := e, rxPlen := l, ccnt := BitVec.ofNat 64 n, cin := { s.cin with items := left }
    eout := { s.eout with data := s.eout.data ++ x, attempts := x.length }
    pout := { s.pout with data := s.pout.data ++ y, attempts := y.length } }

/-! ## What the streams hold -/

/-- A stream of bytes with no ERR item. -/
def asItems (bs : List Byte) : List Item := bs.map Item.byte

/-- How many of some items are bytes. -/
def byteCount (l : List Item) : Nat := l.countP (· != Item.err)

/-- The bits of a unit in stream order: its bit w - 1 first (R73). -/
def bitsOf {w : Nat} (v : BitVec w) : List Bool := (List.range w).map fun k => v.getLsbD (w - 1 - k)

/-- The stego byte of a carrier byte and a payload bit: `(c & 0xFE) | bit` (R132). -/
def stegoByte (c : Byte) (b : Bool) : Byte := (c &&& 0xFE) ||| (BitVec.ofBool b).setWidth 8

/-- The stego bytes of carrier bytes and payload bits, in order (R132, R180). -/
def embed (cs : List Byte) (bits : List Bool) : List Byte := List.zipWith stegoByte cs bits

/-- The LSBs of carrier bytes, in order. -/
def lsbs (cs : List Byte) : List Bool := cs.map fun c => c.getLsbD 0

/-- The number that bits spell, the first the most significant (R150, R153). -/
def numberOf (bits : List Bool) : Nat := bits.foldl (fun n b => 2 * n + b.toNat) 0

/-- The bits of a byte string in stream order (R73). -/
def bitString (bs : List Byte) : List Bool := bs.flatMap bitsOf

/-- The marker bytes MARKER[0..MLEN-1] (R35, R43). -/
def markerBytes (s : State) : List Byte := s.marker.toList.take s.mlen.toNat

/-- The frame of R170 for extension bytes `x` and payload bytes `y`. -/
def frame (s : State) (x y : List Byte) : List Byte := markerBytes s ++ be32 s.elen ++ x ++ be32 s.plen ++ y

/-- What a successful ENCODE puts on SOUT for the carrier `c` and the frame `f` (R180): the header, the frame in the LSBs
of the following bytes, the rest unchanged. -/
def stegoOutput (c f : List Byte) : List Byte :=
  c.take 54 ++ embed ((c.drop 54).take (8 * f.length)) (bitString f) ++ c.drop (54 + 8 * f.length)

/-- None of a command's first `n` writes to an output port fails (R65). -/
abbrev OutPort.NoFails (q : OutPort) (n : Nat) : Prop := ∀ k, k < n → k ∉ q.fails

/-- Why the carrier gives no further byte, which error that is, and what stays on CIN (R64, R66): at EOS nothing is consumed,
an ERR item is consumed. -/
def CarrierStop (tail : List Item) (k : ErrKind) (left : List Item) : Prop :=
  (tail = [] ∧ k = .unexpectedEndOfCarrier ∧ left = []) ∨ (tail = .err :: left ∧ k = .ioFailure)

/-- The little-endian number in the four header bytes from `off` (R16, R72). -/
def hdrNumber (hb : Vector Byte 54) (off : Nat) : Nat :=
  (fileByte hb off).toNat + 256 * (fileByte hb (off + 1)).toNat + 65536 * (fileByte hb (off + 2)).toNat +
    16777216 * (fileByte hb (off + 3)).toNat

/-- The capacity in payload bytes that a header promises (R114). -/
def headerCapacity (hb : Vector Byte 54) : Nat := hdrNumber hb 18 * hdrNumber hb 22 * 3 / 8

/-- The size in payload bytes of the frame that the registers describe (R119, R123). -/
def frameBytes (s : State) : Nat := s.plen.toNat + s.mlen.toNat + s.elen.toNat + 4 + 4

/-- MLEN is one that ENCODE and DECODE accept (R35). -/
abbrev State.MarkerLenOk (s : State) : Prop := 1 ≤ s.mlen.toNat ∧ s.mlen.toNat ≤ Config.markerMax

/-- The sequencer state in which ENCODE handles the `k`-th carrier byte after the header (R85, R171). -/
def encodeField (s : State) (k : Nat) : Seq :=
  if k < 8 * s.mlen.toNat then .marker
  else if k < 8 * s.mlen.toNat + 32 then .extlen
  else if k < 8 * s.mlen.toNat + 32 + 8 * s.elen.toNat then .ext
  else if k < 8 * s.mlen.toNat + 64 + 8 * s.elen.toNat then .paylen
  else if k < 8 * frameBytes s then .payload
  else .trailer

/-- What a part of a command shows: its answer and its state without the hidden registers, which no host access reads
(R47). -/
def shown {α : Type} : EStateM.Result Raise State α → EStateM.Result Raise State α
  | .ok a s => .ok a { s with hidden := Hidden.reset }
  | .error r s => .error r { s with hidden := Hidden.reset }

/-- Actions of the host one after the other; none where one of them has no step. -/
def runActions : List HostStmt → State → Option State
  | [], s => some s
  | c :: cs, s =>
    match hostAct c s with
    | .next t => runActions cs t
    | .fault _ => none
    | .refused _ => none

/-- The sequence of primitive commands of R184 for extension bytes `x` and payload bytes `y`. -/
def primitiveEncode (s : State) (x y : List Byte) : List HostStmt :=
  [asmCommand .loadhdr, asmCommand .capest, asmCommand .chkcap, asmCommand .emithdr] ++
    (markerBytes s).flatMap asmPackb ++ asmPackw s.elen ++ x.flatMap asmPackb ++ asmPackw s.plen ++
    y.flatMap asmPackb ++ [asmCommand .copyrest]

end Sys2Proof.Machine
end

