-- ==== Sys2Proof/WellFormed.lean ====
section
/-! DEFINITION. WellFormed.lean: which raw material has a meaning: a command word (R91, R93), an access to the register
space (R60, R62), a value of MARKER_MAX (R11), a code of STATUS (R28, R30). -/

namespace Sys2Proof

/-- Every command is well formed: its word holds no operand, so nothing in it can be out of range (R90, R94). -/
def Instr.wellFormed : Instr → Bool
  | .loadhdr | .capest | .chkcap | .packb | .packw | .unpackb | .unpackw => true
  | .encode | .decode | .emithdr | .copy | .copyrest | .skip => true

namespace WellFormed

/-- R91: the reserved field CMD[31:8] is zero. -/
def rsvZero (w : Word) : Bool := w.toNat / 256 == 0

/-- R93: the opcode CMD[7:0] is none of 0x00 and 0x0E to 0xFF. -/
def opcodeAssigned (w : Word) : Bool := 1 ≤ w.toNat % 256 && w.toNat % 256 ≤ 13

/-- A command word that is a row of R92. -/
def commandWord (w : Word) : Bool := rsvZero w && opcodeAssigned w

/-- R60, R62: an access to the register space that the spec gives a meaning: 32 bits, aligned to 4, within 0x000 to 0x3FF. -/
def access (off size : Nat) : Bool := size == 4 && off % 4 == 0 && off < 0x400

/-- R11: a value that MARKER_MAX may have. -/
def markerMax (n : Nat) : Bool := 9 ≤ n && n ≤ 64

/-- R28: a sequencer code that some rule produces (14 and 15 are reserved). -/
def seqCode (c : BitVec 4) : Bool := c.toNat ≤ 13

/-- R30: an error code that some rule produces (7 to 15 are reserved). -/
def errCode (c : BitVec 4) : Bool := c.toNat ≤ 6

/-- R63: a port identifier that some rule produces, 0 for "no port" (7 to 15 are never produced). -/
def portCode (c : BitVec 4) : Bool := c.toNat ≤ 6

end WellFormed

end Sys2Proof
end

