-- ==== Sys2Proof/Certificates/Slice0/Obligations.lean ====
section
/-! DEFINITION. Certificates/Slice0/Obligations.lean: the statements for the provers, from the numbered rules of spec/. In
an equation `exec i s = .next { s.completed i with … }` the record on the right is the whole next state: every field that it
does not name is as `State.completed` (or `State.failed`) leaves it, which is as in `s` but for CMD, STATUS, the counters,
the count of write attempts and the free hidden state. The equation is the instruction's result and its frame at once. The
model's own in such an equation: the free hidden state and its counter (log 4), the write oracle and the count of write
attempts (logs 2, 12), and that exec includes the write of CMD (log 13). -/

open Sys2Proof Sys2Proof.Machine

/-! ## The command word -/

/-- Decode and encode agree in both directions (R92, R102, R103). -/
def Obligations.DecodeAndEncodeAgree : Prop :=
  (∀ i : Instr, i.wellFormed = true → decode (encode i) = .ok i) ∧ ∀ (w : Word) (i : Instr), decode w = .ok i → encode i = w

/-- Every 32-bit value is a command, or is invalid by its RSV field, or by its opcode (R91, R93, R103). -/
def Obligations.EveryWordDecodesOrIsInvalid : Prop :=
  ∀ w : Word,
    (WellFormed.rsvZero w = false → decode w = .error .rsvNonzero) ∧
      (WellFormed.rsvZero w = true → WellFormed.opcodeAssigned w = false → decode w = .error .reservedOpcode) ∧
      (WellFormed.commandWord w = true → ∃! i, decode w = .ok i)

/-- The thirteen command words written out from the opcode map (R92), and two invalid words (R91, R93). -/
def Obligations.CommandWordsDecode : Prop :=
  decode 0b00000000000000000000000000000001#32 = .ok .loadhdr ∧ decode 0b00000000000000000000000000000010#32 = .ok .capest ∧
    decode 0b00000000000000000000000000000011#32 = .ok .chkcap ∧ decode 0b00000000000000000000000000000100#32 = .ok .packb ∧
    decode 0b00000000000000000000000000000101#32 = .ok .packw ∧ decode 0b00000000000000000000000000000110#32 = .ok .unpackb ∧
    decode 0b00000000000000000000000000000111#32 = .ok .unpackw ∧ decode 0b00000000000000000000000000001000#32 = .ok .encode ∧
    decode 0b00000000000000000000000000001001#32 = .ok .decode ∧ decode 0b00000000000000000000000000001010#32 = .ok .emithdr ∧
    decode 0b00000000000000000000000000001011#32 = .ok .copy ∧ decode 0b00000000000000000000000000001100#32 = .ok .copyrest ∧
    decode 0b00000000000000000000000000001101#32 = .ok .skip ∧
    decode 0b00000000000000000000000000000000#32 = .error .reservedOpcode ∧
    decode 0b00000000000000000000000100001000#32 = .error .rsvNonzero

/-! ## One step -/

/-- A step whose host action writes a command word to CMD is exec of the decoded command, after the host's position has
moved on (R95, R78). What the step adds is the host's own mark on the outputs of a failed command (R260, log 16): nothing
when the command did not fail, and in any case nothing but that mark. -/
def Obligations.StepRunsDecodedCommand : Prop :=
  ∀ (s : State) (v : Word) (i : Instr), s.resetLine = false → nextStmt s = some (.wr 0x000 4 v) → s.status.busy = false →
    decode v = .ok i →
    ∃ t u, exec i s.advance = .next t ∧ step s = .next u ∧ (t.status.fail = false → u = t) ∧
      u = { t with host := { t.host with spoiled := u.host.spoiled } }

/-- A word that is no command fails with InvalidArguments at VALIDATE, whatever the ports and registers: STATUS reads
0x00001D14 and CMD the word (R91, R93, R95, R251, R255). -/
def Obligations.InvalidWordRaisesInvalidArguments : Prop :=
  ∀ (s : State) (v : Word), s.resetLine = false → nextStmt s = some (.wr 0x000 4 v) → s.status.busy = false →
    (WellFormed.rsvZero v = false ∨ WellFormed.opcodeAssigned v = false) →
    ∃ t, step s = .next t ∧ t = s.advance.failed v .invalidArguments none .validate ∧
      readOffset t 0x004 = 0x00001D14 ∧ readOffset t 0x000 = v

/-- While BUSY = 1 a host write of CMD or of any other register has no effect (R22, R96). -/
def Obligations.WritesWhileBusyAreIgnored : Prop :=
  ∀ (s : State) (off : Nat) (v : Word), s.status.busy = true → WellFormed.access off 4 = true → hostWrite off 4 v s = .next s

/-- A host read returns the register's value to the host and changes nothing of the core or its ports (R62). -/
def Obligations.HostReadHasNoSideEffect : Prop :=
  ∀ (s : State) (off : Nat), s.resetLine = false → nextStmt s = some (.rd off 4) → WellFormed.access off 4 = true →
    step s = .next { s with
      host := { s.host with hpc := s.host.hpc + 1, reads := s.host.reads ++ [readOffset s off] } }

/-- The register map (R61), the place of each field of STATUS (R24), and 0 at every unmapped aligned offset (R62). -/
def Obligations.RegisterMapReadsEveryRegister : Prop :=
  ∀ s : State,
    (readOffset s 0x000 = s.cmd ∧ readOffset s 0x004 = statusWord s.status ∧ readOffset s 0x008 = s.arg ∧
      readOffset s 0x00C = s.result ∧ readOffset s 0x010 = s.mlen ∧ readOffset s 0x014 = s.elen ∧ readOffset s 0x018 = s.plen ∧
      readOffset s 0x01C = s.width ∧ readOffset s 0x020 = s.height ∧ readOffset s 0x02C = s.rxElen ∧
      readOffset s 0x030 = s.rxPlen) ∧
    ((readOffset s 0x004).toNat =
      s.status.failport.toNat * 2 ^ 16 + s.status.failstate.toNat * 2 ^ 12 + s.status.state.toNat * 2 ^ 8 +
        s.status.err.toNat * 2 ^ 4 + s.status.insuf.toNat * 2 ^ 3 + s.status.fail.toNat * 2 ^ 2 + s.status.done.toNat * 2 +
        s.status.busy.toNat) ∧
    ((readOffset s 0x028).toNat * 2 ^ 32 + (readOffset s 0x024).toNat = s.cap.toNat ∧
      (readOffset s 0x038).toNat * 2 ^ 32 + (readOffset s 0x034).toNat = s.ccnt.toNat ∧
      (readOffset s 0x040).toNat * 2 ^ 32 + (readOffset s 0x03C).toNat = s.ocnt.toNat) ∧
    (∀ i, i < Config.markerMax → (readOffset s (0x100 + 4 * i)).toNat = (fileByte s.marker i).toNat) ∧
    (∀ i, i < 54 → (readOffset s (0x200 + 4 * i)).toNat = (fileByte s.hdr i).toNat) ∧
    ∀ off, off % 4 = 0 → (0x044 ≤ off ∧ off < 0x100 ∨ 0x100 + 4 * Config.markerMax ≤ off ∧ off < 0x200 ∨
      0x2D8 ≤ off ∧ off < 0x400) → readOffset s off = 0

/-- A host write while BUSY = 0 of any offset but CMD: an RW register reads back the value (MARKER its low byte), an RO
register and an unmapped offset ignore it, every other offset reads as before, and nothing else changes (R22, R43, R62). -/
def Obligations.RegisterWriteStoresOnlyItsRegister : Prop :=
  ∀ (s : State) (off : Nat) (v : Word), s.status.busy = false → WellFormed.access off 4 = true → off ≠ 0x000 →
    ∃ t, hostWrite off 4 v s = .next t ∧
      readOffset t off =
        (if off = 0x008 ∨ off = 0x010 ∨ off = 0x014 ∨ off = 0x018 then v
        else if 0x100 ≤ off ∧ off < 0x100 + 4 * Config.markerMax then v &&& 0xFF
        else readOffset s off) ∧
      (∀ off', off' % 4 = 0 → off' ≠ off → readOffset t off' = readOffset s off') ∧
      t = { s with arg := t.arg, mlen := t.mlen, elen := t.elen, plen := t.plen, marker := t.marker }

/-- An access that is not 32 bits wide, not aligned to 4, or outside 0x000 to 0x3FF has no step (R62). -/
def Obligations.AccessWithoutMeaningIsRefused : Prop :=
  ∀ (s : State) (off size : Nat) (v : Word), ¬(size = 4 ∧ off % 4 = 0 ∧ off < 0x400) →
    hostWrite off size v s = .refused (.accessWithoutMeaning off size) ∧
      hostRead off size s = .refused (.accessWithoutMeaning off size)

/-- The host's actions on ports, while no command runs, change that part of that port only, or show its data to the host
(R280; what the host notes then is log 16, the oracle log 2); while BUSY = 1 there is no step (R281). -/
def Obligations.PortActionsChangeOnlyTheirPort : Prop :=
  ∀ s : State,
    (s.status.busy = false →
      (∀ p items, hostAct (.setItems p items) s = .next (s.withIn p { s.inPort p with items := items })) ∧
        (∀ p, hostAct (.clearData p) s = .next { s.withOut p { s.outPort p with data := [] } with
          host := { s.host with spoiled := s.host.spoiled.filter (· != p) } }) ∧
        (∀ p, hostAct (.takeData p) s = .next { s with
          host := { s.host with takes := s.host.takes ++
            [{ port := p, data := (s.outPort p).data, valid := s.status.done && !s.host.spoiled.contains p }] } }) ∧
        (∀ p ks, hostAct (.planFails p ks) s = .next (s.withOut p { s.outPort p with fails := ks })) ∧
        (∀ p, hostAct (.attach p) s = .next (s.withAttached p true)) ∧
        (∀ p, hostAct (.detach p) s = .next (s.withAttached p false)) ∧
        ∀ p b, (∀ q, (s.withAttached p b).attached q = if q = p then b else s.attached q) ∧
          (∀ q, ((s.withAttached p b).inPort q).items = (s.inPort q).items) ∧
          (∀ q, { (s.withAttached p b).outPort q with attached := (s.outPort q).attached } = s.outPort q) ∧
          { s.withAttached p b with
            cin := s.cin, pin := s.pin, ein := s.ein, sout := s.sout, pout := s.pout, eout := s.eout } = s) ∧
    (s.status.busy = true → ∀ c : HostStmt, (∃ p items, c = .setItems p items) ∨ (∃ p, c = .clearData p) ∨
      (∃ p, c = .attach p) ∨ (∃ p, c = .detach p) ∨ (∃ p, c = .takeData p) ∨ (∃ p ks, c = .planFails p ks) →
      hostAct c s = .refused .portActionWhileBusy)

/-- The host asserts reset, and the core's next step puts every register to 0 and STATE to IDLE, and leaves the ports and
the host as they are (R290, R51). That the reset is the step after the assertion is the model's choice (log 5). -/
def Obligations.ResetClearsRegistersAndKeepsPorts : Prop :=
  (∀ s : State, ∃ t, hostAct .reset s = .next t ∧ t = { s with resetLine := true }) ∧
    ∀ s : State, s.resetLine = true → ∃ t, step s = .next t ∧ (∀ off, readOffset t off = 0) ∧ t.status = Status.reset ∧
      t.resetLine = false ∧ (∀ p, t.inPort p = s.inPort p) ∧ (∀ p, t.outPort p = s.outPort p) ∧ t.host = s.host

/-- After power-on every register reads 0 and the engine is IDLE (R51, R291). -/
def Obligations.PowerOnRegistersAreZero : Prop :=
  (∀ off, readOffset State.reset off = 0) ∧ State.reset.status = Status.reset ∧
    (∀ i, fileByte State.reset.marker i = 0) ∧ ∀ i, fileByte State.reset.hdr i = 0

/-! ## Every command -/

/-- Every command ends, in exactly one of DONE and FAIL (R271). -/
def Obligations.EveryCommandEndsDoneOrFail : Prop :=
  ∀ (i : Instr) (s : State), ∃ t, exec i s = .next t ∧ t.status.busy = false ∧ t.cmd = encode i ∧
    ((t.status.done = true ∧ t.status.fail = false ∧ t.status.state = 12) ∨
      (t.status.fail = true ∧ t.status.done = false ∧ t.status.state = 13 ∧ t.status.err ≠ 0))

/-- The invariant of `State.Inv` is kept by every step from every state that satisfies it. -/
def Obligations.EveryStepKeepsTheInvariant : Prop := ∀ s t : State, s.Inv → step s = .next t → t.Inv

/-- The invariant of `State.Inv` holds right after reset. -/
def Obligations.ResetSatisfiesTheInvariant : Prop := State.reset.Inv

/-- No command writes ARG, MLEN, ELEN, PLEN, MARKER, the reset line, or the host's side (R33, R94). -/
def Obligations.CommandsKeepTheirOperands : Prop :=
  ∀ (i : Instr) (s t : State), exec i s = .next t → t.arg = s.arg ∧ t.mlen = s.mlen ∧ t.elen = s.elen ∧ t.plen = s.plen ∧
    t.marker = s.marker ∧ t.resetLine = s.resetLine ∧ t.host = s.host

/-- Each result register is written only by the commands whose row of R94 lists it (for WIDTH, HEIGHT and CAP, log 10). -/
def Obligations.ResultsAreWrittenOnlyByTheirCommands : Prop :=
  ∀ (i : Instr) (s t : State), exec i s = .next t →
    (i ∉ [Instr.chkcap, .unpackb, .unpackw, .encode] → t.result = s.result) ∧
      (i ∉ [Instr.capest, .encode] → t.width = s.width ∧ t.height = s.height ∧ t.cap = s.cap) ∧
      (i ∉ [Instr.loadhdr, .encode, .decode] → t.hdr = s.hdr) ∧
      (i ≠ .decode → t.rxElen = s.rxElen ∧ t.rxPlen = s.rxPlen) ∧
      (i ∉ [Instr.chkcap, .encode] → t.status.insuf = false)

/-- The ports each command needs, and no transfer on any other (R98). -/
def Obligations.NoTransferOutsideTheRequiredPorts : Prop :=
  (portsRequired .loadhdr = [.cin] ∧ portsRequired .capest = [] ∧ portsRequired .chkcap = [] ∧
    portsRequired .packb = [.cin, .sout] ∧ portsRequired .packw = [.cin, .sout] ∧ portsRequired .unpackb = [.cin] ∧
    portsRequired .unpackw = [.cin] ∧ portsRequired .encode = [.cin, .sout, .pin, .ein] ∧
    portsRequired .decode = [.cin, .pout, .eout] ∧ portsRequired .emithdr = [.sout] ∧
    portsRequired .copy = [.cin, .sout] ∧ portsRequired .copyrest = [.cin, .sout] ∧ portsRequired .skip = [.cin]) ∧
  ∀ (i : Instr) (s t : State), exec i s = .next t →
    (∀ p : InId, p.port ∉ portsRequired i → t.inPort p = s.inPort p) ∧
      ∀ p : OutId, p.port ∉ portsRequired i → (t.outPort p).data = (s.outPort p).data ∧ (t.outPort p).attempts = 0

/-- Commands consume input ports from the front and append to output ports, and attach or detach none (R64, R65, R84). -/
def Obligations.InputsAreConsumedAndOutputsAppended : Prop :=
  ∀ (i : Instr) (s t : State), exec i s = .next t →
    (∀ p : InId, (t.inPort p).attached = (s.inPort p).attached ∧ ∃ used, (s.inPort p).items = used ++ (t.inPort p).items) ∧
      ∀ p : OutId, (t.outPort p).attached = (s.outPort p).attached ∧ (t.outPort p).fails = (s.outPort p).fails ∧
        ∃ out, (t.outPort p).data = (s.outPort p).data ++ out

/-- CCNT counts the bytes the command took from CIN and OCNT the bytes it put on SOUT, modulo 2^64 (R45, R46). -/
def Obligations.CountersCountTheCommandsBytes : Prop :=
  ∀ (i : Instr) (s t : State), exec i s = .next t →
    (∃ used, s.cin.items = used ++ t.cin.items ∧ t.ccnt.toNat = byteCount used % 2 ^ 64) ∧
      ∃ out, t.sout.data = s.sout.data ++ out ∧ t.ocnt.toNat = out.length % 2 ^ 64

/-! ## Errors -/

/-- A raise writes STATUS as R255 says, and no other register or port; the word is the one of R24. -/
def Obligations.RaiseRecordsTheErrorAndNothingElse : Prop :=
  ∀ (s : State) (r : Raise),
    s.raise r = { s with
      status := {
        busy := false, done := false, fail := true, insuf := s.status.insuf, err := errCode r.kind, state := 13
        failstate := s.status.state, failport := portIdOf r.port }
      hidden := (s.raise r).hidden, epoch := (s.raise r).epoch } ∧
    (readOffset (s.raise r) 0x004).toNat =
      (portIdOf r.port).toNat * 2 ^ 16 + s.status.state.toNat * 2 ^ 12 + 0xD00 + (errCode r.kind).toNat * 2 ^ 4 +
        s.status.insuf.toNat * 2 ^ 3 + 4

/-- The first required port that is not attached raises UnopenableFile at VALIDATE, with that port (R97, R252). -/
def Obligations.UnattachedPortRaisesUnopenableFile : Prop :=
  ∀ (i : Instr) (s : State) (before after : List Port) (p : Port), portsRequired i = before ++ p :: after →
    (∀ q ∈ before, s.attached q = true) → s.attached p = false → (i = .encode ∨ i = .decode → s.MarkerLenOk) →
    exec i s = .next (s.failed (encode i) .unopenableFile (some p) .validate)

/-- ENCODE and DECODE with MLEN outside 1 to MARKER_MAX raise InvalidArguments at VALIDATE; no port is read or checked, and
RX_ELEN and RX_PLEN keep their values (R35, R97, R211, R251). -/
def Obligations.MarkerLengthOutOfRangeRaisesInvalidArguments : Prop :=
  ∀ (i : Instr) (s : State), i = .encode ∨ i = .decode → (s.mlen.toNat = 0 ∨ Config.markerMax < s.mlen.toNat) →
    exec i s = .next (s.failed (encode i) .invalidArguments none .validate)

/-! ## Capacity Estimator -/

/-- LOADHDR over a carrier that holds a whole header (R111, R112). -/
def Obligations.LoadhdrReadsTheHeader : Prop :=
  ∀ (s : State) (hb : Vector Byte 54) (rest : List Item), s.cin.attached = true → s.cin.items = asItems hb.toList ++ rest →
    exec .loadhdr s = .next { s.completed .loadhdr with
      hdr := hb, cin := { s.cin with items := rest }, ccnt := 54 }

/-- LOADHDR over a carrier that ends or faults at byte k < 54: HDR[0..k-1] new, HDR[k..53] as before, CCNT = k (R111, R112). -/
def Obligations.LoadhdrStopsWhereTheCarrierStops : Prop :=
  ∀ (s : State) (bs : List Byte) (tail left : List Item) (k : ErrKind), s.cin.attached = true → bs.length < 54 →
    s.cin.items = asItems bs ++ tail → CarrierStop tail k left →
    ∃ t, exec .loadhdr s = .next t ∧
      t = { s.failed (encode .loadhdr) k (some .cin) .prim with
        cin := { s.cin with items := left }, ccnt := BitVec.ofNat 64 bs.length, hdr := t.hdr } ∧
      ∀ j, j < 54 → fileByte t.hdr j = if j < bs.length then (bs[j]?).getD 0 else fileByte s.hdr j

/-- CAPEST: WIDTH and HEIGHT are the little-endian header fields, CAP = WIDTH * HEIGHT * 3 div 8 exactly (R72, R114, R116). -/
def Obligations.CapestComputesTheExactCapacity : Prop :=
  ∀ s : State, ∃ t, exec .capest s = .next t ∧
    t = { s.completed .capest with width := t.width, height := t.height, cap := t.cap } ∧
    t.width.toNat = hdrNumber s.hdr 18 ∧ t.height.toNat = hdrNumber s.hdr 22 ∧
    t.cap.toNat = t.width.toNat * t.height.toNat * 3 / 8

/-- CHKCAP: RESULT = 1 when S <= CAP; RESULT = 0 and INSUF = 1, and still DONE, when S > CAP (R117, R119). -/
def Obligations.ChkcapReportsWhetherTheFrameFits : Prop :=
  ∀ s : State,
    (frameBytes s ≤ s.cap.toNat → exec .chkcap s = .next { s.completed .chkcap with result := 1 }) ∧
      (s.cap.toNat < frameBytes s → exec .chkcap s = .next { s.completed .chkcap with
        result := 0, status := { (s.completed .chkcap).status with insuf := true } })

/-- The check after an estimate is boundary-exact: insufficient exactly when S > CAP, which is exactly when 8 * S > CAPB; a
frame with S = CAP is sufficient (R120). -/
def Obligations.CapacityCheckIsBoundaryExact : Prop :=
  ∀ s t u : State, exec .capest s = .next t → exec .chkcap t = .next u →
    (u.status.insuf = true ↔ t.cap.toNat < frameBytes s) ∧ (u.result = 0 ↔ t.cap.toNat < frameBytes s) ∧
      (t.cap.toNat < frameBytes s ↔ hdrNumber s.hdr 18 * hdrNumber s.hdr 22 * 3 < 8 * frameBytes s) ∧
      (frameBytes s = t.cap.toNat → u.result = 1)

/-! ## Bit Packer and Bit Unpacker -/

/-- PACKB embeds ARG[7:0] in 8 carrier bytes, MSB first (R131, R132). -/
def Obligations.PackbEmbedsOneByte : Prop :=
  ∀ (s : State) (cs : List Byte) (rest : List Item), s.cin.attached = true → s.sout.attached = true → cs.length = 8 →
    s.cin.items = asItems cs ++ rest → s.sout.NoFails 8 →
    exec .packb s = .next { s.completed .packb with
      cin := { s.cin with items := rest }, ccnt := 8, ocnt := 8
      sout := { s.sout with data := s.sout.data ++ embed cs (bitsOf (s.arg.setWidth 8)), attempts := 8 } }

/-- PACKW embeds ARG in 32 carrier bytes, MSB first (R133, R134). -/
def Obligations.PackwEmbedsOneWord : Prop :=
  ∀ (s : State) (cs : List Byte) (rest : List Item), s.cin.attached = true → s.sout.attached = true → cs.length = 32 →
    s.cin.items = asItems cs ++ rest → s.sout.NoFails 32 →
    exec .packw s = .next { s.completed .packw with
      cin := { s.cin with items := rest }, ccnt := 32, ocnt := 32
      sout := { s.sout with data := s.sout.data ++ embed cs (bitsOf s.arg), attempts := 32 } }

/-- A pack whose carrier ends or faults at bit k has read k carrier bytes and written k stego bytes (R135). -/
def Obligations.PackStopsWhereTheCarrierStops : Prop :=
  ∀ (s : State) (cs : List Byte) (tail left : List Item) (k : ErrKind), s.cin.attached = true → s.sout.attached = true →
    s.cin.items = asItems cs ++ tail → CarrierStop tail k left → s.sout.NoFails cs.length →
    (cs.length < 8 → exec .packb s = .next { s.failed (encode .packb) k (some .cin) .prim with
      cin := { s.cin with items := left }, ccnt := BitVec.ofNat 64 cs.length, ocnt := BitVec.ofNat 64 cs.length
      sout := { s.sout with
        data := s.sout.data ++ embed cs (bitsOf (s.arg.setWidth 8)), attempts := cs.length } }) ∧
      (cs.length < 32 → exec .packw s = .next { s.failed (encode .packw) k (some .cin) .prim with
        cin := { s.cin with items := left }, ccnt := BitVec.ofNat 64 cs.length, ocnt := BitVec.ofNat 64 cs.length
        sout := { s.sout with data := s.sout.data ++ embed cs (bitsOf s.arg), attempts := cs.length } })

/-- A pack whose stego write fails at bit n has read n + 1 carrier bytes and written n stego bytes (R135, R257). -/
def Obligations.PackStopsWhereTheWriteFails : Prop :=
  ∀ (s : State) (cs : List Byte) (rest : List Item) (n : Nat), s.cin.attached = true → s.sout.attached = true →
    cs.length = n + 1 → s.cin.items = asItems cs ++ rest → s.sout.NoFails n → n ∈ s.sout.fails →
    (n < 8 → exec .packb s = .next { s.failed (encode .packb) .ioFailure (some .sout) .prim with
      cin := { s.cin with items := rest }, ccnt := BitVec.ofNat 64 (n + 1), ocnt := BitVec.ofNat 64 n
      sout := { s.sout with
        data := s.sout.data ++ (embed cs (bitsOf (s.arg.setWidth 8))).take n, attempts := n + 1 } }) ∧
      (n < 32 → exec .packw s = .next { s.failed (encode .packw) .ioFailure (some .sout) .prim with
        cin := { s.cin with items := rest }, ccnt := BitVec.ofNat 64 (n + 1), ocnt := BitVec.ofNat 64 n
        sout := { s.sout with data := s.sout.data ++ (embed cs (bitsOf s.arg)).take n, attempts := n + 1 } })

/-- UNPACKB leaves in RESULT the number that the LSBs of 8 carrier bytes spell, MSB first (R150, R151). -/
def Obligations.UnpackbReadsOneByte : Prop :=
  ∀ (s : State) (cs : List Byte) (rest : List Item), s.cin.attached = true → cs.length = 8 →
    s.cin.items = asItems cs ++ rest →
    exec .unpackb s = .next { s.completed .unpackb with
      cin := { s.cin with items := rest }, ccnt := 8, result := BitVec.ofNat 32 (numberOf (lsbs cs)) }

/-- UNPACKW leaves in RESULT the number that the LSBs of 32 carrier bytes spell, MSB first (R153, R154). -/
def Obligations.UnpackwReadsOneWord : Prop :=
  ∀ (s : State) (cs : List Byte) (rest : List Item), s.cin.attached = true → cs.length = 32 →
    s.cin.items = asItems cs ++ rest →
    exec .unpackw s = .next { s.completed .unpackw with
      cin := { s.cin with items := rest }, ccnt := 32, result := BitVec.ofNat 32 (numberOf (lsbs cs)) }

/-- An unpack whose carrier ends or faults at bit k has read k carrier bytes and leaves RESULT (R34, R156). -/
def Obligations.UnpackStopsWhereTheCarrierStops : Prop :=
  ∀ (s : State) (cs : List Byte) (tail left : List Item) (k : ErrKind), s.cin.attached = true →
    s.cin.items = asItems cs ++ tail → CarrierStop tail k left →
    (cs.length < 8 → exec .unpackb s = .next { s.failed (encode .unpackb) k (some .cin) .prim with
      cin := { s.cin with items := left }, ccnt := BitVec.ofNat 64 cs.length }) ∧
      (cs.length < 32 → exec .unpackw s = .next { s.failed (encode .unpackw) k (some .cin) .prim with
        cin := { s.cin with items := left }, ccnt := BitVec.ofNat 64 cs.length })

/-- The unpacker is the inverse of the packer, in both orders (R152). -/
def Obligations.UnpackInvertsPack : Prop :=
  (∀ (s t u : State) (out : List Byte) (rest : List Item), exec .packb s = .next t → t.status.done = true →
    t.sout.data = s.sout.data ++ out → u.cin.attached = true → u.cin.items = asItems out ++ rest →
    ∃ v, exec .unpackb u = .next v ∧ v.status.done = true ∧ v.result.toNat = s.arg.toNat % 256) ∧
  (∀ (s t u : State) (out : List Byte) (rest : List Item), exec .packw s = .next t → t.status.done = true →
    t.sout.data = s.sout.data ++ out → u.cin.attached = true → u.cin.items = asItems out ++ rest →
    ∃ v, exec .unpackw u = .next v ∧ v.status.done = true ∧ v.result = s.arg) ∧
  (∀ (s t u : State) (cs : List Byte) (rest : List Item), s.cin.items = asItems cs ++ rest → cs.length = 8 →
    exec .unpackb s = .next t → t.status.done = true → u.arg = t.result → u.cin.attached = true → u.sout.attached = true →
    u.cin.items = asItems cs → u.sout.NoFails 8 →
    ∃ v, exec .packb u = .next v ∧ v.status.done = true ∧ v.sout.data = u.sout.data ++ cs)

/-- `PackInt32(v)` is four `PackByte`, the most significant byte first, the point of failure included (R136). -/
def Obligations.PackInt32IsFourPackBytes : Prop :=
  ∀ (v : Word) (s : State),
    shown (packInt32 v s) =
      shown ((do
        packByte (v.extractLsb' 24 8)
        packByte (v.extractLsb' 16 8)
        packByte (v.extractLsb' 8 8)
        packByte (v.extractLsb' 0 8) : Engine Unit) s)

/-- `UnpackInt32()` is four `UnpackByte()`, the first the most significant byte (R155). -/
def Obligations.UnpackInt32IsFourUnpackBytes : Prop :=
  ∀ s : State,
    shown (unpackInt32 s) =
      shown ((do
        let b0 ← unpackByte
        let b1 ← unpackByte
        let b2 ← unpackByte
        let b3 ← unpackByte
        pure ((b0.setWidth 32 <<< 24) ||| (b1.setWidth 32 <<< 16) ||| (b2.setWidth 32 <<< 8) ||| b3.setWidth 32) :
          Engine Word) s)

/-! ## Frame Writer -/

/-- ENCODE writes the carrier with the frame embedded in the LSBs from offset 54, MSB first, and everything else of the
carrier unchanged (R170, R171, R180). That it writes WIDTH, HEIGHT and CAP is R94 and R173 over R38 and R39 (log 10). -/
def Obligations.EncodeWritesTheStegoImage : Prop :=
  ∀ (s : State) (hb : Vector Byte 54) (c x y : List Byte) (xs ys : List Item),
    s.cin.attached = true → s.sout.attached = true → s.pin.attached = true → s.ein.attached = true → s.MarkerLenOk →
    s.cin.items = asItems (hb.toList ++ c) → s.ein.items = asItems x ++ xs → x.length = s.elen.toNat →
    s.pin.items = asItems y ++ ys → y.length = s.plen.toNat →
    frameBytes s ≤ headerCapacity hb → 8 * frameBytes s ≤ c.length → s.sout.NoFails (54 + c.length) →
    (frame s x y).length = frameBytes s ∧
    exec .encode s = .next { s.completed .encode with
      hdr := hb
      width := BitVec.ofNat 32 (hdrNumber hb 18), height := BitVec.ofNat 32 (hdrNumber hb 22)
      cap := BitVec.ofNat 64 (headerCapacity hb), result := 1
      ccnt := BitVec.ofNat 64 (54 + c.length), ocnt := BitVec.ofNat 64 (54 + c.length)
      cin := { s.cin with items := [] }, ein := { s.ein with items := xs }, pin := { s.pin with items := ys }
      sout := { s.sout with
        data := s.sout.data ++ stegoOutput (hb.toList ++ c) (frame s x y), attempts := 54 + c.length } }

/-- Whenever ENCODE reaches DONE on a carrier of L bytes: L >= 54 + 8 * S, SOUT received exactly the L bytes of R180, and
CCNT = OCNT = L (R180). -/
def Obligations.EncodeDoneWroteTheStegoImage : Prop :=
  ∀ (s t : State) (c : List Byte), s.cin.items = asItems c → exec .encode s = .next t → t.status.done = true →
    ∃ x y : List Byte, s.ein.items = asItems x ++ t.ein.items ∧ x.length = s.elen.toNat ∧
      s.pin.items = asItems y ++ t.pin.items ∧ y.length = s.plen.toNat ∧
      54 + 8 * (frame s x y).length ≤ c.length ∧ t.sout.data = s.sout.data ++ stegoOutput c (frame s x y) ∧
      (stegoOutput c (frame s x y)).length = c.length ∧
      t.ccnt = BitVec.ofNat 64 c.length ∧ t.ocnt = BitVec.ofNat 64 c.length

/-- ENCODE whose frame exceeds the capacity of the header's width and height fails at CAPCHECK with nothing written
(R121, R171, R173, R253). That it writes WIDTH, HEIGHT and CAP is R94 and R173 over R38 and R39 (log 10). -/
def Obligations.EncodeOverCapacityWritesNothing : Prop :=
  ∀ (s : State) (hb : Vector Byte 54) (rest : List Item),
    s.cin.attached = true → s.sout.attached = true → s.pin.attached = true → s.ein.attached = true → s.MarkerLenOk →
    s.cin.items = asItems hb.toList ++ rest → headerCapacity hb < frameBytes s →
    exec .encode s = .next { s.failed (encode .encode) .insufficientCapacity none .capcheck with
      status := { (s.failed (encode .encode) .insufficientCapacity none .capcheck).status with insuf := true }
      hdr := hb
      width := BitVec.ofNat 32 (hdrNumber hb 18), height := BitVec.ofNat 32 (hdrNumber hb 22)
      cap := BitVec.ofNat 64 (headerCapacity hb), result := 0
      ccnt := 54, cin := { s.cin with items := rest } }

/-- ENCODE stopped by its carrier or by a write to SOUT, in every row of the table of R181: in HEADER; in HDRCOPY (WIDTH,
HEIGHT and CAP: log 10); and, from MARKER to TRAILER, in the field that it has reached, with what a successful run would
have written up to there on SOUT (R112, R174, R181, R182). The carrier's end in TRAILER is no stop (R234). -/
def Obligations.EncodeStopsWhereTheCarrierOrTheOutputStops : Prop :=
  ∀ s : State,
    s.cin.attached = true → s.sout.attached = true → s.pin.attached = true → s.ein.attached = true → s.MarkerLenOk →
    (∀ (bs : List Byte) (tail left : List Item) (k : ErrKind), bs.length < 54 → s.cin.items = asItems bs ++ tail →
      CarrierStop tail k left →
      ∃ t, exec .encode s = .next t ∧
        t = { s.failed (encode .encode) k (some .cin) .header with
          cin := { s.cin with items := left }, ccnt := BitVec.ofNat 64 bs.length, hdr := t.hdr } ∧
        ∀ j, j < 54 → fileByte t.hdr j = if j < bs.length then (bs[j]?).getD 0 else fileByte s.hdr j) ∧
    ∀ hb : Vector Byte 54, frameBytes s ≤ headerCapacity hb →
      (∀ (rest : List Item) (n : Nat), s.cin.items = asItems hb.toList ++ rest → n < 54 → s.sout.NoFails n →
        n ∈ s.sout.fails →
        exec .encode s = .next { s.failed (encode .encode) .ioFailure (some .sout) .hdrcopy with
          hdr := hb
          width := BitVec.ofNat 32 (hdrNumber hb 18), height := BitVec.ofNat 32 (hdrNumber hb 22)
          cap := BitVec.ofNat 64 (headerCapacity hb), result := 1
          ccnt := 54, ocnt := BitVec.ofNat 64 n, cin := { s.cin with items := rest }
          sout := { s.sout with data := s.sout.data ++ hb.toList.take n, attempts := n + 1 } }) ∧
      ∀ (c x y : List Byte) (rest xs ys : List Item), s.cin.items = asItems (hb.toList ++ c) ++ rest →
        s.ein.items = asItems x ++ xs → x.length = s.elen.toNat → s.pin.items = asItems y ++ ys → y.length = s.plen.toNat →
        (∀ (k : ErrKind) (left : List Item), CarrierStop rest k left →
          (k = .unexpectedEndOfCarrier → c.length < 8 * frameBytes s) → s.sout.NoFails (54 + c.length) →
          ∃ t, exec .encode s = .next t ∧
            t.status = (s.failed (encode .encode) k (some .cin) (encodeField s c.length)).status ∧
            t.result = 1 ∧ t.cin.items = left ∧
            t.ccnt = BitVec.ofNat 64 (54 + c.length) ∧ t.ocnt = BitVec.ofNat 64 (54 + c.length) ∧
            t.sout.data = s.sout.data ++ stegoOutput (hb.toList ++ c) (frame s x y)) ∧
        ∀ n, c.length = n + 1 → s.sout.NoFails (54 + n) → 54 + n ∈ s.sout.fails →
          ∃ t, exec .encode s = .next t ∧
            t.status = (s.failed (encode .encode) .ioFailure (some .sout) (encodeField s n)).status ∧
            t.result = 1 ∧ t.cin.items = rest ∧
            t.ccnt = BitVec.ofNat 64 (54 + n + 1) ∧ t.ocnt = BitVec.ofNat 64 (54 + n) ∧
            t.sout.data = s.sout.data ++ (stegoOutput (hb.toList ++ c) (frame s x y)).take (54 + n)

/-- ENCODE whose EIN gives fewer than ELEN bytes fails with IOFailure(EIN) at EXT, even where the carrier ends at the same
point; SOUT holds what was written (R69, R171 to R173, R177, R185, R257). WIDTH, HEIGHT and CAP: log 10. -/
def Obligations.EncodeStopsWhereTheExtensionStops : Prop :=
  ∀ (s : State) (hb : Vector Byte 54) (c x : List Byte) (rest tail left : List Item) (k : ErrKind),
    s.cin.attached = true → s.sout.attached = true → s.pin.attached = true → s.ein.attached = true → s.MarkerLenOk →
    s.cin.items = asItems (hb.toList ++ c) ++ rest → s.ein.items = asItems x ++ tail → CarrierStop tail k left →
    x.length < s.elen.toNat → frameBytes s ≤ headerCapacity hb → c.length = 8 * (s.mlen.toNat + 4 + x.length) →
    s.sout.NoFails (54 + c.length) →
    exec .encode s = .next { s.failed (encode .encode) .ioFailure (some .ein) .ext with
      hdr := hb
      width := BitVec.ofNat 32 (hdrNumber hb 18), height := BitVec.ofNat 32 (hdrNumber hb 22)
      cap := BitVec.ofNat 64 (headerCapacity hb), result := 1
      ccnt := BitVec.ofNat 64 (54 + c.length), ocnt := BitVec.ofNat 64 (54 + c.length)
      cin := { s.cin with items := rest }, ein := { s.ein with items := left }
      sout := { s.sout with
        data := s.sout.data ++ hb.toList ++ embed c (bitString (markerBytes s ++ be32 s.elen ++ x))
        attempts := 54 + c.length } }

/-- ENCODE whose PIN gives fewer than PLEN bytes fails with IOFailure(PIN) at PAYLOAD, even where the carrier ends at the
same point; SOUT holds what was written (R68, R171 to R173, R179, R185, R257). WIDTH, HEIGHT and CAP: log 10. -/
def Obligations.EncodeStopsWhereThePayloadStops : Prop :=
  ∀ (s : State) (hb : Vector Byte 54) (c x y : List Byte) (rest xs tail left : List Item) (k : ErrKind),
    s.cin.attached = true → s.sout.attached = true → s.pin.attached = true → s.ein.attached = true → s.MarkerLenOk →
    s.cin.items = asItems (hb.toList ++ c) ++ rest → s.ein.items = asItems x ++ xs → x.length = s.elen.toNat →
    s.pin.items = asItems y ++ tail → CarrierStop tail k left → y.length < s.plen.toNat →
    frameBytes s ≤ headerCapacity hb → c.length = 8 * (s.mlen.toNat + 8 + x.length + y.length) →
    s.sout.NoFails (54 + c.length) →
    exec .encode s = .next { s.failed (encode .encode) .ioFailure (some .pin) .payload with
      hdr := hb
      width := BitVec.ofNat 32 (hdrNumber hb 18), height := BitVec.ofNat 32 (hdrNumber hb 22)
      cap := BitVec.ofNat 64 (headerCapacity hb), result := 1
      ccnt := BitVec.ofNat 64 (54 + c.length), ocnt := BitVec.ofNat 64 (54 + c.length)
      cin := { s.cin with items := rest }, ein := { s.ein with items := xs }, pin := { s.pin with items := left }
      sout := { s.sout with
        data := s.sout.data ++ hb.toList ++ embed c (bitString (frame s x y))
        attempts := 54 + c.length } }

/-- ENCODE makes the same transfers, and leaves the same HDR, WIDTH, HEIGHT, CAP, RESULT and INSUF, as the sequence of
primitive commands of R184, when no command in it fails. -/
def Obligations.EncodeEqualsThePrimitiveSequence : Prop :=
  ∀ (s : State) (hb : Vector Byte 54) (c x y : List Byte) (xs ys : List Item), s.status.busy = false →
    s.cin.attached = true → s.sout.attached = true → s.pin.attached = true → s.ein.attached = true → s.MarkerLenOk →
    s.cin.items = asItems (hb.toList ++ c) → s.ein.items = asItems x ++ xs → x.length = s.elen.toNat →
    s.pin.items = asItems y ++ ys → y.length = s.plen.toNat →
    frameBytes s ≤ headerCapacity hb → 8 * frameBytes s ≤ c.length → s.sout.fails = [] →
    ∃ t u, exec .encode s = .next t ∧ runActions (primitiveEncode s x y) s = some u ∧
      t.status.done = true ∧ u.status.done = true ∧ u.sout.data = t.sout.data ∧ u.cin.items = t.cin.items ∧
      u.hdr = t.hdr ∧ u.width = t.width ∧ u.height = t.height ∧ u.cap = t.cap ∧ u.result = t.result ∧
      u.status.insuf = t.status.insuf

/-! ## Frame Reader -/

/-- DECODE of a carrier whose LSBs after the header spell a frame with the expected marker: the extension on EOUT, the
payload on POUT, the lengths in RX_ELEN and RX_PLEN, the rest of the carrier unread (R201, R209). -/
def Obligations.DecodeExtractsTheFrame : Prop :=
  ∀ (s : State) (hb : Vector Byte 54) (c x y : List Byte) (e p : Word) (rest : List Item),
    s.cin.attached = true → s.pout.attached = true → s.eout.attached = true → s.MarkerLenOk →
    s.cin.items = asItems (hb.toList ++ c) ++ rest →
    lsbs c = bitString (markerBytes s ++ be32 e ++ x ++ be32 p ++ y) → x.length = e.toNat → y.length = p.toNat →
    s.eout.NoFails x.length → s.pout.NoFails y.length →
    exec .decode s = .next { s.completed .decode with
      hdr := hb, rxElen := e, rxPlen := p, ccnt := BitVec.ofNat 64 (54 + c.length), cin := { s.cin with items := rest }
      eout := { s.eout with data := s.eout.data ++ x, attempts := x.length }
      pout := { s.pout with data := s.pout.data ++ y, attempts := y.length } }

/-- DECODE of a carrier whose marker bytes differ: MarkerMismatch(CIN) at MARKER after all MLEN bytes are read, nothing
written, RX_ELEN and RX_PLEN 0, CCNT = 54 + 8 * MLEN (R203, R254). -/
def Obligations.DecodeMarkerMismatch : Prop :=
  ∀ (s : State) (hb : Vector Byte 54) (c ms : List Byte) (rest : List Item),
    s.cin.attached = true → s.pout.attached = true → s.eout.attached = true → s.MarkerLenOk →
    s.cin.items = asItems (hb.toList ++ c) ++ rest → lsbs c = bitString ms → ms.length = s.mlen.toNat → ms ≠ markerBytes s →
    exec .decode s = .next { s.failed (encode .decode) .markerMismatch (some .cin) .marker with
      hdr := hb, rxElen := 0, rxPlen := 0, ccnt := BitVec.ofNat 64 (54 + 8 * s.mlen.toNat)
      cin := { s.cin with items := rest } }

/-- No byte is written to POUT or EOUT before the marker has matched: a DECODE that fails at MARKER or earlier leaves both
(R204). -/
def Obligations.DecodeWritesNothingBeforeTheMarkerMatched : Prop :=
  ∀ s t : State, exec .decode s = .next t → t.status.fail = true → t.status.failstate.toNat ≤ 5 →
    t.pout.data = s.pout.data ∧ t.eout.data = s.eout.data

/-- DECODE stopped by its carrier or by a write to EOUT or POUT, in every row of the table of R211 but the mismatch: the
error, the state reached, the lengths decoded and the whole bytes written; a carrier that ends inside the marker is no
mismatch (R203, R205 to R208, R211, R213). -/
def Obligations.DecodeStopsWhereTheCarrierOrAnOutputStops : Prop :=
  ∀ s : State, s.cin.attached = true → s.pout.attached = true → s.eout.attached = true → s.MarkerLenOk →
    (∀ (bs : List Byte) (tail left : List Item) (k : ErrKind), bs.length < 54 → s.cin.items = asItems bs ++ tail →
      CarrierStop tail k left →
      ∃ t, exec .decode s = .next t ∧ t = s.decodeFailed k .cin .header t.hdr 0 0 bs.length left [] [] ∧
        ∀ j, j < 54 → fileByte t.hdr j = if j < bs.length then (bs[j]?).getD 0 else fileByte s.hdr j) ∧
    ∀ (hb : Vector Byte 54) (c d : List Byte) (tail : List Item), s.cin.items = asItems (hb.toList ++ c ++ d) ++ tail →
      (∀ (k : ErrKind) (left : List Item), CarrierStop tail k left →
        (c = [] → d.length < 8 * s.mlen.toNat →
          exec .decode s = .next (s.decodeFailed k .cin .marker hb 0 0 (54 + d.length) left [] [])) ∧
        (lsbs c = bitString (markerBytes s) → d.length < 32 →
          exec .decode s = .next (s.decodeFailed k .cin .extlen hb 0 0 (54 + c.length + d.length) left [] [])) ∧
        (∀ (e : Word) (x : List Byte), lsbs c = bitString (markerBytes s ++ be32 e ++ x) → s.eout.NoFails x.length →
          (x.length < e.toNat → d.length < 8 →
            exec .decode s = .next (s.decodeFailed k .cin .ext hb e 0 (54 + c.length + d.length) left x [])) ∧
          (x.length = e.toNat → d.length < 32 →
            exec .decode s = .next (s.decodeFailed k .cin .paylen hb e 0 (54 + c.length + d.length) left x []))) ∧
        ∀ (e p : Word) (x y : List Byte), lsbs c = bitString (markerBytes s ++ be32 e ++ x ++ be32 p ++ y) →
          x.length = e.toNat → y.length < p.toNat → d.length < 8 → s.eout.NoFails x.length → s.pout.NoFails y.length →
          exec .decode s = .next (s.decodeFailed k .cin .payload hb e p (54 + c.length + d.length) left x y)) ∧
      (∀ (e : Word) (x : List Byte) (b : Byte), lsbs c = bitString (markerBytes s ++ be32 e ++ x ++ [b]) →
        x.length < e.toNat → s.eout.NoFails x.length → x.length ∈ s.eout.fails →
        exec .decode s = .next
          { s.decodeFailed .ioFailure .eout .ext hb e 0 (54 + c.length) (asItems d ++ tail) x [] with
            eout := { s.eout with data := s.eout.data ++ x, attempts := x.length + 1 } }) ∧
      ∀ (e p : Word) (x y : List Byte) (b : Byte),
        lsbs c = bitString (markerBytes s ++ be32 e ++ x ++ be32 p ++ y ++ [b]) → x.length = e.toNat → y.length < p.toNat →
        s.eout.NoFails x.length → s.pout.NoFails y.length → y.length ∈ s.pout.fails →
        exec .decode s = .next
          { s.decodeFailed .ioFailure .pout .payload hb e p (54 + c.length) (asItems d ++ tail) x y with
            pout := { s.pout with data := s.pout.data ++ y, attempts := y.length + 1 } }

/-- The round trip: what an ENCODE that reached DONE embedded, a DECODE of its output with the same marker recovers (R210). -/
def Obligations.DecodeRecoversWhatEncodeEmbedded : Prop :=
  ∀ (s t u : State) (c o : List Byte), s.cin.items = asItems c → exec .encode s = .next t → t.status.done = true →
    t.sout.data = s.sout.data ++ o →
    u.mlen = s.mlen → u.marker = s.marker → u.cin.attached = true → u.pout.attached = true → u.eout.attached = true →
    u.cin.items = asItems o → u.eout.NoFails s.elen.toNat → u.pout.NoFails s.plen.toNat →
    ∃ (x y : List Byte) (v : State), s.ein.items = asItems x ++ t.ein.items ∧ x.length = s.elen.toNat ∧
      s.pin.items = asItems y ++ t.pin.items ∧ y.length = s.plen.toNat ∧
      exec .decode u = .next v ∧ v.status.done = true ∧ v.eout.data = u.eout.data ++ x ∧ v.pout.data = u.pout.data ++ y ∧
      v.rxElen = s.elen ∧ v.rxPlen = s.plen ∧
      v.ccnt = BitVec.ofNat 64 (54 + 8 * (s.mlen.toNat + x.length + y.length + 8))

/-! ## Carrier Passthrough -/

/-- EMITHDR writes the held header to SOUT and reads no carrier byte (R230, R231). -/
def Obligations.EmithdrWritesTheHeldHeader : Prop :=
  ∀ s : State, s.sout.attached = true → s.sout.NoFails 54 →
    exec .emithdr s = .next { s.completed .emithdr with
      ocnt := 54, sout := { s.sout with data := s.sout.data ++ s.hdr.toList, attempts := 54 } }

/-- EMITHDR whose n-th write fails has written the first n header bytes (R231, R257). -/
def Obligations.EmithdrStopsWhereTheWriteFails : Prop :=
  ∀ (s : State) (n : Nat), s.sout.attached = true → n < 54 → s.sout.NoFails n → n ∈ s.sout.fails →
    exec .emithdr s = .next { s.failed (encode .emithdr) .ioFailure (some .sout) .prim with
      ocnt := BitVec.ofNat 64 n
      sout := { s.sout with data := s.sout.data ++ s.hdr.toList.take n, attempts := n + 1 } }

/-- COPY moves the next ARG carrier bytes to SOUT unchanged; ARG = 0 moves none (R232, R233, R238). -/
def Obligations.CopyMovesTheRange : Prop :=
  ∀ (s : State) (cs : List Byte) (rest : List Item), s.cin.attached = true → s.sout.attached = true →
    cs.length = s.arg.toNat → s.cin.items = asItems cs ++ rest → s.sout.NoFails cs.length →
    exec .copy s = .next { s.completed .copy with
      cin := { s.cin with items := rest }, ccnt := BitVec.ofNat 64 cs.length, ocnt := BitVec.ofNat 64 cs.length
      sout := { s.sout with data := s.sout.data ++ cs, attempts := cs.length } }

/-- SKIP discards the next ARG carrier bytes and writes nothing; ARG = 0 discards none (R236, R237). -/
def Obligations.SkipDiscardsTheRange : Prop :=
  ∀ (s : State) (cs : List Byte) (rest : List Item), s.cin.attached = true → cs.length = s.arg.toNat →
    s.cin.items = asItems cs ++ rest →
    exec .skip s = .next { s.completed .skip with
      cin := { s.cin with items := rest }, ccnt := BitVec.ofNat 64 cs.length }

/-- COPY and SKIP whose carrier ends or faults before ARG bytes: what came before is moved, or discarded; and COPY whose
write of byte n fails: n + 1 bytes read, n written (R233, R237, R257). -/
def Obligations.CopyAndSkipStopWhereTheCarrierOrTheOutputStops : Prop :=
  (∀ (s : State) (cs : List Byte) (tail left : List Item) (k : ErrKind), s.cin.attached = true →
    cs.length < s.arg.toNat → s.cin.items = asItems cs ++ tail → CarrierStop tail k left →
    (s.sout.attached = true → s.sout.NoFails cs.length →
      exec .copy s = .next { s.failed (encode .copy) k (some .cin) .prim with
        cin := { s.cin with items := left }, ccnt := BitVec.ofNat 64 cs.length, ocnt := BitVec.ofNat 64 cs.length
        sout := { s.sout with data := s.sout.data ++ cs, attempts := cs.length } }) ∧
      exec .skip s = .next { s.failed (encode .skip) k (some .cin) .prim with
        cin := { s.cin with items := left }, ccnt := BitVec.ofNat 64 cs.length }) ∧
  ∀ (s : State) (cs : List Byte) (b : Byte) (rest : List Item), s.cin.attached = true → s.sout.attached = true →
    cs.length < s.arg.toNat → s.cin.items = asItems (cs ++ [b]) ++ rest → s.sout.NoFails cs.length →
    cs.length ∈ s.sout.fails →
    exec .copy s = .next { s.failed (encode .copy) .ioFailure (some .sout) .prim with
      cin := { s.cin with items := rest }, ccnt := BitVec.ofNat 64 (cs.length + 1), ocnt := BitVec.ofNat 64 cs.length
      sout := { s.sout with data := s.sout.data ++ cs, attempts := cs.length + 1 } }

/-- COPYREST moves every remaining carrier byte to SOUT unchanged, and EOS is its normal end (R234, R235). -/
def Obligations.CopyrestMovesEverythingLeft : Prop :=
  ∀ (s : State) (cs : List Byte), s.cin.attached = true → s.sout.attached = true → s.cin.items = asItems cs →
    s.sout.NoFails cs.length →
    exec .copyrest s = .next { s.completed .copyrest with
      cin := { s.cin with items := [] }, ccnt := BitVec.ofNat 64 cs.length, ocnt := BitVec.ofNat 64 cs.length
      sout := { s.sout with data := s.sout.data ++ cs, attempts := cs.length } }

/-- COPYREST stopped by an ERR item, or by a write that fails, has moved what came before it; it never raises
UnexpectedEndOfCarrier (R235, R256, R257). -/
def Obligations.CopyrestStopsOnlyAtAFault : Prop :=
  (∀ (s : State) (cs : List Byte) (left : List Item), s.cin.attached = true → s.sout.attached = true →
    s.cin.items = asItems cs ++ .err :: left → s.sout.NoFails cs.length →
    exec .copyrest s = .next { s.failed (encode .copyrest) .ioFailure (some .cin) .prim with
      cin := { s.cin with items := left }, ccnt := BitVec.ofNat 64 cs.length, ocnt := BitVec.ofNat 64 cs.length
      sout := { s.sout with data := s.sout.data ++ cs, attempts := cs.length } }) ∧
  (∀ (s : State) (cs : List Byte) (b : Byte) (rest : List Item), s.cin.attached = true → s.sout.attached = true →
    s.cin.items = asItems (cs ++ [b]) ++ rest → s.sout.NoFails cs.length → cs.length ∈ s.sout.fails →
    exec .copyrest s = .next { s.failed (encode .copyrest) .ioFailure (some .sout) .prim with
      cin := { s.cin with items := rest }, ccnt := BitVec.ofNat 64 (cs.length + 1), ocnt := BitVec.ofNat 64 cs.length
      sout := { s.sout with data := s.sout.data ++ cs, attempts := cs.length + 1 } }) ∧
  ∀ s t : State, exec .copyrest s = .next t → t.status.err ≠ errCode .unexpectedEndOfCarrier

/-! ## The host's duty -/

/-- The extension of a filename is what follows its last '.', with a '.' before it (R284). -/
def Obligations.HostExtensionFollowsTheLastDot : Prop :=
  ∀ name tail : List Byte, 0x2E ∉ tail → hostExtension (name ++ 0x2E :: tail) = 0x2E :: tail

/-- What a failed command puts on an output port is never taken as a valid output (R260, R283 point 4; the host's mark on the
port is the model's form of that duty, log 16): a write of CMD marks exactly the ports that were marked and, when the
command failed, those on which it put bytes; the mark stays until the host clears that port; and the host's reading of the
port is valid only after DONE and without the mark. -/
def Obligations.FailedOutputIsNeverTakenAsValid : Prop :=
  (∀ (s t : State) (v : Word) (p : OutId), s.resetLine = false → nextStmt s = some (.wr 0x000 4 v) → s.status.busy = false →
    step s = .next t →
    (p ∈ t.host.spoiled ↔
      p ∈ s.host.spoiled ∨ t.status.fail = true ∧ (t.outPort p).data ≠ (s.outPort p).data)) ∧
  (∀ (s t : State) (p : OutId), step s = .next t → p ∈ s.host.spoiled → nextStmt s ≠ some (.clearData p) →
    p ∈ t.host.spoiled) ∧
  (∀ (s t : State) (p : OutId), s.resetLine = false → nextStmt s = some (.clearData p) → step s = .next t →
    (t.outPort p).data = [] ∧ p ∉ t.host.spoiled) ∧
  ∀ (s t : State) (p : OutId), s.resetLine = false → nextStmt s = some (.takeData p) → step s = .next t →
    ∃ k : Take, t.host.takes = s.host.takes ++ [k] ∧ k.port = p ∧ k.data = (s.outPort p).data ∧
      (k.valid = true ↔ s.status.done = true ∧ p ∉ s.host.spoiled)
end

