-- ==== Sys2Proof/Laws/State.lean ====
section
/-! SUPPORT. Laws/State.lean: what each named update of the state leaves in each field: one lemma per field per update. -/

namespace Sys2Proof.Machine

variable (s : State)

/-! ## withSeq -/

@[simp] theorem State.withSeq_cmd (q : Seq) : (s.withSeq q).cmd = s.cmd := rfl
@[simp] theorem State.withSeq_status (q : Seq) : (s.withSeq q).status = statusAt q s.status := rfl
@[simp] theorem State.withSeq_arg (q : Seq) : (s.withSeq q).arg = s.arg := rfl
@[simp] theorem State.withSeq_result (q : Seq) : (s.withSeq q).result = s.result := rfl
@[simp] theorem State.withSeq_mlen (q : Seq) : (s.withSeq q).mlen = s.mlen := rfl
@[simp] theorem State.withSeq_elen (q : Seq) : (s.withSeq q).elen = s.elen := rfl
@[simp] theorem State.withSeq_plen (q : Seq) : (s.withSeq q).plen = s.plen := rfl
@[simp] theorem State.withSeq_width (q : Seq) : (s.withSeq q).width = s.width := rfl
@[simp] theorem State.withSeq_height (q : Seq) : (s.withSeq q).height = s.height := rfl
@[simp] theorem State.withSeq_cap (q : Seq) : (s.withSeq q).cap = s.cap := rfl
@[simp] theorem State.withSeq_rxElen (q : Seq) : (s.withSeq q).rxElen = s.rxElen := rfl
@[simp] theorem State.withSeq_rxPlen (q : Seq) : (s.withSeq q).rxPlen = s.rxPlen := rfl
@[simp] theorem State.withSeq_ccnt (q : Seq) : (s.withSeq q).ccnt = s.ccnt := rfl
@[simp] theorem State.withSeq_ocnt (q : Seq) : (s.withSeq q).ocnt = s.ocnt := rfl
@[simp] theorem State.withSeq_marker (q : Seq) : (s.withSeq q).marker = s.marker := rfl
@[simp] theorem State.withSeq_hdr (q : Seq) : (s.withSeq q).hdr = s.hdr := rfl
@[simp] theorem State.withSeq_hidden (q : Seq) : (s.withSeq q).hidden = s.hidden := rfl
@[simp] theorem State.withSeq_resetLine (q : Seq) : (s.withSeq q).resetLine = s.resetLine := rfl
@[simp] theorem State.withSeq_cin (q : Seq) : (s.withSeq q).cin = s.cin := rfl
@[simp] theorem State.withSeq_pin (q : Seq) : (s.withSeq q).pin = s.pin := rfl
@[simp] theorem State.withSeq_ein (q : Seq) : (s.withSeq q).ein = s.ein := rfl
@[simp] theorem State.withSeq_sout (q : Seq) : (s.withSeq q).sout = s.sout := rfl
@[simp] theorem State.withSeq_pout (q : Seq) : (s.withSeq q).pout = s.pout := rfl
@[simp] theorem State.withSeq_eout (q : Seq) : (s.withSeq q).eout = s.eout := rfl
@[simp] theorem State.withSeq_host (q : Seq) : (s.withSeq q).host = s.host := rfl
@[simp] theorem State.withSeq_epoch (q : Seq) : (s.withSeq q).epoch = s.epoch := rfl

/-! ## countCarrier -/

@[simp] theorem State.countCarrier_cmd : (s.countCarrier).cmd = s.cmd := rfl
@[simp] theorem State.countCarrier_status : (s.countCarrier).status = s.status := rfl
@[simp] theorem State.countCarrier_arg : (s.countCarrier).arg = s.arg := rfl
@[simp] theorem State.countCarrier_result : (s.countCarrier).result = s.result := rfl
@[simp] theorem State.countCarrier_mlen : (s.countCarrier).mlen = s.mlen := rfl
@[simp] theorem State.countCarrier_elen : (s.countCarrier).elen = s.elen := rfl
@[simp] theorem State.countCarrier_plen : (s.countCarrier).plen = s.plen := rfl
@[simp] theorem State.countCarrier_width : (s.countCarrier).width = s.width := rfl
@[simp] theorem State.countCarrier_height : (s.countCarrier).height = s.height := rfl
@[simp] theorem State.countCarrier_cap : (s.countCarrier).cap = s.cap := rfl
@[simp] theorem State.countCarrier_rxElen : (s.countCarrier).rxElen = s.rxElen := rfl
@[simp] theorem State.countCarrier_rxPlen : (s.countCarrier).rxPlen = s.rxPlen := rfl
@[simp] theorem State.countCarrier_ccnt : (s.countCarrier).ccnt = s.ccnt + 1 := rfl
@[simp] theorem State.countCarrier_ocnt : (s.countCarrier).ocnt = s.ocnt := rfl
@[simp] theorem State.countCarrier_marker : (s.countCarrier).marker = s.marker := rfl
@[simp] theorem State.countCarrier_hdr : (s.countCarrier).hdr = s.hdr := rfl
@[simp] theorem State.countCarrier_hidden : (s.countCarrier).hidden = s.hidden := rfl
@[simp] theorem State.countCarrier_resetLine : (s.countCarrier).resetLine = s.resetLine := rfl
@[simp] theorem State.countCarrier_cin : (s.countCarrier).cin = s.cin := rfl
@[simp] theorem State.countCarrier_pin : (s.countCarrier).pin = s.pin := rfl
@[simp] theorem State.countCarrier_ein : (s.countCarrier).ein = s.ein := rfl
@[simp] theorem State.countCarrier_sout : (s.countCarrier).sout = s.sout := rfl
@[simp] theorem State.countCarrier_pout : (s.countCarrier).pout = s.pout := rfl
@[simp] theorem State.countCarrier_eout : (s.countCarrier).eout = s.eout := rfl
@[simp] theorem State.countCarrier_host : (s.countCarrier).host = s.host := rfl
@[simp] theorem State.countCarrier_epoch : (s.countCarrier).epoch = s.epoch := rfl

/-! ## countStego -/

@[simp] theorem State.countStego_cmd : (s.countStego).cmd = s.cmd := rfl
@[simp] theorem State.countStego_status : (s.countStego).status = s.status := rfl
@[simp] theorem State.countStego_arg : (s.countStego).arg = s.arg := rfl
@[simp] theorem State.countStego_result : (s.countStego).result = s.result := rfl
@[simp] theorem State.countStego_mlen : (s.countStego).mlen = s.mlen := rfl
@[simp] theorem State.countStego_elen : (s.countStego).elen = s.elen := rfl
@[simp] theorem State.countStego_plen : (s.countStego).plen = s.plen := rfl
@[simp] theorem State.countStego_width : (s.countStego).width = s.width := rfl
@[simp] theorem State.countStego_height : (s.countStego).height = s.height := rfl
@[simp] theorem State.countStego_cap : (s.countStego).cap = s.cap := rfl
@[simp] theorem State.countStego_rxElen : (s.countStego).rxElen = s.rxElen := rfl
@[simp] theorem State.countStego_rxPlen : (s.countStego).rxPlen = s.rxPlen := rfl
@[simp] theorem State.countStego_ccnt : (s.countStego).ccnt = s.ccnt := rfl
@[simp] theorem State.countStego_ocnt : (s.countStego).ocnt = s.ocnt + 1 := rfl
@[simp] theorem State.countStego_marker : (s.countStego).marker = s.marker := rfl
@[simp] theorem State.countStego_hdr : (s.countStego).hdr = s.hdr := rfl
@[simp] theorem State.countStego_hidden : (s.countStego).hidden = s.hidden := rfl
@[simp] theorem State.countStego_resetLine : (s.countStego).resetLine = s.resetLine := rfl
@[simp] theorem State.countStego_cin : (s.countStego).cin = s.cin := rfl
@[simp] theorem State.countStego_pin : (s.countStego).pin = s.pin := rfl
@[simp] theorem State.countStego_ein : (s.countStego).ein = s.ein := rfl
@[simp] theorem State.countStego_sout : (s.countStego).sout = s.sout := rfl
@[simp] theorem State.countStego_pout : (s.countStego).pout = s.pout := rfl
@[simp] theorem State.countStego_eout : (s.countStego).eout = s.eout := rfl
@[simp] theorem State.countStego_host : (s.countStego).host = s.host := rfl
@[simp] theorem State.countStego_epoch : (s.countStego).epoch = s.epoch := rfl

/-! ## withHdrByte -/

@[simp] theorem State.withHdrByte_cmd (i : Nat) (b : Byte) : (s.withHdrByte i b).cmd = s.cmd := rfl
@[simp] theorem State.withHdrByte_status (i : Nat) (b : Byte) : (s.withHdrByte i b).status = s.status := rfl
@[simp] theorem State.withHdrByte_arg (i : Nat) (b : Byte) : (s.withHdrByte i b).arg = s.arg := rfl
@[simp] theorem State.withHdrByte_result (i : Nat) (b : Byte) : (s.withHdrByte i b).result = s.result := rfl
@[simp] theorem State.withHdrByte_mlen (i : Nat) (b : Byte) : (s.withHdrByte i b).mlen = s.mlen := rfl
@[simp] theorem State.withHdrByte_elen (i : Nat) (b : Byte) : (s.withHdrByte i b).elen = s.elen := rfl
@[simp] theorem State.withHdrByte_plen (i : Nat) (b : Byte) : (s.withHdrByte i b).plen = s.plen := rfl
@[simp] theorem State.withHdrByte_width (i : Nat) (b : Byte) : (s.withHdrByte i b).width = s.width := rfl
@[simp] theorem State.withHdrByte_height (i : Nat) (b : Byte) : (s.withHdrByte i b).height = s.height := rfl
@[simp] theorem State.withHdrByte_cap (i : Nat) (b : Byte) : (s.withHdrByte i b).cap = s.cap := rfl
@[simp] theorem State.withHdrByte_rxElen (i : Nat) (b : Byte) : (s.withHdrByte i b).rxElen = s.rxElen := rfl
@[simp] theorem State.withHdrByte_rxPlen (i : Nat) (b : Byte) : (s.withHdrByte i b).rxPlen = s.rxPlen := rfl
@[simp] theorem State.withHdrByte_ccnt (i : Nat) (b : Byte) : (s.withHdrByte i b).ccnt = s.ccnt := rfl
@[simp] theorem State.withHdrByte_ocnt (i : Nat) (b : Byte) : (s.withHdrByte i b).ocnt = s.ocnt := rfl
@[simp] theorem State.withHdrByte_marker (i : Nat) (b : Byte) : (s.withHdrByte i b).marker = s.marker := rfl
@[simp] theorem State.withHdrByte_hdr (i : Nat) (b : Byte) : (s.withHdrByte i b).hdr = s.hdr.setIfInBounds i b := rfl
@[simp] theorem State.withHdrByte_hidden (i : Nat) (b : Byte) : (s.withHdrByte i b).hidden = s.hidden := rfl
@[simp] theorem State.withHdrByte_resetLine (i : Nat) (b : Byte) : (s.withHdrByte i b).resetLine = s.resetLine := rfl
@[simp] theorem State.withHdrByte_cin (i : Nat) (b : Byte) : (s.withHdrByte i b).cin = s.cin := rfl
@[simp] theorem State.withHdrByte_pin (i : Nat) (b : Byte) : (s.withHdrByte i b).pin = s.pin := rfl
@[simp] theorem State.withHdrByte_ein (i : Nat) (b : Byte) : (s.withHdrByte i b).ein = s.ein := rfl
@[simp] theorem State.withHdrByte_sout (i : Nat) (b : Byte) : (s.withHdrByte i b).sout = s.sout := rfl
@[simp] theorem State.withHdrByte_pout (i : Nat) (b : Byte) : (s.withHdrByte i b).pout = s.pout := rfl
@[simp] theorem State.withHdrByte_eout (i : Nat) (b : Byte) : (s.withHdrByte i b).eout = s.eout := rfl
@[simp] theorem State.withHdrByte_host (i : Nat) (b : Byte) : (s.withHdrByte i b).host = s.host := rfl
@[simp] theorem State.withHdrByte_epoch (i : Nat) (b : Byte) : (s.withHdrByte i b).epoch = s.epoch := rfl

/-! ## withBit -/

@[simp] theorem State.withBit_cmd (i : Nat) : (s.withBit i).cmd = s.cmd := rfl
@[simp] theorem State.withBit_status (i : Nat) : (s.withBit i).status = s.status := rfl
@[simp] theorem State.withBit_arg (i : Nat) : (s.withBit i).arg = s.arg := rfl
@[simp] theorem State.withBit_result (i : Nat) : (s.withBit i).result = s.result := rfl
@[simp] theorem State.withBit_mlen (i : Nat) : (s.withBit i).mlen = s.mlen := rfl
@[simp] theorem State.withBit_elen (i : Nat) : (s.withBit i).elen = s.elen := rfl
@[simp] theorem State.withBit_plen (i : Nat) : (s.withBit i).plen = s.plen := rfl
@[simp] theorem State.withBit_width (i : Nat) : (s.withBit i).width = s.width := rfl
@[simp] theorem State.withBit_height (i : Nat) : (s.withBit i).height = s.height := rfl
@[simp] theorem State.withBit_cap (i : Nat) : (s.withBit i).cap = s.cap := rfl
@[simp] theorem State.withBit_rxElen (i : Nat) : (s.withBit i).rxElen = s.rxElen := rfl
@[simp] theorem State.withBit_rxPlen (i : Nat) : (s.withBit i).rxPlen = s.rxPlen := rfl
@[simp] theorem State.withBit_ccnt (i : Nat) : (s.withBit i).ccnt = s.ccnt := rfl
@[simp] theorem State.withBit_ocnt (i : Nat) : (s.withBit i).ocnt = s.ocnt := rfl
@[simp] theorem State.withBit_marker (i : Nat) : (s.withBit i).marker = s.marker := rfl
@[simp] theorem State.withBit_hdr (i : Nat) : (s.withBit i).hdr = s.hdr := rfl
@[simp] theorem State.withBit_hidden (i : Nat) : (s.withBit i).hidden = { s.hidden with bit := BitVec.ofNat 5 i } := rfl
@[simp] theorem State.withBit_resetLine (i : Nat) : (s.withBit i).resetLine = s.resetLine := rfl
@[simp] theorem State.withBit_cin (i : Nat) : (s.withBit i).cin = s.cin := rfl
@[simp] theorem State.withBit_pin (i : Nat) : (s.withBit i).pin = s.pin := rfl
@[simp] theorem State.withBit_ein (i : Nat) : (s.withBit i).ein = s.ein := rfl
@[simp] theorem State.withBit_sout (i : Nat) : (s.withBit i).sout = s.sout := rfl
@[simp] theorem State.withBit_pout (i : Nat) : (s.withBit i).pout = s.pout := rfl
@[simp] theorem State.withBit_eout (i : Nat) : (s.withBit i).eout = s.eout := rfl
@[simp] theorem State.withBit_host (i : Nat) : (s.withBit i).host = s.host := rfl
@[simp] theorem State.withBit_epoch (i : Nat) : (s.withBit i).epoch = s.epoch := rfl

/-! ## withAcc -/

@[simp] theorem State.withAcc_cmd (v : Word) : (s.withAcc v).cmd = s.cmd := rfl
@[simp] theorem State.withAcc_status (v : Word) : (s.withAcc v).status = s.status := rfl
@[simp] theorem State.withAcc_arg (v : Word) : (s.withAcc v).arg = s.arg := rfl
@[simp] theorem State.withAcc_result (v : Word) : (s.withAcc v).result = s.result := rfl
@[simp] theorem State.withAcc_mlen (v : Word) : (s.withAcc v).mlen = s.mlen := rfl
@[simp] theorem State.withAcc_elen (v : Word) : (s.withAcc v).elen = s.elen := rfl
@[simp] theorem State.withAcc_plen (v : Word) : (s.withAcc v).plen = s.plen := rfl
@[simp] theorem State.withAcc_width (v : Word) : (s.withAcc v).width = s.width := rfl
@[simp] theorem State.withAcc_height (v : Word) : (s.withAcc v).height = s.height := rfl
@[simp] theorem State.withAcc_cap (v : Word) : (s.withAcc v).cap = s.cap := rfl
@[simp] theorem State.withAcc_rxElen (v : Word) : (s.withAcc v).rxElen = s.rxElen := rfl
@[simp] theorem State.withAcc_rxPlen (v : Word) : (s.withAcc v).rxPlen = s.rxPlen := rfl
@[simp] theorem State.withAcc_ccnt (v : Word) : (s.withAcc v).ccnt = s.ccnt := rfl
@[simp] theorem State.withAcc_ocnt (v : Word) : (s.withAcc v).ocnt = s.ocnt := rfl
@[simp] theorem State.withAcc_marker (v : Word) : (s.withAcc v).marker = s.marker := rfl
@[simp] theorem State.withAcc_hdr (v : Word) : (s.withAcc v).hdr = s.hdr := rfl
@[simp] theorem State.withAcc_hidden (v : Word) : (s.withAcc v).hidden = { s.hidden with acc := v } := rfl
@[simp] theorem State.withAcc_resetLine (v : Word) : (s.withAcc v).resetLine = s.resetLine := rfl
@[simp] theorem State.withAcc_cin (v : Word) : (s.withAcc v).cin = s.cin := rfl
@[simp] theorem State.withAcc_pin (v : Word) : (s.withAcc v).pin = s.pin := rfl
@[simp] theorem State.withAcc_ein (v : Word) : (s.withAcc v).ein = s.ein := rfl
@[simp] theorem State.withAcc_sout (v : Word) : (s.withAcc v).sout = s.sout := rfl
@[simp] theorem State.withAcc_pout (v : Word) : (s.withAcc v).pout = s.pout := rfl
@[simp] theorem State.withAcc_eout (v : Word) : (s.withAcc v).eout = s.eout := rfl
@[simp] theorem State.withAcc_host (v : Word) : (s.withAcc v).host = s.host := rfl
@[simp] theorem State.withAcc_epoch (v : Word) : (s.withAcc v).epoch = s.epoch := rfl

/-! ## withIdx -/

@[simp] theorem State.withIdx_cmd (i : Nat) : (s.withIdx i).cmd = s.cmd := rfl
@[simp] theorem State.withIdx_status (i : Nat) : (s.withIdx i).status = s.status := rfl
@[simp] theorem State.withIdx_arg (i : Nat) : (s.withIdx i).arg = s.arg := rfl
@[simp] theorem State.withIdx_result (i : Nat) : (s.withIdx i).result = s.result := rfl
@[simp] theorem State.withIdx_mlen (i : Nat) : (s.withIdx i).mlen = s.mlen := rfl
@[simp] theorem State.withIdx_elen (i : Nat) : (s.withIdx i).elen = s.elen := rfl
@[simp] theorem State.withIdx_plen (i : Nat) : (s.withIdx i).plen = s.plen := rfl
@[simp] theorem State.withIdx_width (i : Nat) : (s.withIdx i).width = s.width := rfl
@[simp] theorem State.withIdx_height (i : Nat) : (s.withIdx i).height = s.height := rfl
@[simp] theorem State.withIdx_cap (i : Nat) : (s.withIdx i).cap = s.cap := rfl
@[simp] theorem State.withIdx_rxElen (i : Nat) : (s.withIdx i).rxElen = s.rxElen := rfl
@[simp] theorem State.withIdx_rxPlen (i : Nat) : (s.withIdx i).rxPlen = s.rxPlen := rfl
@[simp] theorem State.withIdx_ccnt (i : Nat) : (s.withIdx i).ccnt = s.ccnt := rfl
@[simp] theorem State.withIdx_ocnt (i : Nat) : (s.withIdx i).ocnt = s.ocnt := rfl
@[simp] theorem State.withIdx_marker (i : Nat) : (s.withIdx i).marker = s.marker := rfl
@[simp] theorem State.withIdx_hdr (i : Nat) : (s.withIdx i).hdr = s.hdr := rfl
@[simp] theorem State.withIdx_hidden (i : Nat) : (s.withIdx i).hidden = { s.hidden with idx := BitVec.ofNat 33 i } := rfl
@[simp] theorem State.withIdx_resetLine (i : Nat) : (s.withIdx i).resetLine = s.resetLine := rfl
@[simp] theorem State.withIdx_cin (i : Nat) : (s.withIdx i).cin = s.cin := rfl
@[simp] theorem State.withIdx_pin (i : Nat) : (s.withIdx i).pin = s.pin := rfl
@[simp] theorem State.withIdx_ein (i : Nat) : (s.withIdx i).ein = s.ein := rfl
@[simp] theorem State.withIdx_sout (i : Nat) : (s.withIdx i).sout = s.sout := rfl
@[simp] theorem State.withIdx_pout (i : Nat) : (s.withIdx i).pout = s.pout := rfl
@[simp] theorem State.withIdx_eout (i : Nat) : (s.withIdx i).eout = s.eout := rfl
@[simp] theorem State.withIdx_host (i : Nat) : (s.withIdx i).host = s.host := rfl
@[simp] theorem State.withIdx_epoch (i : Nat) : (s.withIdx i).epoch = s.epoch := rfl

/-! ## withRxmByte -/

@[simp] theorem State.withRxmByte_cmd (i : Nat) (b : Byte) : (s.withRxmByte i b).cmd = s.cmd := rfl
@[simp] theorem State.withRxmByte_status (i : Nat) (b : Byte) : (s.withRxmByte i b).status = s.status := rfl
@[simp] theorem State.withRxmByte_arg (i : Nat) (b : Byte) : (s.withRxmByte i b).arg = s.arg := rfl
@[simp] theorem State.withRxmByte_result (i : Nat) (b : Byte) : (s.withRxmByte i b).result = s.result := rfl
@[simp] theorem State.withRxmByte_mlen (i : Nat) (b : Byte) : (s.withRxmByte i b).mlen = s.mlen := rfl
@[simp] theorem State.withRxmByte_elen (i : Nat) (b : Byte) : (s.withRxmByte i b).elen = s.elen := rfl
@[simp] theorem State.withRxmByte_plen (i : Nat) (b : Byte) : (s.withRxmByte i b).plen = s.plen := rfl
@[simp] theorem State.withRxmByte_width (i : Nat) (b : Byte) : (s.withRxmByte i b).width = s.width := rfl
@[simp] theorem State.withRxmByte_height (i : Nat) (b : Byte) : (s.withRxmByte i b).height = s.height := rfl
@[simp] theorem State.withRxmByte_cap (i : Nat) (b : Byte) : (s.withRxmByte i b).cap = s.cap := rfl
@[simp] theorem State.withRxmByte_rxElen (i : Nat) (b : Byte) : (s.withRxmByte i b).rxElen = s.rxElen := rfl
@[simp] theorem State.withRxmByte_rxPlen (i : Nat) (b : Byte) : (s.withRxmByte i b).rxPlen = s.rxPlen := rfl
@[simp] theorem State.withRxmByte_ccnt (i : Nat) (b : Byte) : (s.withRxmByte i b).ccnt = s.ccnt := rfl
@[simp] theorem State.withRxmByte_ocnt (i : Nat) (b : Byte) : (s.withRxmByte i b).ocnt = s.ocnt := rfl
@[simp] theorem State.withRxmByte_marker (i : Nat) (b : Byte) : (s.withRxmByte i b).marker = s.marker := rfl
@[simp] theorem State.withRxmByte_hdr (i : Nat) (b : Byte) : (s.withRxmByte i b).hdr = s.hdr := rfl
@[simp] theorem State.withRxmByte_hidden (i : Nat) (b : Byte) : (s.withRxmByte i b).hidden = { s.hidden with rxm := s.hidden.rxm.setIfInBounds i b } := rfl
@[simp] theorem State.withRxmByte_resetLine (i : Nat) (b : Byte) : (s.withRxmByte i b).resetLine = s.resetLine := rfl
@[simp] theorem State.withRxmByte_cin (i : Nat) (b : Byte) : (s.withRxmByte i b).cin = s.cin := rfl
@[simp] theorem State.withRxmByte_pin (i : Nat) (b : Byte) : (s.withRxmByte i b).pin = s.pin := rfl
@[simp] theorem State.withRxmByte_ein (i : Nat) (b : Byte) : (s.withRxmByte i b).ein = s.ein := rfl
@[simp] theorem State.withRxmByte_sout (i : Nat) (b : Byte) : (s.withRxmByte i b).sout = s.sout := rfl
@[simp] theorem State.withRxmByte_pout (i : Nat) (b : Byte) : (s.withRxmByte i b).pout = s.pout := rfl
@[simp] theorem State.withRxmByte_eout (i : Nat) (b : Byte) : (s.withRxmByte i b).eout = s.eout := rfl
@[simp] theorem State.withRxmByte_host (i : Nat) (b : Byte) : (s.withRxmByte i b).host = s.host := rfl
@[simp] theorem State.withRxmByte_epoch (i : Nat) (b : Byte) : (s.withRxmByte i b).epoch = s.epoch := rfl

/-! ## forgetHidden -/

@[simp] theorem State.forgetHidden_cmd : (s.forgetHidden).cmd = s.cmd := rfl
@[simp] theorem State.forgetHidden_status : (s.forgetHidden).status = s.status := rfl
@[simp] theorem State.forgetHidden_arg : (s.forgetHidden).arg = s.arg := rfl
@[simp] theorem State.forgetHidden_result : (s.forgetHidden).result = s.result := rfl
@[simp] theorem State.forgetHidden_mlen : (s.forgetHidden).mlen = s.mlen := rfl
@[simp] theorem State.forgetHidden_elen : (s.forgetHidden).elen = s.elen := rfl
@[simp] theorem State.forgetHidden_plen : (s.forgetHidden).plen = s.plen := rfl
@[simp] theorem State.forgetHidden_width : (s.forgetHidden).width = s.width := rfl
@[simp] theorem State.forgetHidden_height : (s.forgetHidden).height = s.height := rfl
@[simp] theorem State.forgetHidden_cap : (s.forgetHidden).cap = s.cap := rfl
@[simp] theorem State.forgetHidden_rxElen : (s.forgetHidden).rxElen = s.rxElen := rfl
@[simp] theorem State.forgetHidden_rxPlen : (s.forgetHidden).rxPlen = s.rxPlen := rfl
@[simp] theorem State.forgetHidden_ccnt : (s.forgetHidden).ccnt = s.ccnt := rfl
@[simp] theorem State.forgetHidden_ocnt : (s.forgetHidden).ocnt = s.ocnt := rfl
@[simp] theorem State.forgetHidden_marker : (s.forgetHidden).marker = s.marker := rfl
@[simp] theorem State.forgetHidden_hdr : (s.forgetHidden).hdr = s.hdr := rfl
@[simp] theorem State.forgetHidden_hidden : (s.forgetHidden).hidden = Hidden.free s.epoch := rfl
@[simp] theorem State.forgetHidden_resetLine : (s.forgetHidden).resetLine = s.resetLine := rfl
@[simp] theorem State.forgetHidden_cin : (s.forgetHidden).cin = s.cin := rfl
@[simp] theorem State.forgetHidden_pin : (s.forgetHidden).pin = s.pin := rfl
@[simp] theorem State.forgetHidden_ein : (s.forgetHidden).ein = s.ein := rfl
@[simp] theorem State.forgetHidden_sout : (s.forgetHidden).sout = s.sout := rfl
@[simp] theorem State.forgetHidden_pout : (s.forgetHidden).pout = s.pout := rfl
@[simp] theorem State.forgetHidden_eout : (s.forgetHidden).eout = s.eout := rfl
@[simp] theorem State.forgetHidden_host : (s.forgetHidden).host = s.host := rfl
@[simp] theorem State.forgetHidden_epoch : (s.forgetHidden).epoch = s.epoch + 1 := rfl

/-! ## estimated -/

@[simp] theorem State.estimated_cmd : (s.estimated).cmd = s.cmd := rfl
@[simp] theorem State.estimated_status : (s.estimated).status = s.status := rfl
@[simp] theorem State.estimated_arg : (s.estimated).arg = s.arg := rfl
@[simp] theorem State.estimated_result : (s.estimated).result = s.result := rfl
@[simp] theorem State.estimated_mlen : (s.estimated).mlen = s.mlen := rfl
@[simp] theorem State.estimated_elen : (s.estimated).elen = s.elen := rfl
@[simp] theorem State.estimated_plen : (s.estimated).plen = s.plen := rfl
@[simp] theorem State.estimated_width : (s.estimated).width = hdrLe32 s Config.widthOff := rfl
@[simp] theorem State.estimated_height : (s.estimated).height = hdrLe32 s Config.heightOff := rfl
@[simp] theorem State.estimated_cap : (s.estimated).cap = capOf (hdrLe32 s Config.widthOff) (hdrLe32 s Config.heightOff) := rfl
@[simp] theorem State.estimated_rxElen : (s.estimated).rxElen = s.rxElen := rfl
@[simp] theorem State.estimated_rxPlen : (s.estimated).rxPlen = s.rxPlen := rfl
@[simp] theorem State.estimated_ccnt : (s.estimated).ccnt = s.ccnt := rfl
@[simp] theorem State.estimated_ocnt : (s.estimated).ocnt = s.ocnt := rfl
@[simp] theorem State.estimated_marker : (s.estimated).marker = s.marker := rfl
@[simp] theorem State.estimated_hdr : (s.estimated).hdr = s.hdr := rfl
@[simp] theorem State.estimated_hidden : (s.estimated).hidden = s.hidden := rfl
@[simp] theorem State.estimated_resetLine : (s.estimated).resetLine = s.resetLine := rfl
@[simp] theorem State.estimated_cin : (s.estimated).cin = s.cin := rfl
@[simp] theorem State.estimated_pin : (s.estimated).pin = s.pin := rfl
@[simp] theorem State.estimated_ein : (s.estimated).ein = s.ein := rfl
@[simp] theorem State.estimated_sout : (s.estimated).sout = s.sout := rfl
@[simp] theorem State.estimated_pout : (s.estimated).pout = s.pout := rfl
@[simp] theorem State.estimated_eout : (s.estimated).eout = s.eout := rfl
@[simp] theorem State.estimated_host : (s.estimated).host = s.host := rfl
@[simp] theorem State.estimated_epoch : (s.estimated).epoch = s.epoch := rfl

/-! ## start -/

@[simp] theorem State.start_cmd (v : Word) : (s.start v).cmd = v := rfl
@[simp] theorem State.start_status (v : Word) : (s.start v).status = statusStarted := rfl
@[simp] theorem State.start_arg (v : Word) : (s.start v).arg = s.arg := rfl
@[simp] theorem State.start_result (v : Word) : (s.start v).result = s.result := rfl
@[simp] theorem State.start_mlen (v : Word) : (s.start v).mlen = s.mlen := rfl
@[simp] theorem State.start_elen (v : Word) : (s.start v).elen = s.elen := rfl
@[simp] theorem State.start_plen (v : Word) : (s.start v).plen = s.plen := rfl
@[simp] theorem State.start_width (v : Word) : (s.start v).width = s.width := rfl
@[simp] theorem State.start_height (v : Word) : (s.start v).height = s.height := rfl
@[simp] theorem State.start_cap (v : Word) : (s.start v).cap = s.cap := rfl
@[simp] theorem State.start_rxElen (v : Word) : (s.start v).rxElen = s.rxElen := rfl
@[simp] theorem State.start_rxPlen (v : Word) : (s.start v).rxPlen = s.rxPlen := rfl
@[simp] theorem State.start_ccnt (v : Word) : (s.start v).ccnt = 0 := rfl
@[simp] theorem State.start_ocnt (v : Word) : (s.start v).ocnt = 0 := rfl
@[simp] theorem State.start_marker (v : Word) : (s.start v).marker = s.marker := rfl
@[simp] theorem State.start_hdr (v : Word) : (s.start v).hdr = s.hdr := rfl
@[simp] theorem State.start_hidden (v : Word) : (s.start v).hidden = s.hidden := rfl
@[simp] theorem State.start_resetLine (v : Word) : (s.start v).resetLine = s.resetLine := rfl
@[simp] theorem State.start_cin (v : Word) : (s.start v).cin = s.cin := rfl
@[simp] theorem State.start_pin (v : Word) : (s.start v).pin = s.pin := rfl
@[simp] theorem State.start_ein (v : Word) : (s.start v).ein = s.ein := rfl
@[simp] theorem State.start_sout (v : Word) : (s.start v).sout = { s.sout with attempts := 0 } := rfl
@[simp] theorem State.start_pout (v : Word) : (s.start v).pout = { s.pout with attempts := 0 } := rfl
@[simp] theorem State.start_eout (v : Word) : (s.start v).eout = { s.eout with attempts := 0 } := rfl
@[simp] theorem State.start_host (v : Word) : (s.start v).host = s.host := rfl
@[simp] theorem State.start_epoch (v : Word) : (s.start v).epoch = s.epoch := rfl

/-! ## raise -/

@[simp] theorem State.raise_cmd (r : Raise) : (s.raise r).cmd = s.cmd := rfl
@[simp] theorem State.raise_status (r : Raise) : (s.raise r).status = statusRaised r s.status := rfl
@[simp] theorem State.raise_arg (r : Raise) : (s.raise r).arg = s.arg := rfl
@[simp] theorem State.raise_result (r : Raise) : (s.raise r).result = s.result := rfl
@[simp] theorem State.raise_mlen (r : Raise) : (s.raise r).mlen = s.mlen := rfl
@[simp] theorem State.raise_elen (r : Raise) : (s.raise r).elen = s.elen := rfl
@[simp] theorem State.raise_plen (r : Raise) : (s.raise r).plen = s.plen := rfl
@[simp] theorem State.raise_width (r : Raise) : (s.raise r).width = s.width := rfl
@[simp] theorem State.raise_height (r : Raise) : (s.raise r).height = s.height := rfl
@[simp] theorem State.raise_cap (r : Raise) : (s.raise r).cap = s.cap := rfl
@[simp] theorem State.raise_rxElen (r : Raise) : (s.raise r).rxElen = s.rxElen := rfl
@[simp] theorem State.raise_rxPlen (r : Raise) : (s.raise r).rxPlen = s.rxPlen := rfl
@[simp] theorem State.raise_ccnt (r : Raise) : (s.raise r).ccnt = s.ccnt := rfl
@[simp] theorem State.raise_ocnt (r : Raise) : (s.raise r).ocnt = s.ocnt := rfl
@[simp] theorem State.raise_marker (r : Raise) : (s.raise r).marker = s.marker := rfl
@[simp] theorem State.raise_hdr (r : Raise) : (s.raise r).hdr = s.hdr := rfl
@[simp] theorem State.raise_hidden (r : Raise) : (s.raise r).hidden = Hidden.free s.epoch := rfl
@[simp] theorem State.raise_resetLine (r : Raise) : (s.raise r).resetLine = s.resetLine := rfl
@[simp] theorem State.raise_cin (r : Raise) : (s.raise r).cin = s.cin := rfl
@[simp] theorem State.raise_pin (r : Raise) : (s.raise r).pin = s.pin := rfl
@[simp] theorem State.raise_ein (r : Raise) : (s.raise r).ein = s.ein := rfl
@[simp] theorem State.raise_sout (r : Raise) : (s.raise r).sout = s.sout := rfl
@[simp] theorem State.raise_pout (r : Raise) : (s.raise r).pout = s.pout := rfl
@[simp] theorem State.raise_eout (r : Raise) : (s.raise r).eout = s.eout := rfl
@[simp] theorem State.raise_host (r : Raise) : (s.raise r).host = s.host := rfl
@[simp] theorem State.raise_epoch (r : Raise) : (s.raise r).epoch = s.epoch + 1 := rfl

/-! ## finish -/

@[simp] theorem State.finish_cmd : (s.finish).cmd = s.cmd := rfl
@[simp] theorem State.finish_status : (s.finish).status = statusDone s.status := rfl
@[simp] theorem State.finish_arg : (s.finish).arg = s.arg := rfl
@[simp] theorem State.finish_result : (s.finish).result = s.result := rfl
@[simp] theorem State.finish_mlen : (s.finish).mlen = s.mlen := rfl
@[simp] theorem State.finish_elen : (s.finish).elen = s.elen := rfl
@[simp] theorem State.finish_plen : (s.finish).plen = s.plen := rfl
@[simp] theorem State.finish_width : (s.finish).width = s.width := rfl
@[simp] theorem State.finish_height : (s.finish).height = s.height := rfl
@[simp] theorem State.finish_cap : (s.finish).cap = s.cap := rfl
@[simp] theorem State.finish_rxElen : (s.finish).rxElen = s.rxElen := rfl
@[simp] theorem State.finish_rxPlen : (s.finish).rxPlen = s.rxPlen := rfl
@[simp] theorem State.finish_ccnt : (s.finish).ccnt = s.ccnt := rfl
@[simp] theorem State.finish_ocnt : (s.finish).ocnt = s.ocnt := rfl
@[simp] theorem State.finish_marker : (s.finish).marker = s.marker := rfl
@[simp] theorem State.finish_hdr : (s.finish).hdr = s.hdr := rfl
@[simp] theorem State.finish_hidden : (s.finish).hidden = Hidden.free s.epoch := rfl
@[simp] theorem State.finish_resetLine : (s.finish).resetLine = s.resetLine := rfl
@[simp] theorem State.finish_cin : (s.finish).cin = s.cin := rfl
@[simp] theorem State.finish_pin : (s.finish).pin = s.pin := rfl
@[simp] theorem State.finish_ein : (s.finish).ein = s.ein := rfl
@[simp] theorem State.finish_sout : (s.finish).sout = s.sout := rfl
@[simp] theorem State.finish_pout : (s.finish).pout = s.pout := rfl
@[simp] theorem State.finish_eout : (s.finish).eout = s.eout := rfl
@[simp] theorem State.finish_host : (s.finish).host = s.host := rfl
@[simp] theorem State.finish_epoch : (s.finish).epoch = s.epoch + 1 := rfl

/-! ## afterReset -/

@[simp] theorem State.afterReset_cmd : (s.afterReset).cmd = State.reset.cmd := rfl
@[simp] theorem State.afterReset_status : (s.afterReset).status = State.reset.status := rfl
@[simp] theorem State.afterReset_arg : (s.afterReset).arg = State.reset.arg := rfl
@[simp] theorem State.afterReset_result : (s.afterReset).result = State.reset.result := rfl
@[simp] theorem State.afterReset_mlen : (s.afterReset).mlen = State.reset.mlen := rfl
@[simp] theorem State.afterReset_elen : (s.afterReset).elen = State.reset.elen := rfl
@[simp] theorem State.afterReset_plen : (s.afterReset).plen = State.reset.plen := rfl
@[simp] theorem State.afterReset_width : (s.afterReset).width = State.reset.width := rfl
@[simp] theorem State.afterReset_height : (s.afterReset).height = State.reset.height := rfl
@[simp] theorem State.afterReset_cap : (s.afterReset).cap = State.reset.cap := rfl
@[simp] theorem State.afterReset_rxElen : (s.afterReset).rxElen = State.reset.rxElen := rfl
@[simp] theorem State.afterReset_rxPlen : (s.afterReset).rxPlen = State.reset.rxPlen := rfl
@[simp] theorem State.afterReset_ccnt : (s.afterReset).ccnt = State.reset.ccnt := rfl
@[simp] theorem State.afterReset_ocnt : (s.afterReset).ocnt = State.reset.ocnt := rfl
@[simp] theorem State.afterReset_marker : (s.afterReset).marker = State.reset.marker := rfl
@[simp] theorem State.afterReset_hdr : (s.afterReset).hdr = State.reset.hdr := rfl
@[simp] theorem State.afterReset_hidden : (s.afterReset).hidden = State.reset.hidden := rfl
@[simp] theorem State.afterReset_resetLine : (s.afterReset).resetLine = State.reset.resetLine := rfl
@[simp] theorem State.afterReset_cin : (s.afterReset).cin = s.cin := rfl
@[simp] theorem State.afterReset_pin : (s.afterReset).pin = s.pin := rfl
@[simp] theorem State.afterReset_ein : (s.afterReset).ein = s.ein := rfl
@[simp] theorem State.afterReset_sout : (s.afterReset).sout = s.sout := rfl
@[simp] theorem State.afterReset_pout : (s.afterReset).pout = s.pout := rfl
@[simp] theorem State.afterReset_eout : (s.afterReset).eout = s.eout := rfl
@[simp] theorem State.afterReset_host : (s.afterReset).host = s.host := rfl
@[simp] theorem State.afterReset_epoch : (s.afterReset).epoch = s.epoch := rfl

/-! ## goto -/

@[simp] theorem State.goto_cmd (n : Nat) : (s.goto n).cmd = s.cmd := rfl
@[simp] theorem State.goto_status (n : Nat) : (s.goto n).status = s.status := rfl
@[simp] theorem State.goto_arg (n : Nat) : (s.goto n).arg = s.arg := rfl
@[simp] theorem State.goto_result (n : Nat) : (s.goto n).result = s.result := rfl
@[simp] theorem State.goto_mlen (n : Nat) : (s.goto n).mlen = s.mlen := rfl
@[simp] theorem State.goto_elen (n : Nat) : (s.goto n).elen = s.elen := rfl
@[simp] theorem State.goto_plen (n : Nat) : (s.goto n).plen = s.plen := rfl
@[simp] theorem State.goto_width (n : Nat) : (s.goto n).width = s.width := rfl
@[simp] theorem State.goto_height (n : Nat) : (s.goto n).height = s.height := rfl
@[simp] theorem State.goto_cap (n : Nat) : (s.goto n).cap = s.cap := rfl
@[simp] theorem State.goto_rxElen (n : Nat) : (s.goto n).rxElen = s.rxElen := rfl
@[simp] theorem State.goto_rxPlen (n : Nat) : (s.goto n).rxPlen = s.rxPlen := rfl
@[simp] theorem State.goto_ccnt (n : Nat) : (s.goto n).ccnt = s.ccnt := rfl
@[simp] theorem State.goto_ocnt (n : Nat) : (s.goto n).ocnt = s.ocnt := rfl
@[simp] theorem State.goto_marker (n : Nat) : (s.goto n).marker = s.marker := rfl
@[simp] theorem State.goto_hdr (n : Nat) : (s.goto n).hdr = s.hdr := rfl
@[simp] theorem State.goto_hidden (n : Nat) : (s.goto n).hidden = s.hidden := rfl
@[simp] theorem State.goto_resetLine (n : Nat) : (s.goto n).resetLine = s.resetLine := rfl
@[simp] theorem State.goto_cin (n : Nat) : (s.goto n).cin = s.cin := rfl
@[simp] theorem State.goto_pin (n : Nat) : (s.goto n).pin = s.pin := rfl
@[simp] theorem State.goto_ein (n : Nat) : (s.goto n).ein = s.ein := rfl
@[simp] theorem State.goto_sout (n : Nat) : (s.goto n).sout = s.sout := rfl
@[simp] theorem State.goto_pout (n : Nat) : (s.goto n).pout = s.pout := rfl
@[simp] theorem State.goto_eout (n : Nat) : (s.goto n).eout = s.eout := rfl
@[simp] theorem State.goto_host (n : Nat) : (s.goto n).host = { s.host with hpc := n } := rfl
@[simp] theorem State.goto_epoch (n : Nat) : (s.goto n).epoch = s.epoch := rfl

/-! ## traced -/

@[simp] theorem State.traced_cmd (v : Word) : (s.traced v).cmd = s.cmd := rfl
@[simp] theorem State.traced_status (v : Word) : (s.traced v).status = s.status := rfl
@[simp] theorem State.traced_arg (v : Word) : (s.traced v).arg = s.arg := rfl
@[simp] theorem State.traced_result (v : Word) : (s.traced v).result = s.result := rfl
@[simp] theorem State.traced_mlen (v : Word) : (s.traced v).mlen = s.mlen := rfl
@[simp] theorem State.traced_elen (v : Word) : (s.traced v).elen = s.elen := rfl
@[simp] theorem State.traced_plen (v : Word) : (s.traced v).plen = s.plen := rfl
@[simp] theorem State.traced_width (v : Word) : (s.traced v).width = s.width := rfl
@[simp] theorem State.traced_height (v : Word) : (s.traced v).height = s.height := rfl
@[simp] theorem State.traced_cap (v : Word) : (s.traced v).cap = s.cap := rfl
@[simp] theorem State.traced_rxElen (v : Word) : (s.traced v).rxElen = s.rxElen := rfl
@[simp] theorem State.traced_rxPlen (v : Word) : (s.traced v).rxPlen = s.rxPlen := rfl
@[simp] theorem State.traced_ccnt (v : Word) : (s.traced v).ccnt = s.ccnt := rfl
@[simp] theorem State.traced_ocnt (v : Word) : (s.traced v).ocnt = s.ocnt := rfl
@[simp] theorem State.traced_marker (v : Word) : (s.traced v).marker = s.marker := rfl
@[simp] theorem State.traced_hdr (v : Word) : (s.traced v).hdr = s.hdr := rfl
@[simp] theorem State.traced_hidden (v : Word) : (s.traced v).hidden = s.hidden := rfl
@[simp] theorem State.traced_resetLine (v : Word) : (s.traced v).resetLine = s.resetLine := rfl
@[simp] theorem State.traced_cin (v : Word) : (s.traced v).cin = s.cin := rfl
@[simp] theorem State.traced_pin (v : Word) : (s.traced v).pin = s.pin := rfl
@[simp] theorem State.traced_ein (v : Word) : (s.traced v).ein = s.ein := rfl
@[simp] theorem State.traced_sout (v : Word) : (s.traced v).sout = s.sout := rfl
@[simp] theorem State.traced_pout (v : Word) : (s.traced v).pout = s.pout := rfl
@[simp] theorem State.traced_eout (v : Word) : (s.traced v).eout = s.eout := rfl
@[simp] theorem State.traced_host (v : Word) : (s.traced v).host = { s.host with reads := s.host.reads ++ [v] } := rfl
@[simp] theorem State.traced_epoch (v : Word) : (s.traced v).epoch = s.epoch := rfl

/-! ## judged -/

@[simp] theorem State.judged_cmd (r : State) : (s.judged r).cmd = s.cmd := rfl
@[simp] theorem State.judged_status (r : State) : (s.judged r).status = s.status := rfl
@[simp] theorem State.judged_arg (r : State) : (s.judged r).arg = s.arg := rfl
@[simp] theorem State.judged_result (r : State) : (s.judged r).result = s.result := rfl
@[simp] theorem State.judged_mlen (r : State) : (s.judged r).mlen = s.mlen := rfl
@[simp] theorem State.judged_elen (r : State) : (s.judged r).elen = s.elen := rfl
@[simp] theorem State.judged_plen (r : State) : (s.judged r).plen = s.plen := rfl
@[simp] theorem State.judged_width (r : State) : (s.judged r).width = s.width := rfl
@[simp] theorem State.judged_height (r : State) : (s.judged r).height = s.height := rfl
@[simp] theorem State.judged_cap (r : State) : (s.judged r).cap = s.cap := rfl
@[simp] theorem State.judged_rxElen (r : State) : (s.judged r).rxElen = s.rxElen := rfl
@[simp] theorem State.judged_rxPlen (r : State) : (s.judged r).rxPlen = s.rxPlen := rfl
@[simp] theorem State.judged_ccnt (r : State) : (s.judged r).ccnt = s.ccnt := rfl
@[simp] theorem State.judged_ocnt (r : State) : (s.judged r).ocnt = s.ocnt := rfl
@[simp] theorem State.judged_marker (r : State) : (s.judged r).marker = s.marker := rfl
@[simp] theorem State.judged_hdr (r : State) : (s.judged r).hdr = s.hdr := rfl
@[simp] theorem State.judged_hidden (r : State) : (s.judged r).hidden = s.hidden := rfl
@[simp] theorem State.judged_resetLine (r : State) : (s.judged r).resetLine = s.resetLine := rfl
@[simp] theorem State.judged_cin (r : State) : (s.judged r).cin = s.cin := rfl
@[simp] theorem State.judged_pin (r : State) : (s.judged r).pin = s.pin := rfl
@[simp] theorem State.judged_ein (r : State) : (s.judged r).ein = s.ein := rfl
@[simp] theorem State.judged_sout (r : State) : (s.judged r).sout = s.sout := rfl
@[simp] theorem State.judged_pout (r : State) : (s.judged r).pout = s.pout := rfl
@[simp] theorem State.judged_eout (r : State) : (s.judged r).eout = s.eout := rfl
@[simp] theorem State.judged_host (r : State) : (s.judged r).host = { s.host with spoiled := spoiledAfter r s } := rfl
@[simp] theorem State.judged_epoch (r : State) : (s.judged r).epoch = s.epoch := rfl

/-! ## took -/

@[simp] theorem State.took_cmd (p : OutId) : (s.took p).cmd = s.cmd := rfl
@[simp] theorem State.took_status (p : OutId) : (s.took p).status = s.status := rfl
@[simp] theorem State.took_arg (p : OutId) : (s.took p).arg = s.arg := rfl
@[simp] theorem State.took_result (p : OutId) : (s.took p).result = s.result := rfl
@[simp] theorem State.took_mlen (p : OutId) : (s.took p).mlen = s.mlen := rfl
@[simp] theorem State.took_elen (p : OutId) : (s.took p).elen = s.elen := rfl
@[simp] theorem State.took_plen (p : OutId) : (s.took p).plen = s.plen := rfl
@[simp] theorem State.took_width (p : OutId) : (s.took p).width = s.width := rfl
@[simp] theorem State.took_height (p : OutId) : (s.took p).height = s.height := rfl
@[simp] theorem State.took_cap (p : OutId) : (s.took p).cap = s.cap := rfl
@[simp] theorem State.took_rxElen (p : OutId) : (s.took p).rxElen = s.rxElen := rfl
@[simp] theorem State.took_rxPlen (p : OutId) : (s.took p).rxPlen = s.rxPlen := rfl
@[simp] theorem State.took_ccnt (p : OutId) : (s.took p).ccnt = s.ccnt := rfl
@[simp] theorem State.took_ocnt (p : OutId) : (s.took p).ocnt = s.ocnt := rfl
@[simp] theorem State.took_marker (p : OutId) : (s.took p).marker = s.marker := rfl
@[simp] theorem State.took_hdr (p : OutId) : (s.took p).hdr = s.hdr := rfl
@[simp] theorem State.took_hidden (p : OutId) : (s.took p).hidden = s.hidden := rfl
@[simp] theorem State.took_resetLine (p : OutId) : (s.took p).resetLine = s.resetLine := rfl
@[simp] theorem State.took_cin (p : OutId) : (s.took p).cin = s.cin := rfl
@[simp] theorem State.took_pin (p : OutId) : (s.took p).pin = s.pin := rfl
@[simp] theorem State.took_ein (p : OutId) : (s.took p).ein = s.ein := rfl
@[simp] theorem State.took_sout (p : OutId) : (s.took p).sout = s.sout := rfl
@[simp] theorem State.took_pout (p : OutId) : (s.took p).pout = s.pout := rfl
@[simp] theorem State.took_eout (p : OutId) : (s.took p).eout = s.eout := rfl
@[simp] theorem State.took_host (p : OutId) : (s.took p).host = { s.host with takes := s.host.takes ++ [{ port := p, data := (s.outPort p).data, valid := s.outputValid p }] } := rfl
@[simp] theorem State.took_epoch (p : OutId) : (s.took p).epoch = s.epoch := rfl

/-! ## aboutToWriteCmd -/

@[simp] theorem State.aboutToWriteCmd_cmd (v : Word) : (s.aboutToWriteCmd v).cmd = s.cmd := rfl
@[simp] theorem State.aboutToWriteCmd_status (v : Word) : (s.aboutToWriteCmd v).status = { s.status with busy := false } := rfl
@[simp] theorem State.aboutToWriteCmd_arg (v : Word) : (s.aboutToWriteCmd v).arg = s.arg := rfl
@[simp] theorem State.aboutToWriteCmd_result (v : Word) : (s.aboutToWriteCmd v).result = s.result := rfl
@[simp] theorem State.aboutToWriteCmd_mlen (v : Word) : (s.aboutToWriteCmd v).mlen = s.mlen := rfl
@[simp] theorem State.aboutToWriteCmd_elen (v : Word) : (s.aboutToWriteCmd v).elen = s.elen := rfl
@[simp] theorem State.aboutToWriteCmd_plen (v : Word) : (s.aboutToWriteCmd v).plen = s.plen := rfl
@[simp] theorem State.aboutToWriteCmd_width (v : Word) : (s.aboutToWriteCmd v).width = s.width := rfl
@[simp] theorem State.aboutToWriteCmd_height (v : Word) : (s.aboutToWriteCmd v).height = s.height := rfl
@[simp] theorem State.aboutToWriteCmd_cap (v : Word) : (s.aboutToWriteCmd v).cap = s.cap := rfl
@[simp] theorem State.aboutToWriteCmd_rxElen (v : Word) : (s.aboutToWriteCmd v).rxElen = s.rxElen := rfl
@[simp] theorem State.aboutToWriteCmd_rxPlen (v : Word) : (s.aboutToWriteCmd v).rxPlen = s.rxPlen := rfl
@[simp] theorem State.aboutToWriteCmd_ccnt (v : Word) : (s.aboutToWriteCmd v).ccnt = s.ccnt := rfl
@[simp] theorem State.aboutToWriteCmd_ocnt (v : Word) : (s.aboutToWriteCmd v).ocnt = s.ocnt := rfl
@[simp] theorem State.aboutToWriteCmd_marker (v : Word) : (s.aboutToWriteCmd v).marker = s.marker := rfl
@[simp] theorem State.aboutToWriteCmd_hdr (v : Word) : (s.aboutToWriteCmd v).hdr = s.hdr := rfl
@[simp] theorem State.aboutToWriteCmd_hidden (v : Word) : (s.aboutToWriteCmd v).hidden = s.hidden := rfl
@[simp] theorem State.aboutToWriteCmd_resetLine (v : Word) : (s.aboutToWriteCmd v).resetLine = false := rfl
@[simp] theorem State.aboutToWriteCmd_cin (v : Word) : (s.aboutToWriteCmd v).cin = s.cin := rfl
@[simp] theorem State.aboutToWriteCmd_pin (v : Word) : (s.aboutToWriteCmd v).pin = s.pin := rfl
@[simp] theorem State.aboutToWriteCmd_ein (v : Word) : (s.aboutToWriteCmd v).ein = s.ein := rfl
@[simp] theorem State.aboutToWriteCmd_sout (v : Word) : (s.aboutToWriteCmd v).sout = s.sout := rfl
@[simp] theorem State.aboutToWriteCmd_pout (v : Word) : (s.aboutToWriteCmd v).pout = s.pout := rfl
@[simp] theorem State.aboutToWriteCmd_eout (v : Word) : (s.aboutToWriteCmd v).eout = s.eout := rfl
@[simp] theorem State.aboutToWriteCmd_host (v : Word) : (s.aboutToWriteCmd v).host = { s.host with prog := [.wr 0x000 4 v], hpc := 0 } := rfl
@[simp] theorem State.aboutToWriteCmd_epoch (v : Word) : (s.aboutToWriteCmd v).epoch = s.epoch := rfl

/-! ## withIn -/

@[simp] theorem State.withIn_cmd (p : InId) (q : InPort) : (s.withIn p q).cmd = s.cmd := by cases p <;> rfl
@[simp] theorem State.withIn_status (p : InId) (q : InPort) : (s.withIn p q).status = s.status := by cases p <;> rfl
@[simp] theorem State.withIn_arg (p : InId) (q : InPort) : (s.withIn p q).arg = s.arg := by cases p <;> rfl
@[simp] theorem State.withIn_result (p : InId) (q : InPort) : (s.withIn p q).result = s.result := by cases p <;> rfl
@[simp] theorem State.withIn_mlen (p : InId) (q : InPort) : (s.withIn p q).mlen = s.mlen := by cases p <;> rfl
@[simp] theorem State.withIn_elen (p : InId) (q : InPort) : (s.withIn p q).elen = s.elen := by cases p <;> rfl
@[simp] theorem State.withIn_plen (p : InId) (q : InPort) : (s.withIn p q).plen = s.plen := by cases p <;> rfl
@[simp] theorem State.withIn_width (p : InId) (q : InPort) : (s.withIn p q).width = s.width := by cases p <;> rfl
@[simp] theorem State.withIn_height (p : InId) (q : InPort) : (s.withIn p q).height = s.height := by cases p <;> rfl
@[simp] theorem State.withIn_cap (p : InId) (q : InPort) : (s.withIn p q).cap = s.cap := by cases p <;> rfl
@[simp] theorem State.withIn_rxElen (p : InId) (q : InPort) : (s.withIn p q).rxElen = s.rxElen := by cases p <;> rfl
@[simp] theorem State.withIn_rxPlen (p : InId) (q : InPort) : (s.withIn p q).rxPlen = s.rxPlen := by cases p <;> rfl
@[simp] theorem State.withIn_ccnt (p : InId) (q : InPort) : (s.withIn p q).ccnt = s.ccnt := by cases p <;> rfl
@[simp] theorem State.withIn_ocnt (p : InId) (q : InPort) : (s.withIn p q).ocnt = s.ocnt := by cases p <;> rfl
@[simp] theorem State.withIn_marker (p : InId) (q : InPort) : (s.withIn p q).marker = s.marker := by cases p <;> rfl
@[simp] theorem State.withIn_hdr (p : InId) (q : InPort) : (s.withIn p q).hdr = s.hdr := by cases p <;> rfl
@[simp] theorem State.withIn_hidden (p : InId) (q : InPort) : (s.withIn p q).hidden = s.hidden := by cases p <;> rfl
@[simp] theorem State.withIn_resetLine (p : InId) (q : InPort) : (s.withIn p q).resetLine = s.resetLine := by cases p <;> rfl
@[simp] theorem State.withIn_sout (p : InId) (q : InPort) : (s.withIn p q).sout = s.sout := by cases p <;> rfl
@[simp] theorem State.withIn_pout (p : InId) (q : InPort) : (s.withIn p q).pout = s.pout := by cases p <;> rfl
@[simp] theorem State.withIn_eout (p : InId) (q : InPort) : (s.withIn p q).eout = s.eout := by cases p <;> rfl
@[simp] theorem State.withIn_host (p : InId) (q : InPort) : (s.withIn p q).host = s.host := by cases p <;> rfl
@[simp] theorem State.withIn_epoch (p : InId) (q : InPort) : (s.withIn p q).epoch = s.epoch := by cases p <;> rfl

/-! ## withOut -/

@[simp] theorem State.withOut_cmd (p : OutId) (q : OutPort) : (s.withOut p q).cmd = s.cmd := by cases p <;> rfl
@[simp] theorem State.withOut_status (p : OutId) (q : OutPort) : (s.withOut p q).status = s.status := by cases p <;> rfl
@[simp] theorem State.withOut_arg (p : OutId) (q : OutPort) : (s.withOut p q).arg = s.arg := by cases p <;> rfl
@[simp] theorem State.withOut_result (p : OutId) (q : OutPort) : (s.withOut p q).result = s.result := by cases p <;> rfl
@[simp] theorem State.withOut_mlen (p : OutId) (q : OutPort) : (s.withOut p q).mlen = s.mlen := by cases p <;> rfl
@[simp] theorem State.withOut_elen (p : OutId) (q : OutPort) : (s.withOut p q).elen = s.elen := by cases p <;> rfl
@[simp] theorem State.withOut_plen (p : OutId) (q : OutPort) : (s.withOut p q).plen = s.plen := by cases p <;> rfl
@[simp] theorem State.withOut_width (p : OutId) (q : OutPort) : (s.withOut p q).width = s.width := by cases p <;> rfl
@[simp] theorem State.withOut_height (p : OutId) (q : OutPort) : (s.withOut p q).height = s.height := by cases p <;> rfl
@[simp] theorem State.withOut_cap (p : OutId) (q : OutPort) : (s.withOut p q).cap = s.cap := by cases p <;> rfl
@[simp] theorem State.withOut_rxElen (p : OutId) (q : OutPort) : (s.withOut p q).rxElen = s.rxElen := by cases p <;> rfl
@[simp] theorem State.withOut_rxPlen (p : OutId) (q : OutPort) : (s.withOut p q).rxPlen = s.rxPlen := by cases p <;> rfl
@[simp] theorem State.withOut_ccnt (p : OutId) (q : OutPort) : (s.withOut p q).ccnt = s.ccnt := by cases p <;> rfl
@[simp] theorem State.withOut_ocnt (p : OutId) (q : OutPort) : (s.withOut p q).ocnt = s.ocnt := by cases p <;> rfl
@[simp] theorem State.withOut_marker (p : OutId) (q : OutPort) : (s.withOut p q).marker = s.marker := by cases p <;> rfl
@[simp] theorem State.withOut_hdr (p : OutId) (q : OutPort) : (s.withOut p q).hdr = s.hdr := by cases p <;> rfl
@[simp] theorem State.withOut_hidden (p : OutId) (q : OutPort) : (s.withOut p q).hidden = s.hidden := by cases p <;> rfl
@[simp] theorem State.withOut_resetLine (p : OutId) (q : OutPort) : (s.withOut p q).resetLine = s.resetLine := by cases p <;> rfl
@[simp] theorem State.withOut_cin (p : OutId) (q : OutPort) : (s.withOut p q).cin = s.cin := by cases p <;> rfl
@[simp] theorem State.withOut_pin (p : OutId) (q : OutPort) : (s.withOut p q).pin = s.pin := by cases p <;> rfl
@[simp] theorem State.withOut_ein (p : OutId) (q : OutPort) : (s.withOut p q).ein = s.ein := by cases p <;> rfl
@[simp] theorem State.withOut_host (p : OutId) (q : OutPort) : (s.withOut p q).host = s.host := by cases p <;> rfl
@[simp] theorem State.withOut_epoch (p : OutId) (q : OutPort) : (s.withOut p q).epoch = s.epoch := by cases p <;> rfl

/-! ## cleared -/

@[simp] theorem State.cleared_cmd (p : OutId) : (s.cleared p).cmd = s.cmd := by cases p <;> rfl
@[simp] theorem State.cleared_status (p : OutId) : (s.cleared p).status = s.status := by cases p <;> rfl
@[simp] theorem State.cleared_arg (p : OutId) : (s.cleared p).arg = s.arg := by cases p <;> rfl
@[simp] theorem State.cleared_result (p : OutId) : (s.cleared p).result = s.result := by cases p <;> rfl
@[simp] theorem State.cleared_mlen (p : OutId) : (s.cleared p).mlen = s.mlen := by cases p <;> rfl
@[simp] theorem State.cleared_elen (p : OutId) : (s.cleared p).elen = s.elen := by cases p <;> rfl
@[simp] theorem State.cleared_plen (p : OutId) : (s.cleared p).plen = s.plen := by cases p <;> rfl
@[simp] theorem State.cleared_width (p : OutId) : (s.cleared p).width = s.width := by cases p <;> rfl
@[simp] theorem State.cleared_height (p : OutId) : (s.cleared p).height = s.height := by cases p <;> rfl
@[simp] theorem State.cleared_cap (p : OutId) : (s.cleared p).cap = s.cap := by cases p <;> rfl
@[simp] theorem State.cleared_rxElen (p : OutId) : (s.cleared p).rxElen = s.rxElen := by cases p <;> rfl
@[simp] theorem State.cleared_rxPlen (p : OutId) : (s.cleared p).rxPlen = s.rxPlen := by cases p <;> rfl
@[simp] theorem State.cleared_ccnt (p : OutId) : (s.cleared p).ccnt = s.ccnt := by cases p <;> rfl
@[simp] theorem State.cleared_ocnt (p : OutId) : (s.cleared p).ocnt = s.ocnt := by cases p <;> rfl
@[simp] theorem State.cleared_marker (p : OutId) : (s.cleared p).marker = s.marker := by cases p <;> rfl
@[simp] theorem State.cleared_hdr (p : OutId) : (s.cleared p).hdr = s.hdr := by cases p <;> rfl
@[simp] theorem State.cleared_hidden (p : OutId) : (s.cleared p).hidden = s.hidden := by cases p <;> rfl
@[simp] theorem State.cleared_resetLine (p : OutId) : (s.cleared p).resetLine = s.resetLine := by cases p <;> rfl
@[simp] theorem State.cleared_cin (p : OutId) : (s.cleared p).cin = s.cin := by cases p <;> rfl
@[simp] theorem State.cleared_pin (p : OutId) : (s.cleared p).pin = s.pin := by cases p <;> rfl
@[simp] theorem State.cleared_ein (p : OutId) : (s.cleared p).ein = s.ein := by cases p <;> rfl
@[simp] theorem State.cleared_host (p : OutId) : (s.cleared p).host = { s.host with spoiled := s.host.spoiled.filter (· != p) } := by cases p <;> rfl
@[simp] theorem State.cleared_epoch (p : OutId) : (s.cleared p).epoch = s.epoch := by cases p <;> rfl
@[simp] theorem State.cleared_outPort (p : OutId) : (s.cleared p).outPort p = { s.outPort p with data := [] } := by
  cases p <;> rfl

theorem State.cleared_outPort_ne {p p' : OutId} (h : p' ≠ p) : (s.cleared p).outPort p' = s.outPort p' := by
  cases p <;> cases p' <;> first | rfl | exact absurd rfl h

/-! ## withAttached -/

@[simp] theorem State.withAttached_cmd (p : Port) (b : Bool) : (s.withAttached p b).cmd = s.cmd := by cases p <;> rfl
@[simp] theorem State.withAttached_status (p : Port) (b : Bool) : (s.withAttached p b).status = s.status := by cases p <;> rfl
@[simp] theorem State.withAttached_arg (p : Port) (b : Bool) : (s.withAttached p b).arg = s.arg := by cases p <;> rfl
@[simp] theorem State.withAttached_result (p : Port) (b : Bool) : (s.withAttached p b).result = s.result := by cases p <;> rfl
@[simp] theorem State.withAttached_mlen (p : Port) (b : Bool) : (s.withAttached p b).mlen = s.mlen := by cases p <;> rfl
@[simp] theorem State.withAttached_elen (p : Port) (b : Bool) : (s.withAttached p b).elen = s.elen := by cases p <;> rfl
@[simp] theorem State.withAttached_plen (p : Port) (b : Bool) : (s.withAttached p b).plen = s.plen := by cases p <;> rfl
@[simp] theorem State.withAttached_width (p : Port) (b : Bool) : (s.withAttached p b).width = s.width := by cases p <;> rfl
@[simp] theorem State.withAttached_height (p : Port) (b : Bool) : (s.withAttached p b).height = s.height := by cases p <;> rfl
@[simp] theorem State.withAttached_cap (p : Port) (b : Bool) : (s.withAttached p b).cap = s.cap := by cases p <;> rfl
@[simp] theorem State.withAttached_rxElen (p : Port) (b : Bool) : (s.withAttached p b).rxElen = s.rxElen := by cases p <;> rfl
@[simp] theorem State.withAttached_rxPlen (p : Port) (b : Bool) : (s.withAttached p b).rxPlen = s.rxPlen := by cases p <;> rfl
@[simp] theorem State.withAttached_ccnt (p : Port) (b : Bool) : (s.withAttached p b).ccnt = s.ccnt := by cases p <;> rfl
@[simp] theorem State.withAttached_ocnt (p : Port) (b : Bool) : (s.withAttached p b).ocnt = s.ocnt := by cases p <;> rfl
@[simp] theorem State.withAttached_marker (p : Port) (b : Bool) : (s.withAttached p b).marker = s.marker := by cases p <;> rfl
@[simp] theorem State.withAttached_hdr (p : Port) (b : Bool) : (s.withAttached p b).hdr = s.hdr := by cases p <;> rfl
@[simp] theorem State.withAttached_hidden (p : Port) (b : Bool) : (s.withAttached p b).hidden = s.hidden := by cases p <;> rfl
@[simp] theorem State.withAttached_resetLine (p : Port) (b : Bool) : (s.withAttached p b).resetLine = s.resetLine := by cases p <;> rfl
@[simp] theorem State.withAttached_host (p : Port) (b : Bool) : (s.withAttached p b).host = s.host := by cases p <;> rfl
@[simp] theorem State.withAttached_epoch (p : Port) (b : Bool) : (s.withAttached p b).epoch = s.epoch := by cases p <;> rfl

/-! ## Ports as one family -/

@[simp] theorem State.withIn_inPort (p : InId) (q : InPort) : (s.withIn p q).inPort p = q := by cases p <;> rfl

theorem State.withIn_inPort_ne {p p' : InId} (h : p' ≠ p) (q : InPort) : (s.withIn p q).inPort p' = s.inPort p' := by
  cases p <;> cases p' <;> first | rfl | exact absurd rfl h

@[simp] theorem State.withIn_outPort (p : InId) (q : InPort) (p' : OutId) : (s.withIn p q).outPort p' = s.outPort p' := by
  cases p <;> cases p' <;> rfl

@[simp] theorem State.withOut_outPort (p : OutId) (q : OutPort) : (s.withOut p q).outPort p = q := by cases p <;> rfl

theorem State.withOut_outPort_ne {p p' : OutId} (h : p' ≠ p) (q : OutPort) :
    (s.withOut p q).outPort p' = s.outPort p' := by
  cases p <;> cases p' <;> first | rfl | exact absurd rfl h

@[simp] theorem State.withOut_inPort (p : OutId) (q : OutPort) (p' : InId) : (s.withOut p q).inPort p' = s.inPort p' := by
  cases p <;> cases p' <;> rfl

/-! ## The host's judgement (R260) -/

/-- A command that did not fail spoils no output. -/
theorem State.judged_of_done {s r : State} (h : s.status.fail = false) (hh : s.host = r.host) : s.judged r = s := by
  simp [State.judged, spoiledAfter, h, ← hh]

/-- A port holds bytes of a failed command after a command exactly when it did before, or this one failed and put bytes
there. -/
theorem mem_spoiledAfter {r s : State} {p : OutId} :
    p ∈ spoiledAfter r s ↔
      p ∈ r.host.spoiled ∨ s.status.fail = true ∧ (r.outPort p).data.length < (s.outPort p).data.length := by
  cases h : s.status.fail <;> cases p <;> simp [spoiledAfter, h]

theorem State.outputValid_eq {s : State} {p : OutId} :
    s.outputValid p = true ↔ s.status.done = true ∧ p ∉ s.host.spoiled := by
  simp [State.outputValid]

@[simp] theorem State.advance_eq : s.advance = s.goto (s.host.hpc + 1) := rfl

end Sys2Proof.Machine
end

