-- ==== Sys2Proof/Laws/Engine.lean ====
section
/-! SUPPORT. Laws/Engine.lean: how a part of a command runs: sequencing, loops, and one lemma per port primitive that says
all it can do. A proof about a command cites these and unfolds no monadic operation. -/

namespace Sys2Proof.Machine

variable {α β : Type}

/-! ## Sequencing -/

theorem Engine.bind_ok {m : Engine α} {f : α → Engine β} {s t : State} {a : α} (h : m s = .ok a t) :
    (m >>= f) s = f a t := by
  simp [bind, EStateM.bind, h]

theorem Engine.bind_error {m : Engine α} {f : α → Engine β} {s t : State} {r : Raise} (h : m s = .error r t) :
    (m >>= f) s = .error r t := by
  simp [bind, EStateM.bind, h]

/-- A sequence completes exactly when both of its parts do. -/
theorem Engine.bind_eq_ok_iff {m : Engine α} {f : α → Engine β} {s u : State} {b : β} :
    (m >>= f) s = .ok b u ↔ ∃ a t, m s = .ok a t ∧ f a t = .ok b u := by
  cases h : m s with
  | ok a t => simp [Engine.bind_ok h]
  | error r t => simp [Engine.bind_error h]

/-- A sequence raises exactly when its first part does, or its second after the first completed. -/
theorem Engine.bind_eq_error_iff {m : Engine α} {f : α → Engine β} {s u : State} {r : Raise} :
    (m >>= f) s = .error r u ↔ m s = .error r u ∨ ∃ a t, m s = .ok a t ∧ f a t = .error r u := by
  cases h : m s with
  | ok a t => simp [Engine.bind_ok h]
  | error e t => simp [Engine.bind_error h]

@[simp] theorem Engine.pure_apply (a : α) (s : State) : (pure a : Engine α) s = .ok a s := rfl

@[simp] theorem Engine.modify_bind (f : State → State) (g : PUnit → Engine β) (s : State) :
    ((modify f : Engine PUnit) >>= g) s = g ⟨⟩ (f s) := rfl

@[simp] theorem Engine.modify_apply (f : State → State) (s : State) : (modify f : Engine PUnit) s = .ok ⟨⟩ (f s) := rfl

@[simp] theorem Engine.get_bind (g : State → Engine β) (s : State) : ((get : Engine State) >>= g) s = g s s := rfl

@[simp] theorem Engine.pure_bind_apply (a : α) (g : α → Engine β) (s : State) : ((pure a : Engine α) >>= g) s = g a s := rfl

@[simp] theorem raiseError_apply (k : ErrKind) (p : Option Port) (s : State) :
    (raiseError k p : Engine α) s = .error { kind := k, port := p } s := rfl

@[simp] theorem setSeq_apply (q : Seq) (s : State) : setSeq q s = .ok ⟨⟩ (s.withSeq q) := rfl

@[simp] theorem setSeq_bind (q : Seq) (g : PUnit → Engine β) (s : State) : (setSeq q >>= g) s = g ⟨⟩ (s.withSeq q) := rfl

/-! ## Loops (R16) -/

@[simp] theorem forFrom_zero (body : Nat → Engine Unit) (i : Nat) (s : State) : forFrom body 0 i s = .ok () s := rfl

theorem forFrom_succ (body : Nat → Engine Unit) (n i : Nat) :
    forFrom body (n + 1) i = (body i >>= fun _ => forFrom body n (i + 1)) := rfl

/-- A loop whose body carries `P i` to `P (i + 1)` carries `P i` to `P (i + n)`. -/
theorem forFrom_ok {body : Nat → Engine Unit} {P : Nat → State → Prop} :
    ∀ (n i : Nat) (s : State), (∀ j t, i ≤ j → j < i + n → P j t → ∃ u, body j t = .ok () u ∧ P (j + 1) u) → P i s →
      ∃ u, forFrom body n i s = .ok () u ∧ P (i + n) u
  | 0, _, s, _, hp => ⟨s, rfl, hp⟩
  | n + 1, i, s, hb, hp => by
    obtain ⟨t, ht, hp'⟩ := hb i s (Nat.le_refl i) (by omega) hp
    obtain ⟨u, hu, hpu⟩ := forFrom_ok n (i + 1) t (fun j v h1 h2 hv => hb j v (by omega) (by omega) hv) hp'
    refine ⟨u, ?_, by rwa [show i + (n + 1) = i + 1 + n by omega]⟩
    rw [forFrom_succ, Engine.bind_ok ht, hu]

/-- A loop whose body carries `P` up to turn `i + k`, where it raises, raises there. -/
theorem forFrom_error {body : Nat → Engine Unit} {P : Nat → State → Prop} {Q : Raise → State → Prop} :
    ∀ (k n i : Nat) (s : State), k < n →
      (∀ j t, i ≤ j → j < i + k → P j t → ∃ u, body j t = .ok () u ∧ P (j + 1) u) →
      (∀ t, P (i + k) t → ∃ r u, body (i + k) t = .error r u ∧ Q r u) → P i s →
      ∃ r u, forFrom body n i s = .error r u ∧ Q r u
  | _, 0, _, _, hk, _, _, _ => absurd hk (by omega)
  | 0, n + 1, i, s, _, _, hlast, hp => by
    obtain ⟨r, u, hu, hq⟩ := hlast s hp
    refine ⟨r, u, ?_, hq⟩
    rw [Nat.add_zero] at hu
    rw [forFrom_succ, Engine.bind_error hu]
  | k + 1, n + 1, i, s, hk, hb, hlast, hp => by
    obtain ⟨t, ht, hp'⟩ := hb i s (Nat.le_refl i) (by omega) hp
    obtain ⟨r, u, hu, hq⟩ := forFrom_error (P := P) (Q := Q) k n (i + 1) t (by omega)
      (fun j v h1 h2 hv => hb j v (by omega) (by omega) hv)
      (fun v hv => by
        rw [show i + 1 + k = i + (k + 1) by omega] at hv ⊢
        exact hlast v hv) hp'
    refine ⟨r, u, ?_, hq⟩
    rw [forFrom_succ, Engine.bind_ok ht, hu]

/-- `for i in 0 .. n-1` with an invariant. -/
theorem forUpTo_ok {body : Nat → Engine Unit} {P : Nat → State → Prop} {n : Nat} {s : State}
    (hb : ∀ j t, j < n → P j t → ∃ u, body j t = .ok () u ∧ P (j + 1) u) (hp : P 0 s) :
    ∃ u, forUpTo n body s = .ok () u ∧ P n u := by
  have h := forFrom_ok n 0 s (fun j t _ h2 => hb j t (by omega)) hp
  rwa [Nat.zero_add] at h

/-- `for i in 0 .. n-1` that raises at turn `k`. -/
theorem forUpTo_error {body : Nat → Engine Unit} {P : Nat → State → Prop} {Q : Raise → State → Prop} {n k : Nat} {s : State}
    (hk : k < n) (hb : ∀ j t, j < k → P j t → ∃ u, body j t = .ok () u ∧ P (j + 1) u)
    (hlast : ∀ t, P k t → ∃ r u, body k t = .error r u ∧ Q r u) (hp : P 0 s) :
    ∃ r u, forUpTo n body s = .error r u ∧ Q r u :=
  forFrom_error k n 0 s hk (fun j t _ h2 => hb j t (by omega)) (fun t ht => by
    rw [Nat.zero_add] at ht ⊢
    exact hlast t ht) hp

/-! ## Input ports (R64, R66, R68, R69) -/

theorem readPort_eos {p : InId} {s : State} (h : (s.inPort p).items = []) : readPort p s = .ok .eos s := by
  simp [readPort, h]

theorem readPort_byte {p : InId} {s : State} {b : Byte} {rest : List Item} (h : (s.inPort p).items = .byte b :: rest) :
    readPort p s = .ok (.byte b) (s.withIn p { s.inPort p with items := rest }) := by
  simp [readPort, h]

theorem readPort_err {p : InId} {s : State} {rest : List Item} (h : (s.inPort p).items = .err :: rest) :
    readPort p s = .ok .err (s.withIn p { s.inPort p with items := rest }) := by
  simp [readPort, h]

/-- Reading an input port always answers: a byte or ERR, consumed, or EOS with nothing consumed (R64). -/
theorem readPort_cases (p : InId) (s : State) :
    (∃ b rest, (s.inPort p).items = .byte b :: rest ∧
        readPort p s = .ok (.byte b) (s.withIn p { s.inPort p with items := rest })) ∨
      (∃ rest, (s.inPort p).items = .err :: rest ∧
        readPort p s = .ok .err (s.withIn p { s.inPort p with items := rest })) ∨
      ((s.inPort p).items = [] ∧ readPort p s = .ok .eos s) := by
  cases h : (s.inPort p).items with
  | nil => exact .inr (.inr ⟨rfl, readPort_eos h⟩)
  | cons i rest =>
    cases i with
    | byte b => exact .inl ⟨b, rest, rfl, readPort_byte h⟩
    | err => exact .inr (.inl ⟨rest, rfl, readPort_err h⟩)

theorem carrierRead_byte {s : State} {b : Byte} {rest : List Item} (h : s.cin.items = .byte b :: rest) :
    carrierRead s = .ok b ((s.withIn .cin { s.cin with items := rest }).countCarrier) := by
  rw [carrierRead, Engine.bind_ok (readPort_byte (p := .cin) h)]
  rfl

theorem carrierRead_err {s : State} {rest : List Item} (h : s.cin.items = .err :: rest) :
    carrierRead s = .error ⟨.ioFailure, some .cin⟩ (s.withIn .cin { s.cin with items := rest }) := by
  rw [carrierRead, Engine.bind_ok (readPort_err (p := .cin) h)]
  rfl

theorem carrierRead_eos {s : State} (h : s.cin.items = []) :
    carrierRead s = .error ⟨.unexpectedEndOfCarrier, some .cin⟩ s := by
  rw [carrierRead, Engine.bind_ok (readPort_eos (p := .cin) h)]
  rfl

/-- All that `CarrierRead()` can do (R66). -/
theorem carrierRead_cases (s : State) :
    (∃ b rest, s.cin.items = .byte b :: rest ∧
        carrierRead s = .ok b ((s.withIn .cin { s.cin with items := rest }).countCarrier)) ∨
      (∃ rest, s.cin.items = .err :: rest ∧
        carrierRead s = .error ⟨.ioFailure, some .cin⟩ (s.withIn .cin { s.cin with items := rest })) ∨
      (s.cin.items = [] ∧ carrierRead s = .error ⟨.unexpectedEndOfCarrier, some .cin⟩ s) := by
  obtain ⟨b, rest, h, -⟩ | ⟨rest, h, -⟩ | ⟨h, -⟩ := readPort_cases .cin s
  · exact .inl ⟨b, rest, h, carrierRead_byte h⟩
  · exact .inr (.inl ⟨rest, h, carrierRead_err h⟩)
  · exact .inr (.inr ⟨h, carrierRead_eos h⟩)

theorem sourceRead_byte {p : InId} {s : State} {b : Byte} {rest : List Item} (h : (s.inPort p).items = .byte b :: rest) :
    sourceRead p s = .ok b (s.withIn p { s.inPort p with items := rest }) := by
  rw [sourceRead, Engine.bind_ok (readPort_byte h)]
  rfl

theorem sourceRead_eos {p : InId} {s : State} (h : (s.inPort p).items = []) :
    sourceRead p s = .error ⟨.ioFailure, some p.port⟩ s := by
  rw [sourceRead, Engine.bind_ok (readPort_eos h)]
  rfl

theorem sourceRead_err {p : InId} {s : State} {rest : List Item} (h : (s.inPort p).items = .err :: rest) :
    sourceRead p s = .error ⟨.ioFailure, some p.port⟩ (s.withIn p { s.inPort p with items := rest }) := by
  rw [sourceRead, Engine.bind_ok (readPort_err h)]
  rfl

/-- All that `PayloadRead()` and `ExtRead()` can do (R68, R69). -/
theorem sourceRead_cases (p : InId) (s : State) :
    (∃ b rest, (s.inPort p).items = .byte b :: rest ∧
        sourceRead p s = .ok b (s.withIn p { s.inPort p with items := rest })) ∨
      (∃ rest, (s.inPort p).items = .err :: rest ∧
        sourceRead p s = .error ⟨.ioFailure, some p.port⟩ (s.withIn p { s.inPort p with items := rest })) ∨
      ((s.inPort p).items = [] ∧ sourceRead p s = .error ⟨.ioFailure, some p.port⟩ s) := by
  obtain ⟨b, rest, h, -⟩ | ⟨rest, h, -⟩ | ⟨h, -⟩ := readPort_cases p s
  · exact .inl ⟨b, rest, h, sourceRead_byte h⟩
  · exact .inr (.inl ⟨rest, h, sourceRead_err h⟩)
  · exact .inr (.inr ⟨h, sourceRead_eos h⟩)

/-! ## Output ports (R65, R67, R70, R71) -/

/-- An output port after a write that succeeded. -/
def OutPort.wrote (q : OutPort) (b : Byte) : OutPort := { q with data := q.data ++ [b], attempts := q.attempts + 1 }

/-- An output port after a write that failed. -/
def OutPort.missed (q : OutPort) : OutPort := { q with attempts := q.attempts + 1 }

theorem writePort_ok {p : OutId} {s : State} (b : Byte) (h : (s.outPort p).attempts ∉ (s.outPort p).fails) :
    writePort p b s = .ok true (s.withOut p ((s.outPort p).wrote b)) := by
  simp [writePort, OutPort.failsNext, h, OutPort.wrote]

theorem writePort_fail {p : OutId} {s : State} (b : Byte) (h : (s.outPort p).attempts ∈ (s.outPort p).fails) :
    writePort p b s = .ok false (s.withOut p (s.outPort p).missed) := by
  simp [writePort, OutPort.failsNext, h, OutPort.missed]

theorem stegoWrite_ok {s : State} (b : Byte) (h : s.sout.attempts ∉ s.sout.fails) :
    stegoWrite b s = .ok () ((s.withOut .sout (s.sout.wrote b)).countStego) := by
  rw [stegoWrite, Engine.bind_ok (writePort_ok (p := .sout) b h)]
  rfl

theorem stegoWrite_fail {s : State} (b : Byte) (h : s.sout.attempts ∈ s.sout.fails) :
    stegoWrite b s = .error ⟨.ioFailure, some .sout⟩ (s.withOut .sout s.sout.missed) := by
  rw [stegoWrite, Engine.bind_ok (writePort_fail (p := .sout) b h)]
  rfl

/-- All that `StegoWrite(b)` can do (R67). -/
theorem stegoWrite_cases (b : Byte) (s : State) :
    (s.sout.attempts ∉ s.sout.fails ∧ stegoWrite b s = .ok () ((s.withOut .sout (s.sout.wrote b)).countStego)) ∨
      (s.sout.attempts ∈ s.sout.fails ∧
        stegoWrite b s = .error ⟨.ioFailure, some .sout⟩ (s.withOut .sout s.sout.missed)) := by
  by_cases h : s.sout.attempts ∈ s.sout.fails
  · exact .inr ⟨h, stegoWrite_fail b h⟩
  · exact .inl ⟨h, stegoWrite_ok b h⟩

theorem sinkWrite_ok {p : OutId} {s : State} (b : Byte) (h : (s.outPort p).attempts ∉ (s.outPort p).fails) :
    sinkWrite p b s = .ok () (s.withOut p ((s.outPort p).wrote b)) := by
  rw [sinkWrite, Engine.bind_ok (writePort_ok b h)]
  rfl

theorem sinkWrite_fail {p : OutId} {s : State} (b : Byte) (h : (s.outPort p).attempts ∈ (s.outPort p).fails) :
    sinkWrite p b s = .error ⟨.ioFailure, some p.port⟩ (s.withOut p (s.outPort p).missed) := by
  rw [sinkWrite, Engine.bind_ok (writePort_fail b h)]
  rfl

/-- All that `PayloadWrite(b)` and `ExtWrite(b)` can do (R70, R71). -/
theorem sinkWrite_cases (p : OutId) (b : Byte) (s : State) :
    ((s.outPort p).attempts ∉ (s.outPort p).fails ∧ sinkWrite p b s = .ok () (s.withOut p ((s.outPort p).wrote b))) ∨
      ((s.outPort p).attempts ∈ (s.outPort p).fails ∧
        sinkWrite p b s = .error ⟨.ioFailure, some p.port⟩ (s.withOut p (s.outPort p).missed)) := by
  by_cases h : (s.outPort p).attempts ∈ (s.outPort p).fails
  · exact .inr ⟨h, sinkWrite_fail b h⟩
  · exact .inl ⟨h, sinkWrite_ok b h⟩

/-! ## The command-start checks (R97, R98) -/

theorem checkPorts_ok {ps : List Port} {s : State} (h : ∀ p ∈ ps, s.attached p = true) : checkPorts ps s = .ok () s := by
  induction ps with
  | nil => rfl
  | cons p ps ih =>
    have hp : s.attached p = true := h p (by simp)
    simp [checkPorts, hp, ih (fun q hq => h q (by simp [hq]))]

/-- The port checks change nothing; they complete when every port is attached and otherwise name the first that is not. -/
theorem checkPorts_cases (ps : List Port) (s : State) :
    ((∀ p ∈ ps, s.attached p = true) ∧ checkPorts ps s = .ok () s) ∨
      ∃ pre p post, ps = pre ++ p :: post ∧ (∀ q ∈ pre, s.attached q = true) ∧ s.attached p = false ∧
        checkPorts ps s = .error ⟨.unopenableFile, some p⟩ s := by
  induction ps with
  | nil => exact .inl ⟨by simp, rfl⟩
  | cons p ps ih =>
    cases hp : s.attached p with
    | false => exact .inr ⟨[], p, ps, rfl, by simp, hp, by simp [checkPorts, hp]⟩
    | true =>
      obtain ⟨h, e⟩ | ⟨pre, q, post, rfl, hpre, hq, e⟩ := ih
      · exact .inl ⟨by simpa [hp] using h, by simp [checkPorts, hp, e]⟩
      · exact .inr ⟨p :: pre, q, post, rfl, by simpa [hp] using hpre, hq, by simp [checkPorts, hp, e]⟩

theorem checkPorts_first {pre post : List Port} {p : Port} {s : State} (hpre : ∀ q ∈ pre, s.attached q = true)
    (hp : s.attached p = false) : checkPorts (pre ++ p :: post) s = .error ⟨.unopenableFile, some p⟩ s := by
  induction pre with
  | nil => simp [checkPorts, hp]
  | cons q pre ih =>
    have hq : s.attached q = true := hpre q (by simp)
    simp [checkPorts, hq, ih (fun r hr => hpre r (by simp [hr]))]

theorem validate_markerLen {i : Instr} {s : State} (h1 : checksMarkerLen i = true) (h2 : markerLenOk s = false) :
    validate i s = .error ⟨.invalidArguments, none⟩ s := by
  simp [validate, h1, h2, Engine.bind_error (raiseError_apply _ _ _)]

theorem validate_ports {i : Instr} {s : State} (h : checksMarkerLen i = true → markerLenOk s = true) :
    validate i s = checkPorts (portsRequired i) s := by
  cases h1 : checksMarkerLen i with
  | false => simp [validate, h1]
  | true => simp [validate, h1, h h1]

theorem validate_ok {i : Instr} {s : State} (h : checksMarkerLen i = true → markerLenOk s = true)
    (hp : ∀ p ∈ portsRequired i, s.attached p = true) : validate i s = .ok () s := by
  rw [validate_ports h, checkPorts_ok hp]

/-- Validation changes nothing, whatever it answers. -/
theorem validate_cases (i : Instr) (s : State) :
    validate i s = .ok () s ∨ ∃ r, validate i s = .error r s ∧ r.kind ∈ [ErrKind.invalidArguments, .unopenableFile] := by
  by_cases h : checksMarkerLen i = true ∧ markerLenOk s = false
  · exact .inr ⟨_, validate_markerLen h.1 h.2, by simp⟩
  · have h' : checksMarkerLen i = true → markerLenOk s = true := fun h1 => by
      cases h2 : markerLenOk s
      · exact absurd ⟨h1, h2⟩ h
      · rfl
    rw [validate_ports h']
    obtain ⟨-, e⟩ | ⟨_, p, _, -, -, -, e⟩ := checkPorts_cases (portsRequired i) s
    · exact .inl e
    · exact .inr ⟨_, e, by simp⟩

/-! ## A whole command (R95, R255) -/

theorem runCommand_ok {i : Instr} {body : Engine Unit} {s t : State} (hv : validate i (s.start (encode i)) = .ok () (s.start (encode i)))
    (hb : body (s.start (encode i)) = .ok () t) : runCommand i body s = .next t.finish := by
  simp only [runCommand]
  rw [Engine.bind_ok hv, hb]
  rfl

theorem runCommand_raise {i : Instr} {body : Engine Unit} {s t : State} {r : Raise}
    (hv : validate i (s.start (encode i)) = .ok () (s.start (encode i)))
    (hb : body (s.start (encode i)) = .error r t) : runCommand i body s = .next (t.raise r) := by
  simp only [runCommand]
  rw [Engine.bind_ok hv, hb]
  rfl

theorem runCommand_invalid {i : Instr} {body : Engine Unit} {s t : State} {r : Raise}
    (hv : validate i (s.start (encode i)) = .error r t) : runCommand i body s = .next (t.raise r) := by
  simp only [runCommand]
  rw [Engine.bind_error hv]
  rfl

/-- All that a command can do: fail at validation with nothing done, fail in its body, or complete. -/
theorem runCommand_cases (i : Instr) (body : Engine Unit) (s : State) :
    (∃ r, validate i (s.start (encode i)) = .error r (s.start (encode i)) ∧
        runCommand i body s = .next ((s.start (encode i)).raise r)) ∨
      (validate i (s.start (encode i)) = .ok () (s.start (encode i)) ∧
        ((∃ r t, body (s.start (encode i)) = .error r t ∧ runCommand i body s = .next (t.raise r)) ∨
          ∃ t, body (s.start (encode i)) = .ok () t ∧ runCommand i body s = .next t.finish)) := by
  obtain h | ⟨r, h, -⟩ := validate_cases i (s.start (encode i))
  · refine .inr ⟨h, ?_⟩
    cases hb : body (s.start (encode i)) with
    | ok a t => exact .inr ⟨t, rfl, runCommand_ok h hb⟩
    | error r t => exact .inl ⟨r, t, rfl, runCommand_raise h hb⟩
  · exact .inl ⟨r, h, runCommand_invalid h⟩

end Sys2Proof.Machine
end

