-- ==== Sys2Proof/Laws/Moves.lean ====
section
/-! SUPPORT. Laws/Moves.lean: what any command can do to the state, said once: every command is a path of moves, each move
of a kind that command has (R94, R98). Whole-machine frames and invariants follow by induction over the path. -/

namespace Sys2Proof.Machine

/-- The kinds of change a command makes while it runs. -/
inductive MoveKind where
  | seq | hidden | carrier | pin | ein | stego | pout | eout | hdr | estimate | check | result | decoded
deriving DecidableEq, Repr

/-- The move kinds of reading PIN or EIN, and of writing POUT or EOUT. -/
def InId.moveKind : InId → MoveKind
  | .cin => .carrier
  | .pin => .pin
  | .ein => .ein

def OutId.moveKind : OutId → MoveKind
  | .sout => .stego
  | .pout => .pout
  | .eout => .eout

/-- One change of a running command. -/
inductive Move : MoveKind → State → State → Prop where
  | seq (s : State) (q : Seq) (hq : q ≠ .idle ∧ q ≠ .done ∧ q ≠ .fail) : Move .seq s (s.withSeq q)
  | hidden (s : State) (h : Hidden) : Move .hidden s { s with hidden := h }
  | carrier (s : State) (b : Byte) (rest : List Item) (h : s.cin.items = .byte b :: rest) :
      Move .carrier s ((s.withIn .cin { s.cin with items := rest }).countCarrier)
  | carrierErr (s : State) (rest : List Item) (h : s.cin.items = .err :: rest) :
      Move .carrier s (s.withIn .cin { s.cin with items := rest })
  | source (s : State) (p : InId) (hp : p ≠ .cin) (i : Item) (rest : List Item) (h : (s.inPort p).items = i :: rest) :
      Move p.moveKind s (s.withIn p { s.inPort p with items := rest })
  | stego (s : State) (b : Byte) (h : s.sout.attempts ∉ s.sout.fails) :
      Move .stego s ((s.withOut .sout (s.sout.wrote b)).countStego)
  | stegoMiss (s : State) (h : s.sout.attempts ∈ s.sout.fails) : Move .stego s (s.withOut .sout s.sout.missed)
  | sink (s : State) (p : OutId) (hp : p ≠ .sout) (b : Byte) (h : (s.outPort p).attempts ∉ (s.outPort p).fails) :
      Move p.moveKind s (s.withOut p ((s.outPort p).wrote b))
  | sinkMiss (s : State) (p : OutId) (hp : p ≠ .sout) (h : (s.outPort p).attempts ∈ (s.outPort p).fails) :
      Move p.moveKind s (s.withOut p (s.outPort p).missed)
  | hdr (s : State) (i : Nat) (b : Byte) : Move .hdr s (s.withHdrByte i b)
  | estimate (s : State) : Move .estimate s s.estimated
  | check (s : State) : Move .check s s.capacityChecked
  | result (s : State) (v : Word) : Move .result s { s with result := v }
  | decoded (s : State) (e p : Word) : Move .decoded s { s with rxElen := e, rxPlen := p }

/-- The state after zero or more moves of the kinds in `ks`. -/
inductive Path (ks : List MoveKind) : State → State → Prop where
  | refl (s : State) : Path ks s s
  | tail {s t u : State} {k : MoveKind} (h : Path ks s t) (hk : k ∈ ks) (m : Move k t u) : Path ks s u

theorem Path.one {ks : List MoveKind} {s t : State} {k : MoveKind} (hk : k ∈ ks) (m : Move k s t) : Path ks s t :=
  .tail (.refl s) hk m

theorem Path.trans {ks : List MoveKind} {s t u : State} (h : Path ks s t) (h' : Path ks t u) : Path ks s u := by
  induction h' with
  | refl => exact h
  | tail _ hk m ih => exact .tail ih hk m

/-- A relation that every allowed move keeps, and that is reflexive and transitive, holds along a path. -/
theorem Path.keeps {ks : List MoveKind} {R : State → State → Prop} (hr : ∀ s, R s s)
    (ht : ∀ s t u, R s t → R t u → R s u) (hm : ∀ k ∈ ks, ∀ s t, Move k s t → R s t) {s t : State} (h : Path ks s t) : R s t := by
  induction h with
  | refl => exact hr s
  | tail _ hk m ih => exact ht _ _ _ ih (hm _ hk _ _ m)

/-- A field that no allowed move changes is unchanged along a path. -/
theorem Path.unchanged {ks : List MoveKind} {γ : Type} (f : State → γ) (hm : ∀ k ∈ ks, ∀ s t, Move k s t → f t = f s)
    {s t : State} (h : Path ks s t) : f t = f s :=
  Path.keeps (R := fun s t => f t = f s) (fun _ => rfl) (fun _ _ _ h1 h2 => h2.trans h1) hm h

/-! ## Parts of a command that make only moves of given kinds -/

/-- `m` makes only moves of the kinds in `ks`, whether it completes or raises. -/
def Engine.Within {α : Type} (ks : List MoveKind) (m : Engine α) : Prop :=
  ∀ s, (∀ a t, m s = .ok a t → Path ks s t) ∧ ∀ r t, m s = .error r t → Path ks s t

variable {α β : Type} {ks : List MoveKind}

theorem Within.bind {m : Engine α} {f : α → Engine β} (hm : Engine.Within ks m) (hf : ∀ a, Engine.Within ks (f a)) :
    Engine.Within ks (m >>= f) := by
  refine fun s => ⟨fun b u h => ?_, fun r u h => ?_⟩
  · obtain ⟨a, t, h1, h2⟩ := Engine.bind_eq_ok_iff.mp h
    exact ((hm s).1 a t h1).trans (((hf a) t).1 b u h2)
  · obtain h1 | ⟨a, t, h1, h2⟩ := Engine.bind_eq_error_iff.mp h
    · exact (hm s).2 r u h1
    · exact ((hm s).1 a t h1).trans (((hf a) t).2 r u h2)

theorem Within.pure (a : α) : Engine.Within ks (Pure.pure a : Engine α) := by
  refine fun s => ⟨fun b u h => ?_, fun r u h => ?_⟩ <;> cases h
  exact .refl s

theorem Within.get : Engine.Within ks (MonadState.get : Engine State) := by
  refine fun s => ⟨fun b u h => ?_, fun r u h => ?_⟩ <;> cases h
  exact .refl s

theorem Within.raise (k : ErrKind) (p : Option Port) : Engine.Within ks (raiseError k p : Engine α) := by
  refine fun s => ⟨fun b u h => ?_, fun r u h => ?_⟩ <;> cases h
  exact .refl s

theorem Within.update {f : State → State} {k : MoveKind} (hk : k ∈ ks) (hf : ∀ s, Move k s (f s)) :
    Engine.Within ks (modify f : Engine PUnit) := by
  refine fun s => ⟨fun b u h => ?_, fun r u h => ?_⟩ <;> cases h
  exact .one hk (hf s)

theorem Within.ite {c : Prop} [Decidable c] {m n : Engine α} (hm : Engine.Within ks m) (hn : Engine.Within ks n) :
    Engine.Within ks (if c then m else n) := by
  split <;> assumption

theorem Within.forFrom {body : Nat → Engine Unit} (hb : ∀ i, Engine.Within ks (body i)) :
    ∀ n i, Engine.Within ks (forFrom body n i)
  | 0, _ => Within.pure ()
  | n + 1, i => Within.bind (hb i) fun _ => Within.forFrom hb n (i + 1)

theorem Within.forUpTo {body : Nat → Engine Unit} (n : Nat) (hb : ∀ i, Engine.Within ks (body i)) :
    Engine.Within ks (forUpTo n body) := Within.forFrom hb n 0

/-! ## The shared operations -/

theorem within_seq (h : MoveKind.seq ∈ ks) {q : Seq} (hq : q ≠ .idle ∧ q ≠ .done ∧ q ≠ .fail) :
    Engine.Within ks (setSeq q) := Within.update h fun s => .seq s q hq

theorem within_carrierRead (h : MoveKind.carrier ∈ ks) : Engine.Within ks carrierRead := by
  intro s
  obtain ⟨b, rest, hi, e⟩ | ⟨rest, hi, e⟩ | ⟨hi, e⟩ := carrierRead_cases s <;>
    refine ⟨fun a t ha => ?_, fun r t ha => ?_⟩ <;> rw [e] at ha <;> cases ha
  · exact .one h (.carrier s b rest hi)
  · exact .one h (.carrierErr s rest hi)
  · exact .refl s

theorem within_sourceRead {p : InId} (hp : p ≠ .cin) (h : p.moveKind ∈ ks) : Engine.Within ks (sourceRead p) := by
  intro s
  obtain ⟨b, rest, hi, e⟩ | ⟨rest, hi, e⟩ | ⟨hi, e⟩ := sourceRead_cases p s <;>
    refine ⟨fun a t ha => ?_, fun r t ha => ?_⟩ <;> rw [e] at ha <;> cases ha
  · exact .one h (.source s p hp _ rest hi)
  · exact .one h (.source s p hp _ rest hi)
  · exact .refl s

theorem within_stegoWrite (h : MoveKind.stego ∈ ks) (b : Byte) : Engine.Within ks (stegoWrite b) := by
  intro s
  obtain ⟨hi, e⟩ | ⟨hi, e⟩ := stegoWrite_cases b s <;>
    refine ⟨fun a t ha => ?_, fun r t ha => ?_⟩ <;> rw [e] at ha <;> cases ha
  · exact .one h (.stego s b hi)
  · exact .one h (.stegoMiss s hi)

theorem within_sinkWrite {p : OutId} (hp : p ≠ .sout) (h : p.moveKind ∈ ks) (b : Byte) :
    Engine.Within ks (sinkWrite p b) := by
  intro s
  obtain ⟨hi, e⟩ | ⟨hi, e⟩ := sinkWrite_cases p b s <;>
    refine ⟨fun a t ha => ?_, fun r t ha => ?_⟩ <;> rw [e] at ha <;> cases ha
  · exact .one h (.sink s p hp b hi)
  · exact .one h (.sinkMiss s p hp hi)

theorem within_readHeader (hc : MoveKind.carrier ∈ ks) (hh : MoveKind.hidden ∈ ks) (hd : MoveKind.hdr ∈ ks) :
    Engine.Within ks readHeader :=
  Within.forUpTo _ fun i => Within.bind (Within.update hh fun s => .hidden s _) fun _ =>
    Within.bind (within_carrierRead hc) fun b => Within.update hd fun s => .hdr s i b

theorem within_packBits {w : Nat} (v : BitVec w) (hc : MoveKind.carrier ∈ ks) (hh : MoveKind.hidden ∈ ks)
    (ho : MoveKind.stego ∈ ks) : Engine.Within ks (packBits v) :=
  Within.forUpTo _ fun _ => Within.bind (Within.update hh fun s => .hidden s _) fun _ =>
    Within.bind (within_carrierRead hc) fun _ => within_stegoWrite ho _

theorem within_unpackBits (w : Nat) (hc : MoveKind.carrier ∈ ks) (hh : MoveKind.hidden ∈ ks) :
    Engine.Within ks (unpackBits w) :=
  Within.bind (Within.update hh fun s => .hidden s _) fun _ =>
    Within.bind (Within.forUpTo _ fun _ => Within.bind (Within.update hh fun s => .hidden s _) fun _ =>
      Within.bind (within_carrierRead hc) fun _ => Within.update hh fun s => .hidden s _) fun _ =>
    Within.bind Within.get fun s => Within.pure s.hidden.acc

theorem within_unpackByte (hc : MoveKind.carrier ∈ ks) (hh : MoveKind.hidden ∈ ks) : Engine.Within ks unpackByte :=
  Within.bind (within_unpackBits 8 hc hh) fun acc => Within.pure (acc.extractLsb' 0 8)

theorem within_emitHeader (hh : MoveKind.hidden ∈ ks) (ho : MoveKind.stego ∈ ks) : Engine.Within ks emitHeader :=
  Within.forUpTo _ fun _ => Within.bind (Within.update hh fun s => .hidden s _) fun _ =>
    Within.bind Within.get fun _ => within_stegoWrite ho _

theorem within_copyN (n : Nat) (hc : MoveKind.carrier ∈ ks) (hh : MoveKind.hidden ∈ ks) (ho : MoveKind.stego ∈ ks) :
    Engine.Within ks (copyN n) :=
  Within.forUpTo _ fun _ => Within.bind (Within.update hh fun s => .hidden s _) fun _ =>
    Within.bind (within_carrierRead hc) fun _ => within_stegoWrite ho _

/-- One turn of `CopyRest()`: EOS ends it, ERR raises, a byte is counted, copied, and followed by the next turn (R234). -/
theorem copyRestWithin_cases (n : Nat) (s : State) :
    (s.cin.items = [] ∧ copyRestWithin (n + 1) s = .ok () s) ∨
      (∃ rest, s.cin.items = .err :: rest ∧ copyRestWithin (n + 1) s =
        .error ⟨.ioFailure, some .cin⟩ (s.withIn .cin { s.cin with items := rest })) ∨
      ∃ b rest, s.cin.items = .byte b :: rest ∧ copyRestWithin (n + 1) s =
        (stegoWrite b >>= fun _ => copyRestWithin n) ((s.withIn .cin { s.cin with items := rest }).countCarrier) := by
  obtain ⟨b, rest, h, e⟩ | ⟨rest, h, e⟩ | ⟨h, e⟩ := readPort_cases .cin s
  · exact .inr (.inr ⟨b, rest, h, by rw [copyRestWithin, Engine.bind_ok e]; rfl⟩)
  · exact .inr (.inl ⟨rest, h, by rw [copyRestWithin, Engine.bind_ok e]; rfl⟩)
  · exact .inl ⟨h, by rw [copyRestWithin, Engine.bind_ok e]; rfl⟩

theorem within_copyRestWithin (hc : MoveKind.carrier ∈ ks) (ho : MoveKind.stego ∈ ks) :
    ∀ n, Engine.Within ks (copyRestWithin n)
  | 0 => Within.pure ()
  | n + 1 => by
    intro s
    obtain ⟨-, e⟩ | ⟨rest, hi, e⟩ | ⟨b, rest, hi, e⟩ := copyRestWithin_cases n s
    · rw [e]
      exact Within.pure () s
    · rw [e]
      refine ⟨fun a t ha => ?_, fun r t ha => ?_⟩ <;> cases ha
      exact .one hc (.carrierErr s rest hi)
    · rw [e]
      have h1 : Path ks s ((s.withIn .cin { s.cin with items := rest }).countCarrier) := .one hc (.carrier s b rest hi)
      have h2 := Within.bind (within_stegoWrite ho b) (fun _ => within_copyRestWithin hc ho n)
        ((s.withIn .cin { s.cin with items := rest }).countCarrier)
      exact ⟨fun a t ha => h1.trans (h2.1 a t ha), fun r t ha => h1.trans (h2.2 r t ha)⟩

theorem within_copyRest (hc : MoveKind.carrier ∈ ks) (ho : MoveKind.stego ∈ ks) : Engine.Within ks copyRest :=
  Within.bind Within.get fun _ => within_copyRestWithin hc ho _

theorem within_skipN (n : Nat) (hc : MoveKind.carrier ∈ ks) (hh : MoveKind.hidden ∈ ks) : Engine.Within ks (skipN n) :=
  Within.forUpTo _ fun _ => Within.bind (Within.update hh fun s => .hidden s _) fun _ =>
    Within.bind (within_carrierRead hc) fun _ => Within.pure ()

theorem within_checkCapacity (h : MoveKind.check ∈ ks) : Engine.Within ks checkCapacity := by
  refine fun s => ⟨fun a t ha => ?_, fun r t ha => ?_⟩ <;> cases ha
  exact .one h (.check s)

/-! ## The commands -/

/-- The kinds of move each command makes (R94, R98). -/
def moveKinds : Instr → List MoveKind
  | .loadhdr => [.seq, .hidden, .carrier, .hdr]
  | .capest => [.seq, .estimate]
  | .chkcap => [.seq, .check]
  | .packb => [.seq, .hidden, .carrier, .stego]
  | .packw => [.seq, .hidden, .carrier, .stego]
  | .unpackb => [.seq, .hidden, .carrier, .result]
  | .unpackw => [.seq, .hidden, .carrier, .result]
  | .encode => [.seq, .hidden, .carrier, .hdr, .estimate, .check, .stego, .pin, .ein]
  | .decode => [.seq, .hidden, .carrier, .hdr, .decoded, .pout, .eout]
  | .emithdr => [.seq, .hidden, .stego]
  | .copy => [.seq, .hidden, .carrier, .stego]
  | .copyrest => [.seq, .carrier, .stego]
  | .skip => [.seq, .hidden, .carrier]

/-- The part of a command that its meaning runs after validation. -/
def bodyOf : Instr → Engine Unit
  | .loadhdr => do setSeq .prim; readHeader
  | .capest => do setSeq .prim; estimate
  | .chkcap => do setSeq .prim; let _ ← checkCapacity
  | .packb => do setSeq .prim; packByte (argByte (← get))
  | .packw => do setSeq .prim; packInt32 (argWord (← get))
  | .unpackb => do
    setSeq .prim
    let b ← unpackByte
    modify fun t => { t with result := b.setWidth 32 }
  | .unpackw => do
    setSeq .prim
    let v ← unpackInt32
    modify fun t => { t with result := v }
  | .encode => encodeBody
  | .decode => decodeBody
  | .emithdr => do setSeq .prim; emitHeader
  | .copy => do setSeq .prim; copyN (argCount (← get))
  | .copyrest => do setSeq .prim; copyRest
  | .skip => do setSeq .prim; skipN (argCount (← get))

/-- Every meaning is the one shape of R95 around the command's own body. -/
theorem exec_eq (i : Instr) (s : State) : exec i s = runCommand i (bodyOf i) s := by cases i <;> rfl

theorem within_encodeBody : Engine.Within (moveKinds .encode) encodeBody := by
  have seq : ∀ q : Seq, q ≠ .idle ∧ q ≠ .done ∧ q ≠ .fail → Engine.Within (moveKinds .encode) (setSeq q) :=
    fun q hq => within_seq (by decide) hq
  have idx : ∀ i : Nat, Engine.Within (moveKinds .encode) (modify (·.withIdx i) : Engine PUnit) :=
    fun i => Within.update (k := .hidden) (by decide) fun s => .hidden s _
  have pack : ∀ {w : Nat} (v : BitVec w), Engine.Within (moveKinds .encode) (packBits v) :=
    fun v => within_packBits v (by decide) (by decide) (by decide)
  have check : Engine.Within (moveKinds .encode) capCheck :=
    Within.bind (Within.update (k := .estimate) (by decide) fun s => .estimate s) fun _ =>
      Within.bind (within_checkCapacity (by decide)) fun b => Within.ite (Within.raise _ _) (Within.pure _)
  have marker : Engine.Within (moveKinds .encode) packMarker :=
    Within.bind Within.get fun _ => Within.forUpTo _ fun i => Within.bind (idx i) fun _ =>
      Within.bind Within.get fun _ => pack _
  have ext : Engine.Within (moveKinds .encode) packExt :=
    Within.bind Within.get fun _ => Within.forUpTo _ fun i => Within.bind (idx i) fun _ =>
      Within.bind (within_sourceRead (by decide) (by decide)) fun b => pack b
  have payload : Engine.Within (moveKinds .encode) packPayload :=
    Within.bind Within.get fun _ => Within.forUpTo _ fun i => Within.bind (idx i) fun _ =>
      Within.bind (within_sourceRead (by decide) (by decide)) fun b => pack b
  refine Within.bind (seq .header (by decide)) fun _ =>
    Within.bind (within_readHeader (by decide) (by decide) (by decide)) fun _ =>
    Within.bind (seq .capcheck (by decide)) fun _ => Within.bind check fun _ =>
    Within.bind (seq .hdrcopy (by decide)) fun _ => Within.bind (within_emitHeader (by decide) (by decide)) fun _ =>
    Within.bind (seq .marker (by decide)) fun _ => Within.bind marker fun _ =>
    Within.bind (seq .extlen (by decide)) fun _ => Within.bind Within.get fun s => Within.bind (pack s.elen) fun _ =>
    Within.bind (seq .ext (by decide)) fun _ => Within.bind ext fun _ =>
    Within.bind (seq .paylen (by decide)) fun _ => Within.bind Within.get fun s => Within.bind (pack s.plen) fun _ =>
    Within.bind (seq .payload (by decide)) fun _ => Within.bind payload fun _ =>
    Within.bind (seq .trailer (by decide)) fun _ => within_copyRest (by decide) (by decide)

theorem within_decodeBody : Engine.Within (moveKinds .decode) decodeBody := by
  have seq : ∀ q : Seq, q ≠ .idle ∧ q ≠ .done ∧ q ≠ .fail → Engine.Within (moveKinds .decode) (setSeq q) :=
    fun q hq => within_seq (by decide) hq
  have idx : ∀ i : Nat, Engine.Within (moveKinds .decode) (modify (·.withIdx i) : Engine PUnit) :=
    fun i => Within.update (k := .hidden) (by decide) fun s => .hidden s _
  have byte : Engine.Within (moveKinds .decode) unpackByte := within_unpackByte (by decide) (by decide)
  have word : Engine.Within (moveKinds .decode) unpackInt32 := within_unpackBits 32 (by decide) (by decide)
  have unpackM : Engine.Within (moveKinds .decode) unpackMarker :=
    Within.bind Within.get fun _ => Within.forUpTo _ fun i => Within.bind (idx i) fun _ =>
      Within.bind byte fun b => Within.update (k := .hidden) (by decide) fun s => .hidden s _
  have compareM : Engine.Within (moveKinds .decode) compareMarker :=
    Within.bind Within.get fun _ => Within.forUpTo _ fun i => Within.bind (idx i) fun _ =>
      Within.bind Within.get fun _ => Within.ite (Within.raise _ _) (Within.pure _)
  have sink : ∀ (p : OutId), p ≠ .sout → p.moveKind ∈ moveKinds .decode → ∀ n : Nat,
      Engine.Within (moveKinds .decode) (forUpTo n fun i => do modify (·.withIdx i); let b ← unpackByte; sinkWrite p b) :=
    fun p hp hk n => Within.forUpTo n fun i => Within.bind (idx i) fun _ => Within.bind byte fun b => within_sinkWrite hp hk b
  refine Within.bind (Within.update (k := .decoded) (by decide) fun s => .decoded s 0 0) fun _ =>
    Within.bind (seq .header (by decide)) fun _ =>
    Within.bind (within_readHeader (by decide) (by decide) (by decide)) fun _ =>
    Within.bind (seq .marker (by decide)) fun _ => Within.bind unpackM fun _ => Within.bind compareM fun _ =>
    Within.bind (seq .extlen (by decide)) fun _ =>
    Within.bind (Within.bind word fun e => Within.update (k := .decoded) (by decide) fun s => .decoded s e s.rxPlen) fun _ =>
    Within.bind (seq .ext (by decide)) fun _ => Within.bind (Within.bind Within.get fun _ => sink .eout (by decide) (by decide) _) fun _ =>
    Within.bind (seq .paylen (by decide)) fun _ =>
    Within.bind (Within.bind word fun p => Within.update (k := .decoded) (by decide) fun s => .decoded s s.rxElen p) fun _ =>
    Within.bind (seq .payload (by decide)) fun _ => Within.bind Within.get fun _ => sink .pout (by decide) (by decide) _

/-- Every command makes only moves of its own kinds. -/
theorem within_bodyOf (i : Instr) : Engine.Within (moveKinds i) (bodyOf i) := by
  have prim : ∀ j : Instr, MoveKind.seq ∈ moveKinds j → Engine.Within (moveKinds j) (setSeq .prim) :=
    fun j h => within_seq h (by decide)
  cases i with
  | loadhdr => exact Within.bind (prim _ (by decide)) fun _ => within_readHeader (by decide) (by decide) (by decide)
  | capest => exact Within.bind (prim _ (by decide)) fun _ => Within.update (k := .estimate) (by decide) fun s => .estimate s
  | chkcap =>
    exact Within.bind (prim _ (by decide)) fun _ => Within.bind (within_checkCapacity (by decide)) fun _ => Within.pure _
  | packb =>
    exact Within.bind (prim _ (by decide)) fun _ => Within.bind Within.get fun s =>
      within_packBits (argByte s) (by decide) (by decide) (by decide)
  | packw =>
    exact Within.bind (prim _ (by decide)) fun _ => Within.bind Within.get fun s =>
      within_packBits (argWord s) (by decide) (by decide) (by decide)
  | unpackb =>
    exact Within.bind (prim _ (by decide)) fun _ => Within.bind (within_unpackByte (by decide) (by decide)) fun b =>
      Within.update (k := .result) (by decide) fun s => .result s _
  | unpackw =>
    exact Within.bind (prim _ (by decide)) fun _ => Within.bind (within_unpackBits 32 (by decide) (by decide)) fun b =>
      Within.update (k := .result) (by decide) fun s => .result s _
  | encode => exact within_encodeBody
  | decode => exact within_decodeBody
  | emithdr => exact Within.bind (prim _ (by decide)) fun _ => within_emitHeader (by decide) (by decide)
  | copy =>
    exact Within.bind (prim _ (by decide)) fun _ => Within.bind Within.get fun s =>
      within_copyN (argCount s) (by decide) (by decide) (by decide)
  | copyrest => exact Within.bind (prim _ (by decide)) fun _ => within_copyRest (by decide) (by decide)
  | skip =>
    exact Within.bind (prim _ (by decide)) fun _ => Within.bind Within.get fun s =>
      within_skipN (argCount s) (by decide) (by decide)

/-- ALL THAT A COMMAND CAN DO: from its start (R95) it makes moves of its own kinds, and then it completes, or it takes
one error. -/
theorem exec_path {i : Instr} {s t : State} (h : exec i s = .next t) :
    ∃ u, Path (moveKinds i) (s.start (encode i)) u ∧ (t = u.finish ∨ ∃ r, t = u.raise r) := by
  rw [exec_eq] at h
  obtain ⟨r, -, e⟩ | ⟨-, ⟨r, u, hb, e⟩ | ⟨u, hb, e⟩⟩ := runCommand_cases i (bodyOf i) s <;> rw [e] at h <;> cases h
  · exact ⟨_, .refl _, .inr ⟨r, rfl⟩⟩
  · exact ⟨u, ((within_bodyOf i) _).2 r u hb, .inr ⟨r, rfl⟩⟩
  · exact ⟨u, ((within_bodyOf i) _).1 () u hb, .inl rfl⟩

/-- Every command ends with a next state: none is refused and none faults (R271). -/
theorem exec_next (i : Instr) (s : State) : ∃ t, exec i s = .next t := by
  rw [exec_eq]
  exact ⟨_, rfl⟩

end Sys2Proof.Machine
end

