-- ==== Sys2Proof/Laws/Runs.lean ====
section
/-! SUPPORT. Laws/Runs.lean: what the procedures of the spec do when nothing stands in their way, one lemma per procedure:
how many carrier bytes they take, what they write, what they leave. -/

namespace Sys2Proof.Machine

/-! ## Accumulated moves -/

/-- `n` carrier bytes read, `rest` left on CIN. -/
def State.readTo (s : State) (rest : List Item) (n : Nat) : State :=
  { s with cin := { s.cin with items := rest }, ccnt := s.ccnt + BitVec.ofNat 64 n }

/-- The bytes `out` written to SOUT. -/
def State.stegoOut (s : State) (out : List Byte) : State :=
  { s with
    sout := { s.sout with data := s.sout.data ++ out, attempts := s.sout.attempts + out.length }
    ocnt := s.ocnt + BitVec.ofNat 64 out.length }

/-- Another hidden state. -/
def State.withHidden (s : State) (h : Hidden) : State := { s with hidden := h }

section normal
variable (s : State) (h h' : Hidden) (rest rest' : List Item) (n n' : Nat) (out out' : List Byte) (q : Seq)

@[simp] theorem State.withHidden_withHidden : (s.withHidden h).withHidden h' = s.withHidden h' := rfl
@[simp] theorem State.withHidden_readTo : (s.withHidden h).readTo rest n = (s.readTo rest n).withHidden h := rfl
@[simp] theorem State.withHidden_stegoOut : (s.withHidden h).stegoOut out = (s.stegoOut out).withHidden h := rfl
@[simp] theorem State.stegoOut_readTo : (s.stegoOut out).readTo rest n = (s.readTo rest n).stegoOut out := rfl
@[simp] theorem State.readTo_readTo : (s.readTo rest n).readTo rest' n' = s.readTo rest' (n + n') := by
  simp [State.readTo, BitVec.ofNat_add, add_assoc]
@[simp] theorem State.stegoOut_stegoOut : (s.stegoOut out).stegoOut out' = s.stegoOut (out ++ out') := by
  simp [State.stegoOut, BitVec.ofNat_add, add_assoc]
@[simp] theorem State.withHidden_withSeq : (s.withHidden h).withSeq q = (s.withSeq q).withHidden h := rfl
@[simp] theorem State.readTo_withSeq : (s.readTo rest n).withSeq q = (s.withSeq q).readTo rest n := rfl
@[simp] theorem State.stegoOut_withSeq : (s.stegoOut out).withSeq q = (s.withSeq q).stegoOut out := rfl
@[simp] theorem State.withIdx_eq (i : Nat) : s.withIdx i = s.withHidden { s.hidden with idx := BitVec.ofNat 33 i } := rfl
@[simp] theorem State.withBit_eq (i : Nat) : s.withBit i = s.withHidden { s.hidden with bit := BitVec.ofNat 5 i } := rfl
@[simp] theorem State.withAcc_eq (v : Word) : s.withAcc v = s.withHidden { s.hidden with acc := v } := rfl
@[simp] theorem State.withHidden_cin : (s.withHidden h).cin = s.cin := rfl
@[simp] theorem State.withHidden_sout : (s.withHidden h).sout = s.sout := rfl
@[simp] theorem State.withHidden_hidden : (s.withHidden h).hidden = h := rfl
@[simp] theorem State.readTo_sout : (s.readTo rest n).sout = s.sout := rfl
@[simp] theorem State.readTo_hidden : (s.readTo rest n).hidden = s.hidden := rfl
@[simp] theorem State.stegoOut_hidden : (s.stegoOut out).hidden = s.hidden := rfl
@[simp] theorem State.stegoOut_cin : (s.stegoOut out).cin = s.cin := rfl
@[simp] theorem State.readTo_items : (s.readTo rest n).cin.items = rest := rfl
@[simp] theorem State.stegoOut_attempts : (s.stegoOut out).sout.attempts = s.sout.attempts + out.length := rfl
@[simp] theorem State.stegoOut_fails : (s.stegoOut out).sout.fails = s.sout.fails := rfl
@[simp] theorem State.readTo_zero : s.readTo s.cin.items 0 = s := by simp [State.readTo]
@[simp] theorem State.stegoOut_nil : s.stegoOut [] = s := by simp [State.stegoOut]
@[simp] theorem State.withHidden_self : s.withHidden s.hidden = s := rfl

end normal

/-! ## One transfer -/

theorem carrierRead_readTo {s : State} {c : Byte} {rest : List Item} (h : s.cin.items = .byte c :: rest) :
    carrierRead s = .ok c (s.readTo rest 1) := carrierRead_byte h

theorem stegoWrite_stegoOut {s : State} (b : Byte) (h : s.sout.attempts ∉ s.sout.fails) :
    stegoWrite b s = .ok () (s.stegoOut [b]) := stegoWrite_ok b h

/-- `c | 1` or `c & 0xFE` is `(c & 0xFE) | bit` (R75, R132). -/
theorem withLsb_eq (c : Byte) (b : Bool) : withLsb c b = stegoByte c b := by
  revert c b
  decide

theorem packBit_ok {s : State} (b : Bool) {c : Byte} {rest : List Item} (h : s.cin.items = .byte c :: rest)
    (hf : s.sout.attempts ∉ s.sout.fails) : packBit b s = .ok () ((s.readTo rest 1).stegoOut [stegoByte c b]) := by
  rw [packBit, Engine.bind_ok (carrierRead_readTo h), stegoWrite_stegoOut _ (by simpa using hf), withLsb_eq]

/-! ## The Bit Packer -/

@[simp] theorem bitsOf_length {w : Nat} (v : BitVec w) : (bitsOf v).length = w := by simp [bitsOf]

theorem bitsOf_getElem {w : Nat} (v : BitVec w) (i : Nat) (h : i < (bitsOf v).length) : (bitsOf v)[i] = msbFirst v i := by
  simp [bitsOf, msbFirst]

@[simp] theorem asItems_cons (c : Byte) (cs : List Byte) : asItems (c :: cs) = .byte c :: asItems cs := rfl
@[simp] theorem asItems_nil : asItems [] = [] := rfl
@[simp] theorem asItems_append (cs ds : List Byte) : asItems (cs ++ ds) = asItems cs ++ asItems ds := by simp [asItems]

theorem asItems_drop {cs : List Byte} {i : Nat} (h : i < cs.length) (rest : List Item) :
    asItems (cs.drop i) ++ rest = .byte cs[i] :: (asItems (cs.drop (i + 1)) ++ rest) := by
  rw [List.drop_eq_getElem_cons h]; rfl

@[simp] theorem embed_length (cs : List Byte) (bits : List Bool) : (embed cs bits).length = min cs.length bits.length := by
  simp [embed]

theorem embed_take_succ {cs : List Byte} {bits : List Bool} {i : Nat} (h1 : i < cs.length) (h2 : i < bits.length) :
    (embed cs bits).take (i + 1) = (embed cs bits).take i ++ [stegoByte cs[i] bits[i]] := by
  rw [List.take_succ_eq_append_getElem (by simp; omega)]
  simp [embed]

/-- `PackByte` and `PackInt32` when nothing fails (R130, R132, R133). -/
theorem packBits_ok {w : Nat} (v : BitVec w) {s : State} {cs : List Byte} {rest : List Item} (hlen : cs.length = w)
    (hi : s.cin.items = asItems cs ++ rest) (hf : ∀ k, k < w → s.sout.attempts + k ∉ s.sout.fails) :
    ∃ h, packBits v s = .ok () (((s.readTo rest w).stegoOut (embed cs (bitsOf v))).withHidden h) := by
  obtain ⟨u, hu, h, rfl⟩ := forUpTo_ok (n := w) (s := s)
    (body := fun i => do modify (·.withBit i); packBit (msbFirst v i))
    (P := fun i t => ∃ h, t = ((s.readTo (asItems (cs.drop i) ++ rest) i).stegoOut ((embed cs (bitsOf v)).take i)).withHidden h)
    (fun j t hj ht => by
      obtain ⟨h, rfl⟩ := ht
      have hc : j < cs.length := by omega
      refine ⟨_, ?_, { h with bit := BitVec.ofNat 5 j }, rfl⟩
      rw [Engine.modify_bind, State.withBit_eq, State.withHidden_withHidden,
        packBit_ok (c := cs[j]) (rest := asItems (cs.drop (j + 1)) ++ rest) _ (by simp [asItems_drop hc])
          (by simpa [hlen, Nat.min_eq_left hj.le] using hf j hj)]
      rw [embed_take_succ hc (by simpa using hj)]
      simp [bitsOf_getElem])
    ⟨s.hidden, by simp [← hi]⟩
  refine ⟨h, ?_⟩
  rw [packBits, hu]
  simp [List.take_of_length_le, hlen, List.drop_of_length_le]

/-- A pack whose carrier ends or faults at bit `k`: `k` bytes read and written (R135). -/
theorem packBits_carrier_stop {w : Nat} (v : BitVec w) {s : State} {cs : List Byte} {rest : List Item} (hlen : cs.length < w)
    (hi : s.cin.items = asItems cs ++ rest) (hr : ∀ b l, rest ≠ .byte b :: l)
    (hf : ∀ k, k < cs.length → s.sout.attempts + k ∉ s.sout.fails) :
    ∃ h, packBits v s = .error ⟨if rest = [] then .unexpectedEndOfCarrier else .ioFailure, some .cin⟩
      (((s.readTo rest.tail cs.length).stegoOut (embed cs (bitsOf v))).withHidden h) := by
  obtain ⟨r, u, hu, rfl, h, rfl⟩ := forUpTo_error (n := w) (k := cs.length) (s := s)
    (body := fun i => do modify (·.withBit i); packBit (msbFirst v i))
    (P := fun i t => ∃ h, t = ((s.readTo (asItems (cs.drop i) ++ rest) i).stegoOut ((embed cs (bitsOf v)).take i)).withHidden h)
    (Q := fun r u => r = ⟨if rest = [] then .unexpectedEndOfCarrier else .ioFailure, some .cin⟩ ∧
      ∃ h, u = ((s.readTo rest.tail cs.length).stegoOut (embed cs (bitsOf v))).withHidden h)
    hlen
    (fun j t hj ht => by
      obtain ⟨h, rfl⟩ := ht
      refine ⟨_, ?_, { h with bit := BitVec.ofNat 5 j }, rfl⟩
      rw [Engine.modify_bind, State.withBit_eq, State.withHidden_withHidden,
        packBit_ok (c := cs[j]) (rest := asItems (cs.drop (j + 1)) ++ rest) _ (by simp [asItems_drop hj])
          (by
            have := hf j hj
            rw [State.withHidden_sout, State.stegoOut_attempts, State.stegoOut_fails]
            simpa [show min j (min cs.length w) = j by omega] using this)]
      rw [embed_take_succ hj (by simp; omega)]
      simp [bitsOf_getElem])
    (fun t ht => by
      obtain ⟨h, rfl⟩ := ht
      simp only [Engine.modify_bind, State.withBit_eq, State.withHidden_withHidden, packBit]
      cases rest with
      | nil =>
        rw [Engine.bind_error (carrierRead_eos (by simp [List.drop_of_length_le]))]
        refine ⟨_, _, rfl, by simp, { h with bit := BitVec.ofNat 5 cs.length }, ?_⟩
        simp [List.take_of_length_le, List.drop_of_length_le, hlen.le]
      | cons i l =>
        cases i with
        | byte b => exact absurd rfl (hr b l)
        | err =>
          rw [Engine.bind_error (carrierRead_err (rest := l) (by simp [List.drop_of_length_le]))]
          refine ⟨_, _, rfl, by simp, { h with bit := BitVec.ofNat 5 cs.length }, ?_⟩
          simp [List.take_of_length_le, hlen.le]
          rfl)
    ⟨s.hidden, by simp [← hi]⟩
  exact ⟨h, hu⟩

/-- A pack whose `k`-th stego write fails: `k + 1` bytes read, `k` written (R135). -/
theorem packBits_write_stop {w k : Nat} (v : BitVec w) {s : State} {cs : List Byte} {rest : List Item} (hk : k < w)
    (hlen : cs.length = k + 1) (hi : s.cin.items = asItems cs ++ rest)
    (hf : ∀ j, j < k → s.sout.attempts + j ∉ s.sout.fails) (hk' : s.sout.attempts + k ∈ s.sout.fails) :
    ∃ h t, packBits v s = .error ⟨.ioFailure, some .sout⟩ t ∧
      t = { ((s.readTo rest (k + 1)).stegoOut ((embed cs (bitsOf v)).take k)).withHidden h with
        sout := ((s.stegoOut ((embed cs (bitsOf v)).take k)).sout).missed } := by
  obtain ⟨r, u, hu, rfl, h, rfl⟩ := forUpTo_error (n := w) (k := k) (s := s)
    (body := fun i => do modify (·.withBit i); packBit (msbFirst v i))
    (P := fun i t => ∃ h, t = ((s.readTo (asItems (cs.drop i) ++ rest) i).stegoOut ((embed cs (bitsOf v)).take i)).withHidden h)
    (Q := fun r u => r = ⟨.ioFailure, some .sout⟩ ∧
      ∃ h, u = { ((s.readTo rest (k + 1)).stegoOut ((embed cs (bitsOf v)).take k)).withHidden h with
        sout := ((s.stegoOut ((embed cs (bitsOf v)).take k)).sout).missed })
    hk
    (fun j t hj ht => by
      obtain ⟨h, rfl⟩ := ht
      have hc : j < cs.length := by omega
      refine ⟨_, ?_, { h with bit := BitVec.ofNat 5 j }, rfl⟩
      rw [Engine.modify_bind, State.withBit_eq, State.withHidden_withHidden,
        packBit_ok (c := cs[j]) (rest := asItems (cs.drop (j + 1)) ++ rest) _ (by simp [asItems_drop hc])
          (by
            have := hf j hj
            rw [State.withHidden_sout, State.stegoOut_attempts, State.stegoOut_fails]
            simpa [show min j (min cs.length w) = j by omega] using this)]
      rw [embed_take_succ hc (by simp; omega)]
      simp [bitsOf_getElem])
    (fun t ht => by
      obtain ⟨h, rfl⟩ := ht
      have hc : k < cs.length := by omega
      simp only [Engine.modify_bind, State.withBit_eq, State.withHidden_withHidden, packBit]
      rw [Engine.bind_ok (carrierRead_readTo (c := cs[k]) (rest := asItems (cs.drop (k + 1)) ++ rest) (by simp [asItems_drop hc])),
        stegoWrite_fail _ (by
          simp only [State.readTo_sout, State.withHidden_sout, State.stegoOut_attempts, State.stegoOut_fails]
          simpa [show min k (min cs.length w) = k by omega] using hk')]
      refine ⟨_, _, rfl, rfl, { h with bit := BitVec.ofNat 5 k }, ?_⟩
      simp [List.drop_of_length_le, hlen.le]
      rfl)
    ⟨s.hidden, by simp [← hi]⟩
  exact ⟨h, _, hu, rfl⟩

/-! ## The Bit Unpacker -/

@[simp] theorem numberOf_nil : numberOf [] = 0 := rfl

theorem numberOf_append (l : List Bool) (b : Bool) : numberOf (l ++ [b]) = 2 * numberOf l + b.toNat := by
  simp [numberOf]

theorem numberOf_lt (l : List Bool) : numberOf l < 2 ^ l.length := by
  induction l using List.reverseRecOn with
  | nil => simp
  | append_singleton l b ih =>
    rw [numberOf_append, List.length_append, List.length_singleton, Nat.pow_succ]
    have : b.toNat ≤ 1 := Bool.toNat_le b
    omega

theorem lsb_toNat (c : Byte) : (c &&& 0x01).toNat = (c.getLsbD 0).toNat := by
  revert c
  decide

/-- One turn of the accumulator (R150, R153) when no bit is shifted out. -/
theorem shiftIn_toNat {w n : Nat} (hw : w ≤ 32) (hn : 2 * n + 1 < 2 ^ w) (c : Byte) :
    shiftIn w (BitVec.ofNat 32 n) c = BitVec.ofNat 32 (2 * n + (c.getLsbD 0).toNat) := by
  have h32 : (2 : Nat) ^ w ≤ 2 ^ 32 := Nat.pow_le_pow_right (by omega) hw
  have hb : (c.getLsbD 0).toNat ≤ 1 := Bool.toNat_le _
  apply BitVec.eq_of_toNat_eq
  simp only [shiftIn, BitVec.toNat_setWidth, BitVec.toNat_or, BitVec.toNat_shiftLeft, BitVec.toNat_ofNat, lsb_toNat]
  rw [Nat.mod_eq_of_lt (a := n) (by omega), Nat.mod_eq_of_lt (a := (c.getLsbD 0).toNat) (by omega),
    Nat.mod_eq_of_lt (a := n <<< 1) (by rw [Nat.shiftLeft_eq]; omega),
    ← Nat.shiftLeft_add_eq_or_of_lt (by omega), Nat.shiftLeft_eq]
  rw [Nat.mod_eq_of_lt (a := n * 2 ^ 1 + _) (b := 2 ^ w) (by omega)]
  congr 1
  omega

theorem lsbs_take_succ {cs : List Byte} {i : Nat} (h : i < cs.length) :
    lsbs (cs.take (i + 1)) = lsbs (cs.take i) ++ [cs[i].getLsbD 0] := by
  rw [List.take_succ_eq_append_getElem h, lsbs, List.map_append]
  rfl

@[simp] theorem lsbs_length (cs : List Byte) : (lsbs cs).length = cs.length := by simp [lsbs]

theorem unpackLoop_turn {w j : Nat} (hw : w ≤ 32) (hj : j < w) {s : State} {cs : List Byte} {rest : List Item}
    (hc : j < cs.length) {h : Hidden} (hacc : h.acc = BitVec.ofNat 32 (numberOf (lsbs (cs.take j)))) :
    (do modify (·.withBit j); let c ← carrierRead; modify fun s => s.withAcc (shiftIn w s.hidden.acc c) : Engine PUnit)
        ((s.readTo (asItems (cs.drop j) ++ rest) j).withHidden h) =
      .ok () ((s.readTo (asItems (cs.drop (j + 1)) ++ rest) (j + 1)).withHidden
        { h with bit := BitVec.ofNat 5 j, acc := BitVec.ofNat 32 (numberOf (lsbs (cs.take (j + 1)))) }) := by
  have hlt : 2 * numberOf (lsbs (cs.take j)) + 1 < 2 ^ w := by
    have h1 := numberOf_lt (lsbs (cs.take j))
    rw [lsbs_length, List.length_take, Nat.min_eq_left hc.le] at h1
    have h2 : (2 : Nat) ^ (j + 1) ≤ 2 ^ w := Nat.pow_le_pow_right (by omega) hj
    rw [Nat.pow_succ] at h2
    omega
  rw [Engine.modify_bind, State.withBit_eq, State.withHidden_withHidden,
    Engine.bind_ok (carrierRead_readTo (c := cs[j]) (rest := asItems (cs.drop (j + 1)) ++ rest) (by simp [asItems_drop hc]))]
  simp [hacc, shiftIn_toNat hw hlt, lsbs_take_succ hc, numberOf_append]

/-- `UnpackByte` and `UnpackInt32` when the carrier holds out: the number the LSBs spell (R150, R153). RXM is kept. -/
theorem unpackBits_ok {w : Nat} (hw : w ≤ 32) {s : State} {cs : List Byte} {rest : List Item} (hlen : cs.length = w)
    (hi : s.cin.items = asItems cs ++ rest) :
    ∃ h, unpackBits w s = .ok (BitVec.ofNat 32 (numberOf (lsbs cs))) ((s.readTo rest w).withHidden h) ∧
      h.rxm = s.hidden.rxm := by
  obtain ⟨u, hu, h, rfl, hr, ha⟩ := forUpTo_ok (n := w) (s := s.withAcc 0)
    (body := fun i => do modify (·.withBit i); let c ← carrierRead; modify fun s => s.withAcc (shiftIn w s.hidden.acc c))
    (P := fun i t => ∃ h, t = (s.readTo (asItems (cs.drop i) ++ rest) i).withHidden h ∧ h.rxm = s.hidden.rxm ∧
      h.acc = BitVec.ofNat 32 (numberOf (lsbs (cs.take i))))
    (fun j t hj ht => by
      obtain ⟨h, rfl, hr, ha⟩ := ht
      exact ⟨_, unpackLoop_turn hw hj (by omega) ha, _, rfl, hr, rfl⟩)
    ⟨{ s.hidden with acc := 0 }, by simp [← hi], rfl, by simp [lsbs]⟩
  refine ⟨h, ?_, hr⟩
  rw [unpackBits, Engine.modify_bind, Engine.bind_ok hu]
  simp [ha, List.take_of_length_le, hlen.le, List.drop_of_length_le]

/-- An unpack whose carrier ends or faults at bit `k`: `k` bytes read, nothing else (R156). -/
theorem unpackBits_stop {w : Nat} (hw : w ≤ 32) {s : State} {cs : List Byte} {rest : List Item} (hlen : cs.length < w)
    (hi : s.cin.items = asItems cs ++ rest) (hr : ∀ b l, rest ≠ .byte b :: l) :
    ∃ h, unpackBits w s = .error ⟨if rest = [] then .unexpectedEndOfCarrier else .ioFailure, some .cin⟩
      ((s.readTo rest.tail cs.length).withHidden h) := by
  obtain ⟨r, u, hu, rfl, h, rfl⟩ := forUpTo_error (n := w) (k := cs.length) (s := s.withAcc 0)
    (body := fun i => do modify (·.withBit i); let c ← carrierRead; modify fun s => s.withAcc (shiftIn w s.hidden.acc c))
    (P := fun i t => ∃ h, t = (s.readTo (asItems (cs.drop i) ++ rest) i).withHidden h ∧
      h.acc = BitVec.ofNat 32 (numberOf (lsbs (cs.take i))))
    (Q := fun r u => r = ⟨if rest = [] then .unexpectedEndOfCarrier else .ioFailure, some .cin⟩ ∧
      ∃ h, u = (s.readTo rest.tail cs.length).withHidden h)
    hlen
    (fun j t hj ht => by
      obtain ⟨h, rfl, ha⟩ := ht
      exact ⟨_, unpackLoop_turn hw (by omega) hj ha, _, rfl, rfl⟩)
    (fun t ht => by
      obtain ⟨h, rfl, -⟩ := ht
      simp only [Engine.modify_bind, State.withBit_eq, State.withHidden_withHidden]
      cases rest with
      | nil =>
        rw [Engine.bind_error (carrierRead_eos (by simp [List.drop_of_length_le]))]
        exact ⟨_, _, rfl, by simp, { h with bit := BitVec.ofNat 5 cs.length }, by simp [List.drop_of_length_le]⟩
      | cons i l =>
        cases i with
        | byte b => exact absurd rfl (hr b l)
        | err =>
          rw [Engine.bind_error (carrierRead_err (rest := l) (by simp [List.drop_of_length_le]))]
          refine ⟨_, _, rfl, by simp, { h with bit := BitVec.ofNat 5 cs.length }, ?_⟩
          simp
          rfl)
    ⟨{ s.hidden with acc := 0 }, by simp [← hi], by simp [lsbs]⟩
  refine ⟨h, ?_⟩
  rw [unpackBits, Engine.modify_bind, Engine.bind_error hu]

/-! ## The header and the passthrough -/

/-- Another content of HDR. -/
def State.withHdr (s : State) (g : Vector Byte Config.hdrLen) : State := { s with hdr := g }

@[simp] theorem State.withHdr_withHdr (s : State) (g g' : Vector Byte Config.hdrLen) :
    (s.withHdr g).withHdr g' = s.withHdr g' := rfl
@[simp] theorem State.withHidden_withHdr (s : State) (h : Hidden) (g : Vector Byte Config.hdrLen) :
    (s.withHidden h).withHdr g = (s.withHdr g).withHidden h := rfl
@[simp] theorem State.withHdr_readTo (s : State) (g : Vector Byte Config.hdrLen) (rest : List Item) (n : Nat) :
    (s.withHdr g).readTo rest n = (s.readTo rest n).withHdr g := rfl
@[simp] theorem State.withHdrByte_eq (s : State) (i : Nat) (b : Byte) :
    s.withHdrByte i b = s.withHdr (s.hdr.setIfInBounds i b) := rfl

theorem fileByte_set {n : Nat} (f : Vector Byte n) {i : Nat} (hi : i < n) (b : Byte) (j : Nat) :
    fileByte (f.setIfInBounds i b) j = if j = i then b else fileByte f j := by
  simp only [fileByte, Vector.getElem?_setIfInBounds]
  by_cases h : j = i
  · subst h; simp [hi]
  · simp [h, Ne.symm h]

theorem fileByte_toList {n : Nat} (f : Vector Byte n) (i : Nat) : fileByte f i = (f.toList[i]?).getD 0 := by
  simp [fileByte]

theorem file_ext {n : Nat} {f g : Vector Byte n} (h : ∀ j, j < n → fileByte f j = fileByte g j) : f = g := by
  ext1 j hj
  simpa [fileByte, hj] using h j hj

theorem readHeader_turn {s : State} {cs : List Byte} {rest : List Item} {j : Nat} (hj : j < cs.length) (h : Hidden)
    (g : Vector Byte Config.hdrLen) :
    (do modify (·.withIdx j); let b ← carrierRead; modify (·.withHdrByte j b) : Engine PUnit)
        (((s.readTo (asItems (cs.drop j) ++ rest) j).withHdr g).withHidden h) =
      .ok () (((s.readTo (asItems (cs.drop (j + 1)) ++ rest) (j + 1)).withHdr (g.setIfInBounds j cs[j])).withHidden
        { h with idx := BitVec.ofNat 33 j }) := by
  rw [Engine.modify_bind, State.withIdx_eq, State.withHidden_withHidden,
    Engine.bind_ok (carrierRead_readTo (c := cs[j]) (rest := asItems (cs.drop (j + 1)) ++ rest)
      (by show asItems (cs.drop j) ++ rest = _; simp [asItems_drop hj]))]
  simp
  rfl

/-- `ReadHeader()` over a carrier that holds a whole header (R112). -/
theorem readHeader_ok {s : State} (hb : Vector Byte Config.hdrLen) {rest : List Item}
    (hi : s.cin.items = asItems hb.toList ++ rest) :
    ∃ h, readHeader s = .ok () (((s.readTo rest Config.hdrLen).withHdr hb).withHidden h) := by
  obtain ⟨u, hu, h, g, rfl, hg⟩ := forUpTo_ok (n := Config.hdrLen) (s := s)
    (body := fun i => do modify (·.withIdx i); let b ← carrierRead; modify (·.withHdrByte i b))
    (P := fun i t => ∃ h g, t = ((s.readTo (asItems (hb.toList.drop i) ++ rest) i).withHdr g).withHidden h ∧
      ∀ j, j < i → fileByte g j = fileByte hb j)
    (fun j t hj ht => by
      obtain ⟨h, g, rfl, hg⟩ := ht
      refine ⟨_, readHeader_turn (by simpa using hj) h g, _, _, rfl, fun i hi' => ?_⟩
      rw [fileByte_set g hj]
      split
      · next e => subst e; simp [fileByte, hj]
      · exact hg i (by omega))
    ⟨s.hidden, s.hdr, by simp [← hi]; rfl, fun j hj => absurd hj (by omega)⟩
  refine ⟨h, ?_⟩
  rw [file_ext hg] at hu
  rw [readHeader, hu]
  simp [List.drop_of_length_le]

/-- `ReadHeader()` over a carrier that ends or faults at byte `k`: HDR[0..k-1] new, HDR[k..53] as before (R112). -/
theorem readHeader_stop {s : State} {cs : List Byte} {rest : List Item} (hlen : cs.length < 54)
    (hi : s.cin.items = asItems cs ++ rest) (hr : ∀ b l, rest ≠ .byte b :: l) :
    ∃ h g, readHeader s = .error ⟨if rest = [] then .unexpectedEndOfCarrier else .ioFailure, some .cin⟩
        (((s.readTo rest.tail cs.length).withHdr g).withHidden h) ∧
      ∀ j, fileByte g j = if j < cs.length then (cs[j]?).getD 0 else fileByte s.hdr j := by
  obtain ⟨r, u, hu, rfl, h, g, rfl, hg⟩ := forUpTo_error (n := Config.hdrLen) (k := cs.length) (s := s)
    (body := fun i => do modify (·.withIdx i); let b ← carrierRead; modify (·.withHdrByte i b))
    (P := fun i t => ∃ h g, t = ((s.readTo (asItems (cs.drop i) ++ rest) i).withHdr g).withHidden h ∧
      ∀ j, fileByte g j = if j < i then (cs[j]?).getD 0 else fileByte s.hdr j)
    (Q := fun r u => r = ⟨if rest = [] then .unexpectedEndOfCarrier else .ioFailure, some .cin⟩ ∧
      ∃ h g, u = ((s.readTo rest.tail cs.length).withHdr g).withHidden h ∧
        ∀ j, fileByte g j = if j < cs.length then (cs[j]?).getD 0 else fileByte s.hdr j)
    hlen
    (fun j t hj ht => by
      obtain ⟨h, g, rfl, hg⟩ := ht
      refine ⟨_, readHeader_turn hj h g, _, _, rfl, fun i => ?_⟩
      rw [fileByte_set g (show j < 54 by omega), hg]
      by_cases e : i = j
      · subst e; simp [hj]
      · simp only [e, if_false]
        by_cases e' : i < j
        · simp [e', show i < j + 1 by omega]
        · simp [e', show ¬ i < j + 1 by omega])
    (fun t ht => by
      obtain ⟨h, g, rfl, hg⟩ := ht
      simp only [Engine.modify_bind, State.withIdx_eq, State.withHidden_withHidden]
      cases rest with
      | nil =>
        rw [Engine.bind_error (carrierRead_eos (by show asItems (cs.drop cs.length) ++ [] = []; simp))]
        exact ⟨_, _, rfl, by simp, { h with idx := BitVec.ofNat 33 cs.length }, g, by simp, hg⟩
      | cons i l =>
        cases i with
        | byte b => exact absurd rfl (hr b l)
        | err =>
          rw [Engine.bind_error (carrierRead_err (rest := l) (by show asItems (cs.drop cs.length) ++ _ = _; simp))]
          exact ⟨_, _, rfl, by simp, { h with idx := BitVec.ofNat 33 cs.length }, g, rfl, hg⟩)
    ⟨s.hidden, s.hdr, by simp [← hi]; rfl, by simp⟩
  exact ⟨h, g, hu, hg⟩

/-- `EmitHeader()` when no write fails (R230). -/
theorem emitHeader_ok {s : State} (hf : ∀ k, k < 54 → s.sout.attempts + k ∉ s.sout.fails) :
    ∃ h, emitHeader s = .ok () ((s.stegoOut s.hdr.toList).withHidden h) := by
  obtain ⟨u, hu, h, rfl⟩ := forUpTo_ok (n := Config.hdrLen) (s := s)
    (body := fun i => do modify (·.withIdx i); stegoWrite (fileByte (← get).hdr i))
    (P := fun i t => ∃ h, t = (s.stegoOut (s.hdr.toList.take i)).withHidden h)
    (fun j t hj ht => by
      obtain ⟨h, rfl⟩ := ht
      have hl : j < s.hdr.toList.length := by simpa using hj
      refine ⟨_, ?_, { h with idx := BitVec.ofNat 33 j }, rfl⟩
      rw [Engine.modify_bind, Engine.get_bind, State.withIdx_eq, State.withHidden_withHidden,
        stegoWrite_stegoOut _ (by
          simp only [State.withHidden_sout, State.stegoOut_attempts, State.stegoOut_fails]
          simpa [show min j Config.hdrLen = j by omega] using hf j hj)]
      rw [List.take_succ_eq_append_getElem hl]
      have e : s.hdr.toList[j] = fileByte s.hdr j := by
        rw [fileByte_toList, List.getElem?_eq_getElem hl, Option.getD_some]
      rw [e, ← State.stegoOut_stegoOut]
      rfl)
    ⟨s.hidden, by simp⟩
  refine ⟨h, ?_⟩
  rw [emitHeader, hu, List.take_of_length_le (by simp)]

/-- `CopyN(n)` when nothing fails (R232). -/
theorem copyN_ok {n : Nat} {s : State} {cs : List Byte} {rest : List Item} (hlen : cs.length = n)
    (hi : s.cin.items = asItems cs ++ rest) (hf : ∀ k, k < n → s.sout.attempts + k ∉ s.sout.fails) :
    ∃ h, copyN n s = .ok () (((s.readTo rest n).stegoOut cs).withHidden h) := by
  obtain ⟨u, hu, h, rfl⟩ := forUpTo_ok (n := n) (s := s)
    (body := fun i => do modify (·.withIdx i); let b ← carrierRead; stegoWrite b)
    (P := fun i t => ∃ h, t = ((s.readTo (asItems (cs.drop i) ++ rest) i).stegoOut (cs.take i)).withHidden h)
    (fun j t hj ht => by
      obtain ⟨h, rfl⟩ := ht
      have hc : j < cs.length := by omega
      refine ⟨_, ?_, { h with idx := BitVec.ofNat 33 j }, rfl⟩
      rw [Engine.modify_bind, State.withIdx_eq, State.withHidden_withHidden,
        Engine.bind_ok (carrierRead_readTo (c := cs[j]) (rest := asItems (cs.drop (j + 1)) ++ rest) (by simp [asItems_drop hc])),
        stegoWrite_stegoOut _ (by
          simp only [State.readTo_sout, State.withHidden_sout, State.stegoOut_attempts, State.stegoOut_fails]
          simpa [show min j cs.length = j by omega] using hf j hj)]
      rw [List.take_succ_eq_append_getElem hc]
      simp)
    ⟨s.hidden, by simp [← hi]⟩
  refine ⟨h, ?_⟩
  rw [copyN, hu]
  simp [List.take_of_length_le, hlen.le, List.drop_of_length_le]

/-- `SkipN(n)` when the carrier holds out (R236). -/
theorem skipN_ok {n : Nat} {s : State} {cs : List Byte} {rest : List Item} (hlen : cs.length = n)
    (hi : s.cin.items = asItems cs ++ rest) :
    ∃ h, skipN n s = .ok () ((s.readTo rest n).withHidden h) := by
  obtain ⟨u, hu, h, rfl⟩ := forUpTo_ok (n := n) (s := s)
    (body := fun i => do modify (·.withIdx i); let _ ← carrierRead)
    (P := fun i t => ∃ h, t = (s.readTo (asItems (cs.drop i) ++ rest) i).withHidden h)
    (fun j t hj ht => by
      obtain ⟨h, rfl⟩ := ht
      have hc : j < cs.length := by omega
      refine ⟨_, ?_, { h with idx := BitVec.ofNat 33 j }, rfl⟩
      rw [Engine.modify_bind, State.withIdx_eq, State.withHidden_withHidden,
        Engine.bind_ok (carrierRead_readTo (c := cs[j]) (rest := asItems (cs.drop (j + 1)) ++ rest) (by simp [asItems_drop hc]))]
      simp)
    ⟨s.hidden, by simp [← hi]⟩
  refine ⟨h, ?_⟩
  rw [skipN, hu]
  simp [List.drop_of_length_le, hlen.le]

/-- `CopyRest()` over a carrier of bytes, when no write fails: everything is copied (R234). -/
theorem copyRestWithin_ok {cs : List Byte} : ∀ {n : Nat} {s : State}, cs.length < n → s.cin.items = asItems cs →
    (∀ k, k < cs.length → s.sout.attempts + k ∉ s.sout.fails) →
    copyRestWithin n s = .ok () ((s.readTo [] cs.length).stegoOut cs) := by
  induction cs with
  | nil =>
    intro n s hn hi _
    obtain ⟨n, rfl⟩ : ∃ m, n = m + 1 := ⟨n - 1, by simp at hn; omega⟩
    obtain ⟨-, e⟩ | ⟨rest, h, -⟩ | ⟨b, rest, h, -⟩ := copyRestWithin_cases n s
    · have hs : s.readTo [] 0 = s := by
        have := State.readTo_zero s
        rwa [hi] at this
      rw [e]
      simp [hs]
    · simp [hi] at h
    · simp [hi] at h
  | cons c cs ih =>
    intro n s hn hi hf
    obtain ⟨n, rfl⟩ : ∃ m, n = m + 1 := ⟨n - 1, by simp at hn; omega⟩
    obtain ⟨h, -⟩ | ⟨rest, h, -⟩ | ⟨b, rest, h, e⟩ := copyRestWithin_cases n s
    · simp [hi] at h
    · simp [hi] at h
    · rw [hi, asItems_cons] at h
      obtain ⟨h1, h2⟩ := List.cons.inj h
      cases h1
      have e2 : stegoWrite c (s.readTo rest 1) = .ok () ((s.readTo rest 1).stegoOut [c]) :=
        stegoWrite_stegoOut c (hf 0 (by simp))
      have e3 : copyRestWithin n ((s.readTo rest 1).stegoOut [c]) =
          .ok () ((((s.readTo rest 1).stegoOut [c]).readTo [] cs.length).stegoOut cs) :=
        ih (by simpa using hn) h2.symm (fun k hk => by
          have := hf (k + 1) (by simpa using hk)
          simpa [Nat.add_assoc, Nat.add_comm 1 k] using this)
      rw [e]
      exact (Engine.bind_ok e2).trans (e3.trans (by simp [Nat.add_comm]))

theorem copyRest_ok {cs : List Byte} {s : State} (hi : s.cin.items = asItems cs)
    (hf : ∀ k, k < cs.length → s.sout.attempts + k ∉ s.sout.fails) :
    copyRest s = .ok () ((s.readTo [] cs.length).stegoOut cs) := by
  rw [copyRest, Engine.get_bind]
  exact copyRestWithin_ok (by simp [hi, asItems]) hi hf

/-! ## Byte strings as bits -/

theorem bitString_append (a b : List Byte) : bitString (a ++ b) = bitString a ++ bitString b := by simp [bitString]

@[simp] theorem bitString_nil : bitString [] = [] := rfl

@[simp] theorem bitString_singleton (b : Byte) : bitString [b] = bitsOf b := by simp [bitString]

@[simp] theorem bitString_length (bs : List Byte) : (bitString bs).length = 8 * bs.length := by
  induction bs with
  | nil => rfl
  | cons b bs ih => rw [← List.singleton_append, bitString_append]; simp [ih]; omega

theorem embed_append {cs ds : List Byte} {a b : List Bool} (h : cs.length = a.length) :
    embed (cs ++ ds) (a ++ b) = embed cs a ++ embed ds b := List.zipWith_append h

/-- The bits of a number spell it (R14, R73). -/
theorem numberOf_bitsOf {w : Nat} (v : BitVec w) : numberOf (bitsOf v) = v.toNat := by
  have key : ∀ k, k ≤ w → numberOf ((List.range k).map fun i => v.getLsbD (w - 1 - i)) = v.toNat / 2 ^ (w - k) := by
    intro k
    induction k with
    | zero => intro _; simp [Nat.div_eq_of_lt v.isLt]
    | succ k ih =>
      intro hk
      rw [List.range_succ, List.map_append, List.map_singleton, numberOf_append, ih (by omega)]
      have e : w - k = (w - (k + 1)) + 1 := by omega
      have e2 : w - 1 - k = w - (k + 1) := by omega
      rw [e, e2, Nat.pow_succ, ← Nat.div_div_eq_div_mul]
      have hb : (v.getLsbD (w - (k + 1))).toNat = v.toNat / 2 ^ (w - (k + 1)) % 2 := by
        rw [BitVec.getLsbD, Nat.testBit_eq_decide_div_mod_eq]
        rcases Nat.mod_two_eq_zero_or_one (v.toNat / 2 ^ (w - (k + 1))) with h | h <;> simp [h]
      rw [hb]
      omega
  have := key w (Nat.le_refl w)
  simpa [bitsOf] using this

/-- A length field's bits are those of its four big-endian bytes (R74). -/
theorem bitString_be32 (v : Word) : bitString (be32 v) = bitsOf v := by
  simp only [bitString, be32, bitsOf, List.flatMap_cons, List.flatMap_nil, List.append_nil]
  simp [List.range_succ]

@[simp] theorem be32_length (v : Word) : (be32 v).length = 4 := rfl

/-! ## The frame, written -/

/-- Other items on an input port. -/
def State.sourceTo (s : State) (p : InId) (l : List Item) : State := s.withIn p { s.inPort p with items := l }

section source
variable {s : State} {p : InId}

theorem State.sourceTo_readTo (hp : p ≠ .cin) (l rest : List Item) (n : Nat) :
    (s.sourceTo p l).readTo rest n = (s.readTo rest n).sourceTo p l := by
  cases p <;> first | exact absurd rfl hp | rfl
theorem State.sourceTo_stegoOut (l : List Item) (out : List Byte) :
    (s.sourceTo p l).stegoOut out = (s.stegoOut out).sourceTo p l := by cases p <;> rfl
@[simp] theorem State.withHidden_sourceTo (l : List Item) (h : Hidden) :
    (s.withHidden h).sourceTo p l = (s.sourceTo p l).withHidden h := by cases p <;> rfl
@[simp] theorem State.sourceTo_sourceTo (l l' : List Item) : (s.sourceTo p l).sourceTo p l' = s.sourceTo p l' := by
  cases p <;> rfl
@[simp] theorem State.sourceTo_items (l : List Item) : ((s.sourceTo p l).inPort p).items = l := by cases p <;> rfl
@[simp] theorem State.withHidden_inPort (h : Hidden) : (s.withHidden h).inPort p = s.inPort p := by cases p <;> rfl
theorem State.sourceTo_cin (hp : p ≠ .cin) (l : List Item) : (s.sourceTo p l).cin = s.cin := by
  cases p <;> first | exact absurd rfl hp | rfl
@[simp] theorem State.sourceTo_sout (l : List Item) : (s.sourceTo p l).sout = s.sout := by cases p <;> rfl
theorem State.sourceTo_self : s.sourceTo p (s.inPort p).items = s := by cases p <;> rfl

end source

theorem sourceRead_sourceTo {p : InId} {s : State} {b : Byte} {rest : List Item} (h : (s.inPort p).items = .byte b :: rest) :
    sourceRead p s = .ok b (s.sourceTo p rest) := sourceRead_byte h

/-- The stego bytes of the first `i` bytes of `bs`. -/
theorem embed_bytes_succ {cs bs : List Byte} {i : Nat} (hi : i < bs.length) (hc : 8 * bs.length ≤ cs.length) :
    embed (cs.take (8 * (i + 1))) (bitString (bs.take (i + 1))) =
      embed (cs.take (8 * i)) (bitString (bs.take i)) ++ embed ((cs.drop (8 * i)).take 8) (bitsOf bs[i]) := by
  rw [List.take_succ_eq_append_getElem hi, bitString_append, bitString_singleton, show 8 * (i + 1) = 8 * i + 8 by omega,
    List.take_add, embed_append (by simp; omega)]

theorem chunk {cs : List Byte} {i : Nat} (rest : List Item) :
    asItems (cs.drop (8 * i)) ++ rest = asItems ((cs.drop (8 * i)).take 8) ++ (asItems (cs.drop (8 * (i + 1))) ++ rest) := by
  rw [← List.append_assoc, ← asItems_append, show 8 * (i + 1) = 8 * i + 8 by omega, ← List.drop_drop, List.take_append_drop]

/-- Packing the bytes of PIN or EIN: each is read before the 8 carrier bytes that carry it (R177, R179, R185). -/
theorem packSource_ok {p : InId} (hp : p ≠ .cin) {n : Nat} {s : State} {xs cs : List Byte} {xrest rest : List Item}
    (hx : xs.length = n) (hxi : (s.inPort p).items = asItems xs ++ xrest) (hlen : cs.length = 8 * n)
    (hi : s.cin.items = asItems cs ++ rest) (hf : ∀ k, k < 8 * n → s.sout.attempts + k ∉ s.sout.fails) :
    ∃ h, forUpTo n (fun i => do modify (·.withIdx i); let b ← sourceRead p; packByte b) s =
      .ok () ((((s.readTo rest (8 * n)).stegoOut (embed cs (bitString xs))).sourceTo p xrest).withHidden h) := by
  obtain ⟨u, hu, h, rfl⟩ := forUpTo_ok (n := n) (s := s)
    (body := fun i => do modify (·.withIdx i); let b ← sourceRead p; packByte b)
    (P := fun i t => ∃ h, t = (((s.readTo (asItems (cs.drop (8 * i)) ++ rest) (8 * i)).stegoOut
      (embed (cs.take (8 * i)) (bitString (xs.take i)))).sourceTo p (asItems (xs.drop i) ++ xrest)).withHidden h)
    (fun j t hj ht => by
      obtain ⟨h, rfl⟩ := ht
      have hxj : j < xs.length := by omega
      rw [Engine.modify_bind, State.withIdx_eq, State.withHidden_withHidden,
        Engine.bind_ok (sourceRead_sourceTo (b := xs[j]) (rest := asItems (xs.drop (j + 1)) ++ xrest)
          (by simp [asItems_drop hxj]))]
      rw [State.withHidden_sourceTo, State.sourceTo_sourceTo]
      obtain ⟨h', e⟩ := packBits_ok (xs[j])
        (s := (((s.readTo (asItems (cs.drop (8 * j)) ++ rest) (8 * j)).stegoOut
          (embed (cs.take (8 * j)) (bitString (xs.take j)))).sourceTo p (asItems (xs.drop (j + 1)) ++ xrest)).withHidden
            { h with idx := BitVec.ofNat 33 j })
        (cs := (cs.drop (8 * j)).take 8) (rest := asItems (cs.drop (8 * (j + 1))) ++ rest)
        (by simp; omega)
        (by rw [State.withHidden_cin, State.sourceTo_cin hp, State.stegoOut_cin, State.readTo_items, chunk])
        (fun k hk => by
          have := hf (8 * j + k) (by omega)
          rw [State.withHidden_sout, State.sourceTo_sout, State.stegoOut_attempts, State.stegoOut_fails]
          simpa [show min (8 * j) (min cs.length (8 * xs.length)) = 8 * j by omega,
            show min (min (8 * j) cs.length) (8 * min j xs.length) = 8 * j by omega, Nat.add_assoc] using this)
      refine ⟨_, e, h', ?_⟩
      rw [embed_bytes_succ hxj (by omega)]
      simp only [State.withHidden_readTo, State.withHidden_stegoOut, State.withHidden_withHidden, State.sourceTo_readTo hp,
        State.sourceTo_stegoOut, State.stegoOut_readTo, State.readTo_readTo, State.stegoOut_stegoOut]
      rfl)
    ⟨s.hidden, by simp only [Nat.mul_zero, List.drop_zero, List.take_zero, bitString_nil, ← hi, ← hxi]
                  simp [embed, State.sourceTo_self]⟩
  refine ⟨h, ?_⟩
  rw [hu]
  simp [List.take_of_length_le, List.drop_of_length_le, hlen.le, hx.le]

/-- R11: 9 ≤ MARKER_MAX ≤ 64. -/
theorem markerMax_bounds : 9 ≤ Config.markerMax ∧ Config.markerMax ≤ 64 := by
  have := Config.markerMaxOver.isLt
  rw [Config.markerMax]
  omega

theorem markerLenOk_iff {s : State} : markerLenOk s = true ↔ 1 ≤ s.mlen.toNat ∧ s.mlen.toNat ≤ Config.markerMax := by
  simp only [markerLenOk, Bool.and_eq_true, decide_eq_true_eq]

theorem markerBytes_length {s : State} (h : markerLenOk s = true) : (markerBytes s).length = s.mlen.toNat := by
  have h2 : s.mlen.toNat ≤ 64 := (markerLenOk_iff.mp h).2.trans markerMax_bounds.2
  simpa [markerBytes] using h2

theorem fileByte_markerBytes {s : State} {i : Nat} (hi : i < (markerBytes s).length) :
    fileByte s.marker i = (markerBytes s)[i] := by
  have h1 : i < s.marker.toList.length := by
    rw [markerBytes, List.length_take] at hi
    omega
  rw [fileByte_toList, List.getElem?_eq_getElem h1, Option.getD_some]
  simp [markerBytes]

/-- Packing the marker (R175). -/
theorem packMarker_ok {s : State} {cs : List Byte} {rest : List Item} (hm : markerLenOk s = true)
    (hlen : cs.length = 8 * s.mlen.toNat) (hi : s.cin.items = asItems cs ++ rest)
    (hf : ∀ k, k < 8 * s.mlen.toNat → s.sout.attempts + k ∉ s.sout.fails) :
    ∃ h, packMarker s = .ok ()
      (((s.readTo rest (8 * s.mlen.toNat)).stegoOut (embed cs (bitString (markerBytes s)))).withHidden h) := by
  have hml := markerBytes_length hm
  obtain ⟨u, hu, h, rfl⟩ := forUpTo_ok (n := s.mlen.toNat) (s := s)
    (body := fun i => do modify (·.withIdx i); packByte (fileByte (← get).marker i))
    (P := fun i t => ∃ h, t = ((s.readTo (asItems (cs.drop (8 * i)) ++ rest) (8 * i)).stegoOut
      (embed (cs.take (8 * i)) (bitString ((markerBytes s).take i)))).withHidden h)
    (fun j t hj ht => by
      obtain ⟨h, rfl⟩ := ht
      have hxj : j < (markerBytes s).length := by omega
      rw [Engine.modify_bind, Engine.get_bind, State.withIdx_eq, State.withHidden_withHidden]
      obtain ⟨h', e⟩ := packBits_ok ((markerBytes s)[j])
        (s := ((s.readTo (asItems (cs.drop (8 * j)) ++ rest) (8 * j)).stegoOut
          (embed (cs.take (8 * j)) (bitString ((markerBytes s).take j)))).withHidden { h with idx := BitVec.ofNat 33 j })
        (cs := (cs.drop (8 * j)).take 8) (rest := asItems (cs.drop (8 * (j + 1))) ++ rest)
        (by simp; omega)
        (by rw [State.withHidden_cin, State.stegoOut_cin, State.readTo_items, chunk])
        (fun k hk => by
          have := hf (8 * j + k) (by omega)
          rw [State.withHidden_sout, State.stegoOut_attempts, State.stegoOut_fails]
          simpa [show min (min (8 * j) cs.length) (8 * min j (markerBytes s).length) = 8 * j by omega, Nat.add_assoc] using this)
      refine ⟨_, ?_, h', rfl⟩
      rw [← fileByte_markerBytes hxj] at e
      refine Eq.trans e ?_
      rw [embed_bytes_succ hxj (by omega), ← fileByte_markerBytes hxj]
      simp only [State.withHidden_readTo, State.withHidden_stegoOut, State.withHidden_withHidden, State.stegoOut_readTo,
        State.readTo_readTo, State.stegoOut_stegoOut]
      rfl)
    ⟨s.hidden, by simp only [Nat.mul_zero, List.drop_zero, List.take_zero, bitString_nil, ← hi]; simp [embed]⟩
  refine ⟨h, ?_⟩
  rw [packMarker, Engine.get_bind, hu]
  simp [List.take_of_length_le, List.drop_of_length_le, hlen.le, hml.le]

/-! ## The frame, read -/

theorem lsbs_take (cs : List Byte) (n : Nat) : lsbs (cs.take n) = (lsbs cs).take n := by simp [lsbs, List.map_take]
theorem lsbs_drop (cs : List Byte) (n : Nat) : lsbs (cs.drop n) = (lsbs cs).drop n := by simp [lsbs, List.map_drop]

/-- The `i`-th byte of a byte string in its bits. -/
theorem bitString_chunk {bs : List Byte} {i : Nat} (hi : i < bs.length) :
    ((bitString bs).drop (8 * i)).take 8 = bitsOf bs[i] := by
  have e : bs = bs.take i ++ ([bs[i]] ++ bs.drop (i + 1)) := by
    rw [List.singleton_append, ← List.drop_eq_getElem_cons hi, List.take_append_drop]
  have hl : (bitString (bs.take i)).length = 8 * i := by simp; omega
  conv_lhs => rw [e]
  rw [bitString_append, bitString_append, bitString_singleton, ← hl, List.drop_left]
  exact List.take_left' (bitsOf_length _)

/-- `UnpackByte()` over eight carrier bytes whose LSBs are the bits of `b` (R150). -/
theorem unpackByte_ok {s : State} {cs : List Byte} {rest : List Item} {b : Byte} (hb : lsbs cs = bitsOf b)
    (hi : s.cin.items = asItems cs ++ rest) :
    ∃ h, unpackByte s = .ok b ((s.readTo rest 8).withHidden h) ∧ h.rxm = s.hidden.rxm := by
  have hlen : cs.length = 8 := by rw [← lsbs_length, hb, bitsOf_length]
  obtain ⟨h, e, hr⟩ := unpackBits_ok (by omega) hlen hi
  refine ⟨h, ?_, hr⟩
  rw [unpackByte, Engine.bind_ok e, Engine.pure_apply, hb, numberOf_bitsOf]
  congr 1
  apply BitVec.eq_of_toNat_eq
  have := b.isLt
  simp
  omega

/-- `UnpackInt32()` over 32 carrier bytes whose LSBs are the bits of `v` (R153). -/
theorem unpackInt32_ok {s : State} {cs : List Byte} {rest : List Item} {v : Word} (hb : lsbs cs = bitsOf v)
    (hi : s.cin.items = asItems cs ++ rest) :
    ∃ h, unpackInt32 s = .ok v ((s.readTo rest 32).withHidden h) ∧ h.rxm = s.hidden.rxm := by
  have hlen : cs.length = 32 := by rw [← lsbs_length, hb, bitsOf_length]
  obtain ⟨h, e, hr⟩ := unpackBits_ok (by omega) hlen hi
  refine ⟨h, ?_, hr⟩
  rw [unpackInt32, e, hb, numberOf_bitsOf, BitVec.ofNat_toNat, BitVec.setWidth_eq]

theorem lsbs_chunk {cs bs : List Byte} (h : lsbs cs = bitString bs) {i : Nat} (hi : i < bs.length) :
    lsbs ((cs.drop (8 * i)).take 8) = bitsOf bs[i] := by
  rw [lsbs_take, lsbs_drop, h, bitString_chunk hi]

/-- The unpacking half of MARKER (R203): RXM[0..MLEN-1] are the bytes the LSBs spell. -/
theorem unpackMarker_ok {s : State} {ms cs : List Byte} {rest : List Item} (hm : ms.length = s.mlen.toNat)
    (h64 : s.mlen.toNat ≤ 64) (hb : lsbs cs = bitString ms) (hi : s.cin.items = asItems cs ++ rest) :
    ∃ h, unpackMarker s = .ok () ((s.readTo rest (8 * s.mlen.toNat)).withHidden h) ∧
      ∀ j (hj : j < ms.length), fileByte h.rxm j = ms[j] := by
  have hlen : cs.length = 8 * s.mlen.toNat := by rw [← lsbs_length, hb, bitString_length, hm]
  obtain ⟨u, hu, h, rfl, hr⟩ := forUpTo_ok (n := s.mlen.toNat) (s := s)
    (body := fun i => do modify (·.withIdx i); let b ← unpackByte; modify (·.withRxmByte i b))
    (P := fun i t => ∃ h, t = (s.readTo (asItems (cs.drop (8 * i)) ++ rest) (8 * i)).withHidden h ∧
      ∀ j (hj : j < ms.length), j < i → fileByte h.rxm j = ms[j])
    (fun j t hj ht => by
      obtain ⟨h, rfl, hr⟩ := ht
      have hjm : j < ms.length := by omega
      rw [Engine.modify_bind, State.withIdx_eq, State.withHidden_withHidden]
      obtain ⟨h', e, hr'⟩ := unpackByte_ok (s := (s.readTo (asItems (cs.drop (8 * j)) ++ rest) (8 * j)).withHidden
          { h with idx := BitVec.ofNat 33 j })
        (lsbs_chunk hb hjm) (by rw [State.withHidden_cin, State.readTo_items, chunk])
      refine ⟨_, (Engine.bind_ok e).trans (Engine.modify_apply _ _),
        { h' with rxm := h'.rxm.setIfInBounds j ms[j] }, ?_, fun i hi' hlt => ?_⟩
      · simp only [State.withHidden_readTo, State.withHidden_withHidden, State.readTo_readTo]
        rfl
      · show fileByte (h'.rxm.setIfInBounds j ms[j]) i = ms[i]
        rw [fileByte_set _ (show j < 64 by omega), hr']
        split
        · next e => subst e; rfl
        · exact hr i hi' (by omega))
    ⟨s.hidden, by simp [← hi], fun j _ h => absurd h (by omega)⟩
  refine ⟨h, ?_, fun j hj => hr j hj (by omega)⟩
  rw [unpackMarker, Engine.get_bind, hu]
  simp [List.drop_of_length_le, hlen.le]

theorem compare_turn (s : State) (i : Nat) (h : Hidden) :
    (do modify (·.withIdx i); let s ← get
        if fileByte s.hidden.rxm i != fileByte s.marker i then raiseError .markerMismatch (some .cin) : Engine PUnit)
        (s.withHidden h) =
      if fileByte h.rxm i = fileByte s.marker i then .ok () (s.withHidden { h with idx := BitVec.ofNat 33 i })
      else .error ⟨.markerMismatch, some .cin⟩ (s.withHidden { h with idx := BitVec.ofNat 33 i }) := by
  rw [Engine.modify_bind, Engine.get_bind]
  show (if fileByte h.rxm i != fileByte s.marker i then _ else _ : Engine PUnit) _ = _
  by_cases e : fileByte h.rxm i = fileByte s.marker i <;> simp [e]

/-- The comparing half of MARKER when every byte agrees (R203). -/
theorem compareMarker_ok {s : State} (he : ∀ j, j < s.mlen.toNat → fileByte s.hidden.rxm j = fileByte s.marker j) :
    ∃ h, compareMarker s = .ok () (s.withHidden h) := by
  obtain ⟨u, hu, h, rfl, -⟩ := forUpTo_ok (n := s.mlen.toNat) (s := s)
    (body := fun i => do
      modify (·.withIdx i); let s ← get
      if fileByte s.hidden.rxm i != fileByte s.marker i then raiseError .markerMismatch (some .cin))
    (P := fun _ t => ∃ h, t = s.withHidden h ∧ h.rxm = s.hidden.rxm)
    (fun j t hj ht => by
      obtain ⟨h, rfl, hr⟩ := ht
      have e := compare_turn s j h
      rw [hr, if_pos (he j hj)] at e
      exact ⟨_, e, _, rfl, rfl⟩)
    ⟨s.hidden, rfl, rfl⟩
  exact ⟨h, hu⟩

/-- The comparing half of MARKER when some byte differs (R203, R254). -/
theorem compareMarker_mismatch {s : State} (he : ∃ j, j < s.mlen.toNat ∧ fileByte s.hidden.rxm j ≠ fileByte s.marker j) :
    ∃ h, compareMarker s = .error ⟨.markerMismatch, some .cin⟩ (s.withHidden h) := by
  classical
  have hk := Nat.find_spec he
  have hmin : ∀ j, j < Nat.find he → fileByte s.hidden.rxm j = fileByte s.marker j := fun j hj => by
    by_contra hne
    exact Nat.find_min he hj ⟨by omega, hne⟩
  obtain ⟨r, u, hu, rfl, h, rfl⟩ := forUpTo_error (n := s.mlen.toNat) (k := Nat.find he) (s := s)
    (body := fun i => do
      modify (·.withIdx i); let s ← get
      if fileByte s.hidden.rxm i != fileByte s.marker i then raiseError .markerMismatch (some .cin))
    (P := fun _ t => ∃ h, t = s.withHidden h ∧ h.rxm = s.hidden.rxm)
    (Q := fun r u => r = ⟨.markerMismatch, some .cin⟩ ∧ ∃ h, u = s.withHidden h)
    hk.1
    (fun j t hj ht => by
      obtain ⟨h, rfl, hr⟩ := ht
      have e := compare_turn s j h
      rw [hr, if_pos (hmin j hj)] at e
      exact ⟨_, e, _, rfl, rfl⟩)
    (fun t ht => by
      obtain ⟨h, rfl, hr⟩ := ht
      have e := compare_turn s (Nat.find he) h
      rw [hr, if_neg hk.2] at e
      exact ⟨_, _, e, rfl, _, rfl⟩)
    ⟨s.hidden, rfl, rfl⟩
  exact ⟨h, hu⟩

/-- The bytes `out` written to POUT or EOUT. -/
def State.sinkOut (s : State) (p : OutId) (out : List Byte) : State :=
  s.withOut p { s.outPort p with data := (s.outPort p).data ++ out, attempts := (s.outPort p).attempts + out.length }

section sink
variable {s : State} {p : OutId}

theorem State.sinkOut_readTo (out : List Byte) (rest : List Item) (n : Nat) :
    (s.sinkOut p out).readTo rest n = (s.readTo rest n).sinkOut p out := by cases p <;> rfl
@[simp] theorem State.withHidden_sinkOut (out : List Byte) (h : Hidden) :
    (s.withHidden h).sinkOut p out = (s.sinkOut p out).withHidden h := by cases p <;> rfl
@[simp] theorem State.sinkOut_sinkOut (out out' : List Byte) : (s.sinkOut p out).sinkOut p out' = s.sinkOut p (out ++ out') := by
  cases p <;> simp [State.sinkOut, State.withOut, State.outPort, add_assoc]
@[simp] theorem State.sinkOut_nil : s.sinkOut p [] = s := by cases p <;> simp [State.sinkOut, State.withOut, State.outPort]
@[simp] theorem State.sinkOut_cin (out : List Byte) : (s.sinkOut p out).cin = s.cin := by cases p <;> rfl
@[simp] theorem State.sinkOut_hidden (out : List Byte) : (s.sinkOut p out).hidden = s.hidden := by cases p <;> rfl
@[simp] theorem State.sinkOut_attempts (out : List Byte) :
    ((s.sinkOut p out).outPort p).attempts = (s.outPort p).attempts + out.length := by cases p <;> rfl
@[simp] theorem State.sinkOut_fails (out : List Byte) : ((s.sinkOut p out).outPort p).fails = (s.outPort p).fails := by
  cases p <;> rfl
@[simp] theorem State.withHidden_outPort (h : Hidden) : (s.withHidden h).outPort p = s.outPort p := by cases p <;> rfl
@[simp] theorem State.readTo_outPort (rest : List Item) (n : Nat) : (s.readTo rest n).outPort p = s.outPort p := by
  cases p <;> rfl

end sink

theorem sinkWrite_sinkOut {p : OutId} {s : State} (b : Byte) (h : (s.outPort p).attempts ∉ (s.outPort p).fails) :
    sinkWrite p b s = .ok () (s.sinkOut p [b]) := sinkWrite_ok b h

/-- Unpacking bytes to POUT or EOUT: each is written before the next is unpacked (R206, R208). -/
theorem unpackSink_ok {p : OutId} {n : Nat} {s : State} {xs cs : List Byte} {rest : List Item}
    (hx : xs.length = n) (hb : lsbs cs = bitString xs) (hi : s.cin.items = asItems cs ++ rest)
    (hf : ∀ k, k < n → (s.outPort p).attempts + k ∉ (s.outPort p).fails) :
    ∃ h, forUpTo n (fun i => do modify (·.withIdx i); let b ← unpackByte; sinkWrite p b) s =
      .ok () (((s.readTo rest (8 * n)).sinkOut p xs).withHidden h) := by
  have hlen : cs.length = 8 * n := by rw [← lsbs_length, hb, bitString_length, hx]
  obtain ⟨u, hu, h, rfl⟩ := forUpTo_ok (n := n) (s := s)
    (body := fun i => do modify (·.withIdx i); let b ← unpackByte; sinkWrite p b)
    (P := fun i t => ∃ h, t = ((s.readTo (asItems (cs.drop (8 * i)) ++ rest) (8 * i)).sinkOut p (xs.take i)).withHidden h)
    (fun j t hj ht => by
      obtain ⟨h, rfl⟩ := ht
      have hxj : j < xs.length := by omega
      rw [Engine.modify_bind, State.withIdx_eq, State.withHidden_withHidden]
      obtain ⟨h', e, -⟩ := unpackByte_ok
        (s := ((s.readTo (asItems (cs.drop (8 * j)) ++ rest) (8 * j)).sinkOut p (xs.take j)).withHidden
          { h with idx := BitVec.ofNat 33 j })
        (lsbs_chunk hb hxj) (by rw [State.withHidden_cin, State.sinkOut_cin, State.readTo_items, chunk])
      have hw := hf j hj
      refine ⟨_, (Engine.bind_ok e).trans (sinkWrite_sinkOut xs[j] ?_), h', ?_⟩
      · simp only [State.withHidden_outPort, State.readTo_outPort, State.sinkOut_attempts, State.sinkOut_fails, List.length_take]
        rwa [show min j xs.length = j by omega]
      · simp only [State.withHidden_readTo, State.withHidden_withHidden, State.sinkOut_readTo, State.readTo_readTo,
          State.withHidden_sinkOut, State.sinkOut_sinkOut]
        rw [List.take_succ_eq_append_getElem hxj]
        rfl)
    ⟨s.hidden, by simp [← hi]⟩
  refine ⟨h, ?_⟩
  rw [hu]
  simp [List.take_of_length_le, List.drop_of_length_le, hlen.le, hx.le]

end Sys2Proof.Machine
end

