-- ==== Sys2Proof/Laws/Commands.lean ====
section
/-! SUPPORT. Laws/Commands.lean: a whole command from its body: how it ends, and the state it leaves in the terms of
`State.completed` and `State.failed`. -/

namespace Sys2Proof.Machine

/-! ## Whole commands -/

/-- A command whose ports are attached, and whose body completes, completes. -/
theorem exec_completes {i : Instr} {s t : State} (hm : i = .encode ∨ i = .decode → s.MarkerLenOk)
    (hp : ∀ p ∈ portsRequired i, s.attached p = true) (hb : bodyOf i (s.start (encode i)) = .ok () t) :
    exec i s = .next t.finish := by
  rw [exec_eq]
  refine runCommand_ok (validate_ok (fun h => markerLenOk_iff.2 (hm ?_)) fun p h => ?_) hb
  · simpa [checksMarkerLen] using h
  · rw [← hp p h]
    cases p <;> rfl

/-- A command whose ports are attached, and whose body raises, takes that error. -/
theorem exec_raises {i : Instr} {s t : State} {r : Raise} (hm : i = .encode ∨ i = .decode → s.MarkerLenOk)
    (hp : ∀ p ∈ portsRequired i, s.attached p = true) (hb : bodyOf i (s.start (encode i)) = .error r t) :
    exec i s = .next (t.raise r) := by
  rw [exec_eq]
  refine runCommand_raise (validate_ok (fun h => markerLenOk_iff.2 (hm ?_)) fun p h => ?_) hb
  · simpa [checksMarkerLen] using h
  · rw [← hp p h]
    cases p <;> rfl

/-- A carrier stop in the terms of `packBits_carrier_stop`, `unpackBits_stop` and `readHeader_stop`. -/
theorem CarrierStop.facts {tail left : List Item} {k : ErrKind} (h : CarrierStop tail k left) :
    (∀ b l, tail ≠ .byte b :: l) ∧ (if tail = [] then ErrKind.unexpectedEndOfCarrier else .ioFailure) = k ∧
      tail.tail = left := by
  obtain ⟨rfl, rfl, rfl⟩ | ⟨rfl, rfl⟩ := h <;> simp

/-! ## A command in a step -/

theorem runJudged_eq {i : Instr} {s t : State} (h : exec i s = .next t) : runJudged i s = .next (t.judged s) := by
  rw [runJudged, h]

/-- A step whose host action is a write of CMD that the core takes is `writeCmd` (R95). -/
theorem step_writeCmd {s : State} {v : Word} (h1 : s.resetLine = false) (h2 : nextStmt s = some (.wr 0x000 4 v)) :
    step s = writeCmd v s.advance := by
  simp [step, stepOnce, h1, h2, hostAct, hostWrite, accessOk, regAt, namedRegs]

/-- Such a step with a command's word, while BUSY = 0 (R95, R96). -/
theorem step_command {s : State} {v : Word} {i : Instr} (h1 : s.resetLine = false)
    (h2 : nextStmt s = some (.wr 0x000 4 v)) (h3 : s.status.busy = false) (h4 : decode v = .ok i) :
    step s = runJudged i s.advance := by
  rw [step_writeCmd h1 h2, writeCmd, show s.advance.status.busy = false from h3, h4]
  rfl

/-- Such a step with a word that is no command, while BUSY = 0 (R91, R93). -/
theorem step_invalid {s : State} {v : Word} {e : DecodeError} (h1 : s.resetLine = false)
    (h2 : nextStmt s = some (.wr 0x000 4 v)) (h3 : s.status.busy = false) (h4 : decode v = .error e) :
    step s = .next (rejectCommand v s.advance) := by
  rw [step_writeCmd h1 h2, writeCmd, show s.advance.status.busy = false from h3, h4]
  rfl

section ends
variable (s : State) (i : Instr) (rest : List Item) (n : Nat) (out : List Byte) (h : Hidden) (r : Raise) (q : Seq)

/-- Completion after carrier bytes were read and stego bytes written. -/
theorem finish_moved :
    (((((s.start (encode i)).withSeq q).readTo rest n).stegoOut out).withHidden h).finish =
      { s.completed i with
        cin := { s.cin with items := rest }, ccnt := BitVec.ofNat 64 n, ocnt := BitVec.ofNat 64 out.length
        sout := { s.sout with data := s.sout.data ++ out, attempts := out.length } } := by
  simp [State.readTo, State.stegoOut, State.start, State.withSeq]
  rfl

/-- An error after carrier bytes were read and stego bytes written. -/
theorem raise_moved :
    (((((s.start (encode i)).withSeq q).readTo rest n).stegoOut out).withHidden h).raise r =
      { s.failed (encode i) r.kind r.port q with
        cin := { s.cin with items := rest }, ccnt := BitVec.ofNat 64 n, ocnt := BitVec.ofNat 64 out.length
        sout := { s.sout with data := s.sout.data ++ out, attempts := out.length } } := by
  simp [State.readTo, State.stegoOut, State.start, State.withSeq]
  rfl

/-- Completion after carrier bytes were read. -/
theorem finish_readTo :
    ((((s.start (encode i)).withSeq q).readTo rest n).withHidden h).finish =
      { s.completed i with cin := { s.cin with items := rest }, ccnt := BitVec.ofNat 64 n } := by
  simp [State.readTo, State.start, State.withSeq]
  rfl

/-- An error after carrier bytes were read. -/
theorem raise_readTo :
    ((((s.start (encode i)).withSeq q).readTo rest n).withHidden h).raise r =
      { s.failed (encode i) r.kind r.port q with cin := { s.cin with items := rest }, ccnt := BitVec.ofNat 64 n } := by
  simp [State.readTo, State.start, State.withSeq]
  rfl

end ends

end Sys2Proof.Machine
end

