-- ==== Sys2Proof/Laws/Phases.lean ====
section
/-! SUPPORT. Laws/Phases.lean: the sequencer states of ENCODE and DECODE, one lemma each: from a running command in normal
form (`State.moved`) to the next one. -/

namespace Sys2Proof.Machine

/-- A running command: `n` carrier bytes read with `rest` left, `out` on SOUT, and some hidden state, over the state `X`. -/
def State.moved (X : State) (rest : List Item) (n : Nat) (out : List Byte) (h : Hidden) : State :=
  ((X.readTo rest n).stegoOut out).withHidden h

/-! ## CAPCHECK -/

theorem hdrNumber_lt (hb : Vector Byte 54) (off : Nat) : hdrNumber hb off < 2 ^ 32 := by
  have h0 := (fileByte hb off).isLt
  have h1 := (fileByte hb (off + 1)).isLt
  have h2 := (fileByte hb (off + 2)).isLt
  have h3 := (fileByte hb (off + 3)).isLt
  simp only [hdrNumber]
  omega

theorem headerCapacity_lt (hb : Vector Byte 54) : headerCapacity hb < 2 ^ 63 := by
  have h1 := hdrNumber_lt hb 18
  have h2 := hdrNumber_lt hb 22
  have h3 : hdrNumber hb 18 * hdrNumber hb 22 ≤ (2 ^ 32 - 1) * (2 ^ 32 - 1) := Nat.mul_le_mul (by omega) (by omega)
  simp only [headerCapacity]
  omega

/-- The little-endian field of R72 is the number of `hdrNumber`. -/
theorem hdrLe32_eq (s : State) (off : Nat) : hdrLe32 s off = BitVec.ofNat 32 (hdrNumber s.hdr off) := by
  have h0 := (fileByte s.hdr off).isLt
  have h1 := (fileByte s.hdr (off + 1)).isLt
  have h2 := (fileByte s.hdr (off + 2)).isLt
  have h3 := (fileByte s.hdr (off + 3)).isLt
  apply BitVec.eq_of_toNat_eq
  rw [BitVec.toNat_ofNat, Nat.mod_eq_of_lt (hdrNumber_lt _ _)]
  simp only [hdrLe32, le32, BitVec.toNat_append, hdrNumber]
  rw [← Nat.shiftLeft_add_eq_or_of_lt (by omega), ← Nat.shiftLeft_add_eq_or_of_lt (by omega),
    ← Nat.shiftLeft_add_eq_or_of_lt (by omega)]
  simp only [Nat.shiftLeft_eq]
  omega

/-- What `Estimate()` leaves (R114). -/
theorem estimated_eq (s : State) :
    s.estimated = { s with
      width := BitVec.ofNat 32 (hdrNumber s.hdr 18), height := BitVec.ofNat 32 (hdrNumber s.hdr 22)
      cap := BitVec.ofNat 64 (headerCapacity s.hdr) } := by
  simp only [State.estimated, hdrLe32_eq, capOf, capBytes, headerCapacity, BitVec.toNat_ofNat]
  rw [Nat.mod_eq_of_lt (hdrNumber_lt _ _), Nat.mod_eq_of_lt (hdrNumber_lt _ _)]

/-- What CAPCHECK leaves when the frame fits (R119, R173). -/
def State.checked (s : State) : State :=
  { s with
    width := BitVec.ofNat 32 (hdrNumber s.hdr 18), height := BitVec.ofNat 32 (hdrNumber s.hdr 22)
    cap := BitVec.ofNat 64 (headerCapacity s.hdr), result := 1 }

theorem insufficient_estimated (s : State) :
    insufficient s.estimated = decide (headerCapacity s.hdr < frameBytes s) := by
  rw [estimated_eq]
  simp only [insufficient, BitVec.toNat_ofNat]
  rw [Nat.mod_eq_of_lt ((headerCapacity_lt _).trans (by decide))]
  rfl

theorem capCheck_eq (s : State) :
    capCheck s = if insufficient s.estimated then .error ⟨.insufficientCapacity, none⟩ s.estimated.capacityChecked
      else .ok () s.estimated.capacityChecked := by
  simp only [capCheck, estimate, Engine.modify_bind]
  show (if !(!insufficient s.estimated) then _ else _ : Engine Unit) _ = _
  cases insufficient s.estimated <;> rfl

theorem capCheck_ok {s : State} (h : frameBytes s ≤ headerCapacity s.hdr) : capCheck s = .ok () s.checked := by
  have hi : insufficient s.estimated = false := by simpa [insufficient_estimated] using h
  rw [capCheck_eq, hi]
  simp only [State.capacityChecked, hi]
  rw [estimated_eq]
  rfl

theorem capCheck_fail {s : State} (h : headerCapacity s.hdr < frameBytes s) :
    capCheck s = .error ⟨.insufficientCapacity, none⟩
      { s.checked with result := 0, status := statusInsufficient s.status } := by
  have hi : insufficient s.estimated = true := by simpa [insufficient_estimated] using h
  rw [capCheck_eq, hi]
  simp only [State.capacityChecked, hi]
  rw [estimated_eq]
  rfl

/-! ## The fields of the frame, packed -/

section pack
variable {X : State} {rest : List Item} {n : Nat} {out : List Byte} {h : Hidden} (k : Engine Unit)

/-- HEADER, CAPCHECK and HDRCOPY, when the header is there, the frame fits, and the writes succeed (R172 to R174). -/
theorem headerStates_ok {s : State} (hb : Vector Byte 54) (hi : s.cin.items = asItems hb.toList ++ rest)
    (hc : frameBytes s ≤ headerCapacity hb) (hf : ∀ k, k < 54 → s.sout.attempts + k ∉ s.sout.fails) :
    ∃ h, (do setSeq .header; readHeader; setSeq .capcheck; capCheck; setSeq .hdrcopy; emitHeader; k : Engine Unit) s =
      k (((s.withHdr hb).checked.withSeq .hdrcopy).moved rest 54 hb.toList h) := by
  obtain ⟨h1, e1⟩ := readHeader_ok (s := s.withSeq .header) hb (rest := rest) hi
  simp only [setSeq_bind]
  rw [Engine.bind_ok e1, setSeq_bind, Engine.bind_ok (capCheck_ok hc), setSeq_bind]
  obtain ⟨h2, e2⟩ := emitHeader_ok
    (s := (((((s.withSeq .header).readTo rest Config.hdrLen).withHdr hb).withHidden h1).withSeq .capcheck).checked.withSeq
      .hdrcopy) hf
  refine ⟨h2, ?_⟩
  rw [Engine.bind_ok e2]
  rfl

/-- MARKER (R175). -/
theorem markerState_ok {c : List Byte} (hm : markerLenOk X = true) (hl : c.length = 8 * X.mlen.toNat)
    (hf : ∀ j, j < 8 * X.mlen.toNat → X.sout.attempts + out.length + j ∉ X.sout.fails) :
    ∃ h', (do setSeq .marker; packMarker; k : Engine Unit) (X.moved (asItems c ++ rest) n out h) =
      k ((X.withSeq .marker).moved rest (n + 8 * X.mlen.toNat) (out ++ embed c (bitString (markerBytes X))) h') := by
  obtain ⟨h', e⟩ := packMarker_ok (s := (X.moved (asItems c ++ rest) n out h).withSeq .marker) (cs := c) (rest := rest) hm hl
    rfl hf
  refine ⟨h', ?_⟩
  rw [setSeq_bind, Engine.bind_ok e]
  simp only [State.moved, State.withHidden_withSeq, State.readTo_withSeq, State.stegoOut_withSeq, State.withHidden_readTo,
    State.withHidden_stegoOut, State.stegoOut_readTo, State.readTo_readTo, State.stegoOut_stegoOut, State.withHidden_withHidden]
  rfl

/-- EXTLEN and PAYLEN: a length field, its register chosen by `g` (R176, R178). -/
theorem lengthState_ok {c : List Byte} (q : Seq) (g : State → Word)
    (hg : g ((X.moved (asItems c ++ rest) n out h).withSeq q) = g X) (hl : c.length = 32)
    (hf : ∀ j, j < 32 → X.sout.attempts + out.length + j ∉ X.sout.fails) :
    ∃ h', (do setSeq q; packInt32 (g (← get)); k : Engine Unit) (X.moved (asItems c ++ rest) n out h) =
      k ((X.withSeq q).moved rest (n + 32) (out ++ embed c (bitString (be32 (g X)))) h') := by
  obtain ⟨h', e⟩ := packBits_ok (g X) (s := (X.moved (asItems c ++ rest) n out h).withSeq q) (cs := c) (rest := rest) hl rfl hf
  refine ⟨h', ?_⟩
  rw [setSeq_bind, Engine.get_bind, hg, packInt32, Engine.bind_ok e, bitString_be32]
  simp only [State.moved, State.withHidden_withSeq, State.readTo_withSeq, State.stegoOut_withSeq, State.withHidden_readTo,
    State.withHidden_stegoOut, State.stegoOut_readTo, State.readTo_readTo, State.stegoOut_stegoOut, State.withHidden_withHidden]

/-- EXT (R177). -/
theorem extState_ok {c x : List Byte} {xs : List Item} (hx : x.length = X.elen.toNat) (hxi : X.ein.items = asItems x ++ xs)
    (hl : c.length = 8 * X.elen.toNat)
    (hf : ∀ j, j < 8 * X.elen.toNat → X.sout.attempts + out.length + j ∉ X.sout.fails) :
    ∃ h', (do setSeq .ext; packExt; k : Engine Unit) (X.moved (asItems c ++ rest) n out h) =
      k (((X.withSeq .ext).sourceTo .ein xs).moved rest (n + 8 * X.elen.toNat) (out ++ embed c (bitString x)) h') := by
  obtain ⟨h', e⟩ := packSource_ok (p := .ein) (by decide) (s := (X.moved (asItems c ++ rest) n out h).withSeq .ext) (cs := c)
    (rest := rest) hx hxi hl rfl hf
  refine ⟨h', ?_⟩
  rw [setSeq_bind, packExt]
  refine (Engine.bind_ok (Eq.trans rfl e)).trans ?_
  simp only [State.moved, State.withHidden_withSeq, State.readTo_withSeq, State.stegoOut_withSeq, State.withHidden_readTo,
    State.withHidden_stegoOut, State.stegoOut_readTo, State.readTo_readTo, State.stegoOut_stegoOut, State.withHidden_withHidden,
    State.withHidden_sourceTo]
  rfl

/-- PAYLOAD (R179). -/
theorem payloadState_ok {c y : List Byte} {ys : List Item} (hy : y.length = X.plen.toNat)
    (hyi : X.pin.items = asItems y ++ ys) (hl : c.length = 8 * X.plen.toNat)
    (hf : ∀ j, j < 8 * X.plen.toNat → X.sout.attempts + out.length + j ∉ X.sout.fails) :
    ∃ h', (do setSeq .payload; packPayload; k : Engine Unit) (X.moved (asItems c ++ rest) n out h) =
      k (((X.withSeq .payload).sourceTo .pin ys).moved rest (n + 8 * X.plen.toNat) (out ++ embed c (bitString y)) h') := by
  obtain ⟨h', e⟩ := packSource_ok (p := .pin) (by decide) (s := (X.moved (asItems c ++ rest) n out h).withSeq .payload)
    (cs := c) (rest := rest) hy hyi hl rfl hf
  refine ⟨h', ?_⟩
  rw [setSeq_bind, packPayload]
  refine (Engine.bind_ok (Eq.trans rfl e)).trans ?_
  simp only [State.moved, State.withHidden_withSeq, State.readTo_withSeq, State.stegoOut_withSeq, State.withHidden_readTo,
    State.withHidden_stegoOut, State.stegoOut_readTo, State.readTo_readTo, State.stegoOut_stegoOut, State.withHidden_withHidden,
    State.withHidden_sourceTo]
  rfl

/-- TRAILER (R180). -/
theorem trailerState_ok {c : List Byte} (hf : ∀ j, j < c.length → X.sout.attempts + out.length + j ∉ X.sout.fails) :
    (do setSeq .trailer; copyRest : Engine Unit) (X.moved (asItems c) n out h) =
      .ok () ((X.withSeq .trailer).moved [] (n + c.length) (out ++ c) h) := by
  rw [setSeq_bind, copyRest_ok (cs := c) rfl hf]
  simp only [State.moved, State.withHidden_withSeq, State.readTo_withSeq, State.stegoOut_withSeq, State.withHidden_readTo,
    State.withHidden_stegoOut, State.stegoOut_readTo, State.readTo_readTo, State.stegoOut_stegoOut]

end pack

/-! ## The fields of the frame, unpacked -/

section unpack
variable {X : State} {rest : List Item} {n : Nat} {h : Hidden} (k : Engine Unit)

/-- The clear of R95 and HEADER of DECODE (R202). -/
theorem decodeHeader_ok {s : State} (hb : Vector Byte 54) (hi : s.cin.items = asItems hb.toList ++ rest) :
    ∃ h, (do clearDecoded; setSeq .header; readHeader; k : Engine Unit) s =
      k (((({ s with rxElen := 0, rxPlen := 0 } : State).withHdr hb).withSeq .header).moved rest 54 [] h) := by
  obtain ⟨h1, e1⟩ := readHeader_ok (s := ({ s with rxElen := 0, rxPlen := 0 } : State).withSeq .header) hb (rest := rest) hi
  refine ⟨h1, ?_⟩
  rw [clearDecoded, Engine.modify_bind, setSeq_bind, Engine.bind_ok e1, State.moved, State.stegoOut_nil]
  rfl

/-- MARKER when the bytes read are the marker (R203). -/
theorem decodeMarker_ok {c : List Byte} (hm : markerLenOk X = true) (hb : lsbs c = bitString (markerBytes X)) :
    ∃ h', (do setSeq .marker; unpackMarker; compareMarker; k : Engine Unit) (X.moved (asItems c ++ rest) n [] h) =
      k ((X.withSeq .marker).moved rest (n + 8 * X.mlen.toNat) [] h') := by
  have hml := markerBytes_length hm
  have h64 : X.mlen.toNat ≤ 64 := (markerLenOk_iff.mp hm).2.trans markerMax_bounds.2
  obtain ⟨h1, e1, hr⟩ := unpackMarker_ok (s := (X.moved (asItems c ++ rest) n [] h).withSeq .marker) (rest := rest) hml h64 hb
    rfl
  obtain ⟨h2, e2⟩ := compareMarker_ok
    (s := (((X.moved (asItems c ++ rest) n [] h).withSeq .marker).readTo rest (8 * X.mlen.toNat)).withHidden h1)
    (fun j hj => by
      have hj' : j < (markerBytes X).length := by rw [hml]; exact hj
      exact (hr j hj').trans (fileByte_markerBytes hj').symm)
  refine ⟨h2, ?_⟩
  rw [setSeq_bind, Engine.bind_ok e1]
  refine (Engine.bind_ok e2).trans ?_
  simp only [State.moved, State.stegoOut_nil, State.withHidden_withSeq, State.readTo_withSeq, State.withHidden_readTo,
    State.readTo_readTo, State.withHidden_withHidden]

/-- MARKER when the bytes read differ from the marker (R203, R254). -/
theorem decodeMarker_mismatch {c ms : List Byte} (hm : markerLenOk X = true) (hms : ms.length = X.mlen.toNat)
    (hb : lsbs c = bitString ms) (hne : ms ≠ markerBytes X) :
    ∃ h', (do setSeq .marker; unpackMarker; compareMarker; k : Engine Unit) (X.moved (asItems c ++ rest) n [] h) =
      .error ⟨.markerMismatch, some .cin⟩ ((X.withSeq .marker).moved rest (n + 8 * X.mlen.toNat) [] h') := by
  have hml := markerBytes_length hm
  have h64 : X.mlen.toNat ≤ 64 := (markerLenOk_iff.mp hm).2.trans markerMax_bounds.2
  obtain ⟨h1, e1, hr⟩ := unpackMarker_ok (s := (X.moved (asItems c ++ rest) n [] h).withSeq .marker) (rest := rest) hms h64 hb
    rfl
  obtain ⟨h2, e2⟩ := compareMarker_mismatch
    (s := (((X.moved (asItems c ++ rest) n [] h).withSeq .marker).readTo rest (8 * X.mlen.toNat)).withHidden h1) (by
      by_contra hall
      refine hne (List.ext_getElem (by rw [hms, hml]) fun j h1 h2 => ?_)
      by_contra hj
      exact hall ⟨j, by rw [hms] at h1; exact h1, fun e => hj ((hr j h1).symm.trans (e.trans (fileByte_markerBytes h2)))⟩)
  refine ⟨h2, ?_⟩
  rw [setSeq_bind, Engine.bind_ok e1]
  refine (Engine.bind_error e2).trans ?_
  simp only [State.moved, State.stegoOut_nil, State.withHidden_withSeq, State.readTo_withSeq, State.withHidden_readTo,
    State.readTo_readTo, State.withHidden_withHidden]

/-- EXTLEN (R205). -/
theorem decodeExtLen_ok {c : List Byte} {e : Word} (hb : lsbs c = bitString (be32 e)) :
    ∃ h', (do setSeq .extlen; readExtLen; k : Engine Unit) (X.moved (asItems c ++ rest) n [] h) =
      k (({ X with rxElen := e } : State).withSeq .extlen |>.moved rest (n + 32) [] h') := by
  obtain ⟨h', e', -⟩ := unpackInt32_ok (s := (X.moved (asItems c ++ rest) n [] h).withSeq .extlen) (rest := rest)
    (by rw [hb, bitString_be32]) rfl
  refine ⟨h', ?_⟩
  rw [setSeq_bind, readExtLen]
  refine (Engine.bind_ok ((Engine.bind_ok e').trans (Engine.modify_apply _ _))).trans ?_
  simp only [State.moved, State.stegoOut_nil, State.withHidden_withSeq, State.readTo_withSeq, State.withHidden_readTo,
    State.readTo_readTo, State.withHidden_withHidden]
  congr 1

/-- PAYLEN (R207). -/
theorem decodePayLen_ok {c : List Byte} {p : Word} (hb : lsbs c = bitString (be32 p)) :
    ∃ h', (do setSeq .paylen; readPayLen; k : Engine Unit) (X.moved (asItems c ++ rest) n [] h) =
      k (({ X with rxPlen := p } : State).withSeq .paylen |>.moved rest (n + 32) [] h') := by
  obtain ⟨h', e', -⟩ := unpackInt32_ok (s := (X.moved (asItems c ++ rest) n [] h).withSeq .paylen) (rest := rest)
    (by rw [hb, bitString_be32]) rfl
  refine ⟨h', ?_⟩
  rw [setSeq_bind, readPayLen]
  refine (Engine.bind_ok ((Engine.bind_ok e').trans (Engine.modify_apply _ _))).trans ?_
  simp only [State.moved, State.stegoOut_nil, State.withHidden_withSeq, State.readTo_withSeq, State.withHidden_readTo,
    State.readTo_readTo, State.withHidden_withHidden]
  congr 1

/-- EXT (R206). -/
theorem decodeExt_ok {c x : List Byte} (hx : x.length = X.rxElen.toNat) (hb : lsbs c = bitString x)
    (hf : ∀ j, j < X.rxElen.toNat → X.eout.attempts + j ∉ X.eout.fails) :
    ∃ h', (do setSeq .ext; readExt; k : Engine Unit) (X.moved (asItems c ++ rest) n [] h) =
      k (((X.withSeq .ext).sinkOut .eout x).moved rest (n + 8 * X.rxElen.toNat) [] h') := by
  obtain ⟨h', e⟩ := unpackSink_ok (p := .eout) (s := (X.moved (asItems c ++ rest) n [] h).withSeq .ext) (rest := rest) hx hb
    rfl hf
  refine ⟨h', ?_⟩
  rw [setSeq_bind, readExt]
  refine (Engine.bind_ok (Eq.trans rfl e)).trans ?_
  simp only [State.moved, State.stegoOut_nil, State.withHidden_withSeq, State.readTo_withSeq, State.withHidden_readTo,
    State.readTo_readTo, State.withHidden_withHidden, State.withHidden_sinkOut, State.sinkOut_readTo]

/-- PAYLOAD (R208). -/
theorem decodePayload_ok {c y : List Byte} (hy : y.length = X.rxPlen.toNat) (hb : lsbs c = bitString y)
    (hf : ∀ j, j < X.rxPlen.toNat → X.pout.attempts + j ∉ X.pout.fails) :
    ∃ h', (do setSeq .payload; readPayload : Engine Unit) (X.moved (asItems c ++ rest) n [] h) =
      .ok () (((X.withSeq .payload).sinkOut .pout y).moved rest (n + 8 * X.rxPlen.toNat) [] h') := by
  obtain ⟨h', e⟩ := unpackSink_ok (p := .pout) (s := (X.moved (asItems c ++ rest) n [] h).withSeq .payload) (rest := rest) hy
    hb rfl hf
  refine ⟨h', ?_⟩
  rw [setSeq_bind, readPayload]
  refine (Eq.trans rfl e).trans ?_
  simp only [State.moved, State.stegoOut_nil, State.withHidden_withSeq, State.readTo_withSeq, State.withHidden_readTo,
    State.readTo_readTo, State.withHidden_withHidden, State.withHidden_sinkOut, State.sinkOut_readTo]

end unpack

end Sys2Proof.Machine
end

