-- ==== Sys2Proof/Laws/Inversion.lean ====
section
/-! SUPPORT. Laws/Inversion.lean: what a procedure of the spec did, given that it completed: the bytes it took, the writes that
succeeded, the state it left. -/

namespace Sys2Proof.Machine

/-! ## Loops and transfers that completed -/

theorem forFrom_inv {body : Nat → Engine Unit} {P : Nat → State → Prop} :
    ∀ (n i : Nat) (s u : State), (∀ j t v, i ≤ j → j < i + n → P j t → body j t = .ok () v → P (j + 1) v) → P i s →
      forFrom body n i s = .ok () u → P (i + n) u
  | 0, _, _, _, _, hp, h => by cases h; exact hp
  | n + 1, i, s, u, hb, hp, h => by
    rw [forFrom_succ, Engine.bind_eq_ok_iff] at h
    obtain ⟨_, t, h1, h2⟩ := h
    have := forFrom_inv n (i + 1) t u (fun j v w h3 h4 => hb j v w (by omega) (by omega))
      (hb i s t (Nat.le_refl i) (by omega) hp h1) h2
    rwa [show i + 1 + n = i + (n + 1) by omega] at this

/-- A loop that completed carried `P` through every turn. -/
theorem forUpTo_inv {body : Nat → Engine Unit} {P : Nat → State → Prop} {n : Nat} {s u : State}
    (h : forUpTo n body s = .ok () u) (hp : P 0 s) (hb : ∀ j t v, j < n → P j t → body j t = .ok () v → P (j + 1) v) :
    P n u := by
  have := forFrom_inv n 0 s u (fun j t v _ h2 => hb j t v (by omega)) hp h
  rwa [Nat.zero_add] at this

theorem stegoWrite_inv {s t : State} {b : Byte} (h : stegoWrite b s = .ok () t) :
    s.sout.attempts ∉ s.sout.fails ∧ t = s.stegoOut [b] := by
  obtain ⟨hi, e⟩ | ⟨hi, e⟩ := stegoWrite_cases b s <;> rw [e] at h <;> cases h
  exact ⟨hi, rfl⟩

theorem sourceRead_inv {p : InId} {s t : State} {b : Byte} (h : sourceRead p s = .ok b t) :
    ∃ rest, (s.inPort p).items = .byte b :: rest ∧ t = s.sourceTo p rest := by
  obtain ⟨c, rest, hi, e⟩ | ⟨rest, hi, e⟩ | ⟨hi, e⟩ := sourceRead_cases p s <;> rw [e] at h <;> cases h
  exact ⟨rest, hi, rfl⟩

/-! ## Exhaustive cases -/

/-- A stream holds `n` bytes in front, or stops before. -/
theorem items_split (n : Nat) (l : List Item) :
    (∃ cs rest, cs.length = n ∧ l = asItems cs ++ rest) ∨
      ∃ cs tail, cs.length < n ∧ l = asItems cs ++ tail ∧ ∀ b m, tail ≠ .byte b :: m := by
  induction n generalizing l with
  | zero => exact .inl ⟨[], l, rfl, rfl⟩
  | succ n ih =>
    cases l with
    | nil => exact .inr ⟨[], [], by simp, rfl, by simp⟩
    | cons i l =>
      cases i with
      | err => exact .inr ⟨[], .err :: l, by simp, rfl, by simp⟩
      | byte b =>
        obtain ⟨cs, rest, h1, h2⟩ | ⟨cs, tail, h1, h2, h3⟩ := ih l
        · exact .inl ⟨b :: cs, rest, by simp [h1], by simp [h2]⟩
        · exact .inr ⟨b :: cs, tail, by simpa using h1, by simp [h2], h3⟩

/-- The next `n` writes succeed, or one of them is the first to fail. -/
theorem writes_split (q : OutPort) (n : Nat) :
    (∀ k, k < n → q.attempts + k ∉ q.fails) ∨
      ∃ k, k < n ∧ (∀ j, j < k → q.attempts + j ∉ q.fails) ∧ q.attempts + k ∈ q.fails := by
  induction n with
  | zero => exact .inl fun k hk => absurd hk (by omega)
  | succ n ih =>
    obtain h | ⟨k, h1, h2⟩ := ih
    · by_cases hn : q.attempts + n ∈ q.fails
      · exact .inr ⟨n, by omega, h, hn⟩
      · refine .inl fun k hk => ?_
        obtain hk | rfl : k < n ∨ k = n := by omega
        · exact h k hk
        · exact hn
    · exact .inr ⟨k, by omega, h2⟩

/-- A pack that completed took `w` carrier bytes and wrote `w` stego bytes (R132). -/
theorem packBits_inv {w : Nat} {v : BitVec w} {s t : State} (h : packBits v s = .ok () t) :
    ∃ cs rest g, cs.length = w ∧ s.cin.items = asItems cs ++ rest ∧ (∀ k, k < w → s.sout.attempts + k ∉ s.sout.fails) ∧
      t = ((s.readTo rest w).stegoOut (embed cs (bitsOf v))).withHidden g := by
  obtain ⟨cs, rest, hl, hi⟩ | ⟨cs, tail, hl, hi, hr⟩ := items_split w s.cin.items
  · obtain hf | ⟨k, hk, hf, hn⟩ := writes_split s.sout w
    · obtain ⟨g, e⟩ := packBits_ok v hl hi hf
      rw [e] at h
      cases h
      exact ⟨cs, rest, g, hl, hi, hf, rfl⟩
    · obtain ⟨g, u, e, -⟩ := packBits_write_stop v (cs := cs.take (k + 1)) (rest := asItems (cs.drop (k + 1)) ++ rest) hk
        (by simp; omega) (by rw [← List.append_assoc, ← asItems_append, List.take_append_drop, hi]) hf hn
      rw [e] at h
      cases h
  · obtain hf | ⟨k, hk, hf, hn⟩ := writes_split s.sout cs.length
    · obtain ⟨g, e⟩ := packBits_carrier_stop v hl hi hr hf
      rw [e] at h
      cases h
    · obtain ⟨g, u, e, -⟩ := packBits_write_stop v (w := w) (cs := cs.take (k + 1)) (rest := asItems (cs.drop (k + 1)) ++ tail)
        (by omega) (by simp; omega) (by rw [← List.append_assoc, ← asItems_append, List.take_append_drop, hi]) hf hn
      rw [e] at h
      cases h

/-- An unpack that completed took `w` carrier bytes and answers the number their LSBs spell (R150, R153). -/
theorem unpackBits_inv {w : Nat} (hw : w ≤ 32) {s t : State} {v : Word} (h : unpackBits w s = .ok v t) :
    ∃ cs rest g, cs.length = w ∧ s.cin.items = asItems cs ++ rest ∧ v = BitVec.ofNat 32 (numberOf (lsbs cs)) ∧
      t = (s.readTo rest w).withHidden g := by
  obtain ⟨cs, rest, hl, hi⟩ | ⟨cs, tail, hl, hi, hr⟩ := items_split w s.cin.items
  · obtain ⟨g, e, -⟩ := unpackBits_ok hw hl hi
    rw [e] at h
    cases h
    exact ⟨cs, rest, g, hl, hi, rfl, rfl⟩
  · obtain ⟨g, e⟩ := unpackBits_stop hw hl hi hr
    rw [e] at h
    cases h

/-- A header read that completed took the 54 bytes that HDR now holds (R112). -/
theorem readHeader_inv {s t : State} (h : readHeader s = .ok () t) :
    ∃ (hb : Vector Byte Config.hdrLen) (rest : List Item) (g : Hidden),
      s.cin.items = asItems hb.toList ++ rest ∧ t = ((s.readTo rest Config.hdrLen).withHdr hb).withHidden g := by
  obtain ⟨cs, rest, hl, hi⟩ | ⟨cs, tail, hl, hi, hr⟩ := items_split 54 s.cin.items
  · obtain ⟨g, e⟩ := readHeader_ok (⟨cs.toArray, by simpa using hl⟩ : Vector Byte 54) (s := s) (rest := rest) (by simpa using hi)
    rw [e] at h
    cases h
    exact ⟨_, rest, g, by simpa using hi, rfl⟩
  · obtain ⟨g, f, e, -⟩ := readHeader_stop hl hi hr
    rw [e] at h
    cases h

/-- A header write that completed wrote HDR (R230). -/
theorem emitHeader_inv {s t : State} (h : emitHeader s = .ok () t) :
    (∀ k, k < 54 → s.sout.attempts + k ∉ s.sout.fails) ∧ ∃ g, t = (s.stegoOut s.hdr.toList).withHidden g := by
  have hf := forUpTo_inv (P := fun i t => (∀ k, k < i → s.sout.attempts + k ∉ s.sout.fails) ∧
      ∃ g, t = (s.stegoOut (s.hdr.toList.take i)).withHidden g) h
    ⟨fun k hk => absurd hk (by omega), s.hidden, by simp⟩
    (fun j t u hj hP hb => by
      obtain ⟨hf, g, rfl⟩ := hP
      rw [Engine.modify_bind, Engine.get_bind, State.withIdx_eq, State.withHidden_withHidden] at hb
      obtain ⟨hn, rfl⟩ := stegoWrite_inv hb
      have hlen : (s.hdr.toList.take j).length = j := by simp; omega
      simp only [State.withHidden_sout, State.stegoOut_attempts, State.stegoOut_fails, hlen] at hn
      have hj' : j < s.hdr.toList.length := by simpa using hj
      refine ⟨fun k hk => ?_, { g with idx := BitVec.ofNat 33 j }, ?_⟩
      · obtain hk | rfl : k < j ∨ k = j := by omega
        · exact hf k hk
        · exact hn
      · rw [List.take_succ_eq_append_getElem hj', State.withHidden_stegoOut, State.stegoOut_stegoOut]
        have : fileByte ((s.stegoOut (s.hdr.toList.take j)).withHidden
            { g with idx := BitVec.ofNat 33 j }).hdr j = s.hdr.toList[j] := by
          show fileByte s.hdr j = _
          rw [fileByte_toList, List.getElem?_eq_getElem hj', Option.getD_some]
        rw [← this]
        rfl)
  refine ⟨hf.1, hf.2.imp fun g e => ?_⟩
  rw [e, List.take_of_length_le (by simp)]

/-- Packing the marker, completed (R175). -/
theorem packMarker_inv {s t : State} (hm : markerLenOk s = true) (h : packMarker s = .ok () t) :
    ∃ cs rest g, cs.length = 8 * s.mlen.toNat ∧ s.cin.items = asItems cs ++ rest ∧
      (∀ k, k < 8 * s.mlen.toNat → s.sout.attempts + k ∉ s.sout.fails) ∧
      t = ((s.readTo rest (8 * s.mlen.toNat)).stegoOut (embed cs (bitString (markerBytes s)))).withHidden g := by
  have hml := markerBytes_length hm
  rw [packMarker, Engine.get_bind] at h
  obtain ⟨cs, rest, g, h1, h2, h3, h4⟩ := forUpTo_inv (P := fun i t => ∃ cs rest g, cs.length = 8 * i ∧
      s.cin.items = asItems cs ++ rest ∧ (∀ k, k < 8 * i → s.sout.attempts + k ∉ s.sout.fails) ∧
      t = ((s.readTo rest (8 * i)).stegoOut (embed cs (bitString ((markerBytes s).take i)))).withHidden g) h
    ⟨[], s.cin.items, s.hidden, rfl, rfl, fun k hk => absurd hk (by omega), by simp [embed]⟩
    (fun j t u hj hP hb => by
      obtain ⟨cs, rest, g, hl, hi, hf, rfl⟩ := hP
      have hxj : j < (markerBytes s).length := by omega
      rw [Engine.modify_bind, Engine.get_bind, State.withIdx_eq, State.withHidden_withHidden] at hb
      obtain ⟨ds, rest', g', hl', hi', hf', rfl⟩ := packBits_inv hb
      have hi' : rest = asItems ds ++ rest' := hi'
      have hlen : (embed cs (bitString ((markerBytes s).take j))).length = 8 * j := by simp; omega
      simp only [State.withHidden_sout, State.stegoOut_attempts, State.stegoOut_fails, hlen] at hf'
      refine ⟨cs ++ ds, rest', g', by simp; omega, by simp [hi, hi'], fun k hk => ?_, ?_⟩
      · by_cases hk' : k < 8 * j
        · exact hf k hk'
        · have := hf' (k - 8 * j) (by omega)
          have hs : s.sout.attempts + 8 * j + (k - 8 * j) = s.sout.attempts + k := by omega
          rw [← hs]
          exact this
      · rw [List.take_succ_eq_append_getElem hxj, bitString_append, bitString_singleton, embed_append (by simp; omega),
          ← fileByte_markerBytes hxj]
        simp only [State.withHidden_readTo, State.withHidden_stegoOut, State.withHidden_withHidden, State.stegoOut_readTo,
          State.readTo_readTo, State.stegoOut_stegoOut]
        rfl)
  refine ⟨cs, rest, g, h1, h2, h3, ?_⟩
  rw [h4, List.take_of_length_le hml.le]

/-- Packing the bytes of PIN or EIN, completed (R177, R179). -/
theorem packSource_inv {p : InId} (hp : p ≠ .cin) {n : Nat} {s t : State}
    (h : forUpTo n (fun i => do modify (·.withIdx i); let b ← sourceRead p; packByte b) s = .ok () t) :
    ∃ xs xrest cs rest g, xs.length = n ∧ (s.inPort p).items = asItems xs ++ xrest ∧ cs.length = 8 * n ∧
      s.cin.items = asItems cs ++ rest ∧ (∀ k, k < 8 * n → s.sout.attempts + k ∉ s.sout.fails) ∧
      t = (((s.readTo rest (8 * n)).stegoOut (embed cs (bitString xs))).sourceTo p xrest).withHidden g :=
  forUpTo_inv (P := fun i t => ∃ xs xrest cs rest g, xs.length = i ∧ (s.inPort p).items = asItems xs ++ xrest ∧
      cs.length = 8 * i ∧ s.cin.items = asItems cs ++ rest ∧ (∀ k, k < 8 * i → s.sout.attempts + k ∉ s.sout.fails) ∧
      t = (((s.readTo rest (8 * i)).stegoOut (embed cs (bitString xs))).sourceTo p xrest).withHidden g) h
    ⟨[], (s.inPort p).items, [], s.cin.items, s.hidden, rfl, rfl, rfl, rfl, fun k hk => absurd hk (by omega), by
      simp [embed, State.sourceTo_self]⟩
    (fun j t u hj hP hb => by
      obtain ⟨xs, xrest, cs, rest, g, hx, hxi, hl, hi, hf, rfl⟩ := hP
      rw [Engine.modify_bind, State.withIdx_eq, State.withHidden_withHidden, Engine.bind_eq_ok_iff] at hb
      obtain ⟨b, t', h1, h2⟩ := hb
      obtain ⟨xrest', hx', rfl⟩ := sourceRead_inv h1
      rw [State.withHidden_inPort, State.sourceTo_items] at hx'
      obtain ⟨ds, rest', g', hl', hi', hf', rfl⟩ := packBits_inv h2
      rw [State.withHidden_sourceTo, State.sourceTo_sourceTo, State.withHidden_cin, State.sourceTo_cin hp] at hi'
      have hi' : rest = asItems ds ++ rest' := hi'
      have hlen : (embed cs (bitString xs)).length = 8 * j := by simp; omega
      simp only [State.withHidden_sourceTo, State.withHidden_sout, State.sourceTo_sout, State.stegoOut_attempts,
        State.stegoOut_fails, hlen] at hf'
      refine ⟨xs ++ [b], xrest', cs ++ ds, rest', g', by simp [hx], by simp [hxi, hx'], by simp; omega, by simp [hi, hi'],
        fun k hk => ?_, ?_⟩
      · by_cases hk' : k < 8 * j
        · exact hf k hk'
        · have := hf' (k - 8 * j) (by omega)
          have hs : s.sout.attempts + 8 * j + (k - 8 * j) = s.sout.attempts + k := by omega
          rw [← hs]
          exact this
      · rw [bitString_append, bitString_singleton, embed_append (by simp; omega)]
        simp only [State.withHidden_readTo, State.withHidden_stegoOut, State.withHidden_withHidden, State.withHidden_sourceTo,
          State.sourceTo_sourceTo, State.sourceTo_readTo hp, State.sourceTo_stegoOut, State.stegoOut_readTo,
          State.readTo_readTo, State.stegoOut_stegoOut]
        rfl)

theorem copyRestWithin_inv {n : Nat} : ∀ {s t : State}, s.cin.items.length < n → copyRestWithin n s = .ok () t →
    ∃ cs, s.cin.items = asItems cs ∧ (∀ k, k < cs.length → s.sout.attempts + k ∉ s.sout.fails) := by
  induction n with
  | zero => intro s t hn; exact absurd hn (by omega)
  | succ n ih =>
    intro s t hn h
    obtain ⟨hi, -⟩ | ⟨rest, hi, e⟩ | ⟨b, rest, hi, e⟩ := copyRestWithin_cases n s
    · exact ⟨[], hi, fun k hk => absurd hk (by simp)⟩
    · rw [e] at h
      cases h
    · rw [e, Engine.bind_eq_ok_iff] at h
      obtain ⟨_, u, h1, h2⟩ := h
      obtain ⟨hf, rfl⟩ := stegoWrite_inv h1
      have hn' : rest.length < n := by
        rw [hi] at hn
        simpa using hn
      obtain ⟨cs, hc, hf'⟩ := ih hn' h2
      have hc : rest = asItems cs := hc
      refine ⟨b :: cs, by rw [hi, hc, asItems_cons], fun k hk => ?_⟩
      cases k with
      | zero => exact hf
      | succ k =>
        have := hf' k (by simpa using hk)
        rwa [State.stegoOut_attempts, State.stegoOut_fails,
          show (((s.withIn .cin { s.cin with items := rest }).countCarrier).sout.attempts + [b].length + k) =
            s.sout.attempts + (k + 1) by simp [State.withIn, State.countCarrier]; omega] at this

/-- A copy of the rest that completed moved bytes only, all of them (R234). -/
theorem copyRest_inv {s t : State} (h : copyRest s = .ok () t) :
    ∃ cs, s.cin.items = asItems cs ∧ (∀ k, k < cs.length → s.sout.attempts + k ∉ s.sout.fails) ∧
      t = (s.readTo [] cs.length).stegoOut cs := by
  have h' := h
  rw [copyRest, Engine.get_bind] at h'
  obtain ⟨cs, hi, hf⟩ := copyRestWithin_inv (by omega) h'
  rw [copyRest_ok hi hf] at h
  cases h
  exact ⟨cs, hi, hf, rfl⟩

/-! ## The states of ENCODE, completed -/

section invert
variable {X t : State} {R : List Item} {n : Nat} {out : List Byte} {h : Hidden} {k : Engine Unit}

/-- HEADER, CAPCHECK and HDRCOPY, completed: the header was there and the frame fits. -/
theorem headerStates_inv {s : State}
    (e : (do setSeq .header; readHeader; setSeq .capcheck; capCheck; setSeq .hdrcopy; emitHeader; k : Engine Unit) s =
      .ok () t) :
    ∃ (hb : Vector Byte 54) (rest : List Item) (h : Hidden), s.cin.items = asItems hb.toList ++ rest ∧
      frameBytes s ≤ headerCapacity hb ∧ (∀ j, j < 54 → s.sout.attempts + j ∉ s.sout.fails) ∧
      k (((s.withHdr hb).checked.withSeq .hdrcopy).moved rest 54 hb.toList h) = .ok () t := by
  rw [setSeq_bind, Engine.bind_eq_ok_iff] at e
  obtain ⟨_, t1, e1, e⟩ := e
  obtain ⟨hb, rest, g1, hi, rfl⟩ := readHeader_inv e1
  by_cases hc : frameBytes s ≤ headerCapacity hb
  · rw [setSeq_bind, Engine.bind_ok (capCheck_ok hc), setSeq_bind, Engine.bind_eq_ok_iff] at e
    obtain ⟨_, t3, e3, e⟩ := e
    obtain ⟨hf, g3, rfl⟩ := emitHeader_inv e3
    exact ⟨hb, rest, g3, hi, hc, hf, e⟩
  · rw [setSeq_bind, Engine.bind_error (capCheck_fail (by exact Nat.lt_of_not_le hc))] at e
    cases e

/-- MARKER, completed. -/
theorem markerState_inv (hm : markerLenOk X = true)
    (e : (do setSeq .marker; packMarker; k : Engine Unit) (X.moved R n out h) = .ok () t) :
    ∃ c rest h', c.length = 8 * X.mlen.toNat ∧ R = asItems c ++ rest ∧
      (∀ j, j < 8 * X.mlen.toNat → X.sout.attempts + out.length + j ∉ X.sout.fails) ∧
      k ((X.withSeq .marker).moved rest (n + 8 * X.mlen.toNat) (out ++ embed c (bitString (markerBytes X))) h') = .ok () t := by
  have e' := e
  rw [setSeq_bind, Engine.bind_eq_ok_iff] at e'
  obtain ⟨_, t1, e1, -⟩ := e'
  obtain ⟨c, rest, g, hl, hi, hf, -⟩ := packMarker_inv (by exact hm) e1
  have hi : R = asItems c ++ rest := hi
  subst hi
  obtain ⟨h', e2⟩ := markerState_ok (X := X) (rest := rest) (n := n) (out := out) (h := h) k hm hl hf
  exact ⟨c, rest, h', hl, rfl, hf, e2.symm.trans e⟩

/-- EXTLEN and PAYLEN, completed. -/
theorem lengthState_inv (q : Seq) (g : State → Word) (hg : ∀ R', g ((X.moved R' n out h).withSeq q) = g X)
    (e : (do setSeq q; packInt32 (g (← get)); k : Engine Unit) (X.moved R n out h) = .ok () t) :
    ∃ c rest h', c.length = 32 ∧ R = asItems c ++ rest ∧
      (∀ j, j < 32 → X.sout.attempts + out.length + j ∉ X.sout.fails) ∧
      k ((X.withSeq q).moved rest (n + 32) (out ++ embed c (bitString (be32 (g X)))) h') = .ok () t := by
  have e' := e
  rw [setSeq_bind, Engine.get_bind, Engine.bind_eq_ok_iff] at e'
  obtain ⟨_, t1, e1, -⟩ := e'
  obtain ⟨c, rest, g', hl, hi, hf, -⟩ := packBits_inv e1
  have hi : R = asItems c ++ rest := hi
  subst hi
  obtain ⟨h', e2⟩ := lengthState_ok (X := X) (rest := rest) (n := n) (out := out) (h := h) k q g (hg _) hl hf
  exact ⟨c, rest, h', hl, rfl, hf, e2.symm.trans e⟩

/-- EXT, completed. -/
theorem extState_inv (e : (do setSeq .ext; packExt; k : Engine Unit) (X.moved R n out h) = .ok () t) :
    ∃ x xs c rest h', x.length = X.elen.toNat ∧ X.ein.items = asItems x ++ xs ∧ c.length = 8 * X.elen.toNat ∧
      R = asItems c ++ rest ∧ (∀ j, j < 8 * X.elen.toNat → X.sout.attempts + out.length + j ∉ X.sout.fails) ∧
      k (((X.withSeq .ext).sourceTo .ein xs).moved rest (n + 8 * X.elen.toNat) (out ++ embed c (bitString x)) h') =
        .ok () t := by
  have e' := e
  rw [setSeq_bind, Engine.bind_eq_ok_iff] at e'
  obtain ⟨_, t1, e1, -⟩ := e'
  obtain ⟨x, xs, c, rest, g, hx, hxi, hl, hi, hf, -⟩ := packSource_inv (p := .ein) (by decide) e1
  have hi : R = asItems c ++ rest := hi
  subst hi
  obtain ⟨h', e2⟩ := extState_ok (X := X) (rest := rest) (n := n) (out := out) (h := h) k hx hxi hl hf
  exact ⟨x, xs, c, rest, h', hx, hxi, hl, rfl, hf, e2.symm.trans e⟩

/-- PAYLOAD, completed. -/
theorem payloadState_inv (e : (do setSeq .payload; packPayload; k : Engine Unit) (X.moved R n out h) = .ok () t) :
    ∃ y ys c rest h', y.length = X.plen.toNat ∧ X.pin.items = asItems y ++ ys ∧ c.length = 8 * X.plen.toNat ∧
      R = asItems c ++ rest ∧ (∀ j, j < 8 * X.plen.toNat → X.sout.attempts + out.length + j ∉ X.sout.fails) ∧
      k (((X.withSeq .payload).sourceTo .pin ys).moved rest (n + 8 * X.plen.toNat) (out ++ embed c (bitString y)) h') =
        .ok () t := by
  have e' := e
  rw [setSeq_bind, Engine.bind_eq_ok_iff] at e'
  obtain ⟨_, t1, e1, -⟩ := e'
  obtain ⟨y, ys, c, rest, g, hy, hyi, hl, hi, hf, -⟩ := packSource_inv (p := .pin) (by decide) e1
  have hi : R = asItems c ++ rest := hi
  subst hi
  obtain ⟨h', e2⟩ := payloadState_ok (X := X) (rest := rest) (n := n) (out := out) (h := h) k hy hyi hl hf
  exact ⟨y, ys, c, rest, h', hy, hyi, hl, rfl, hf, e2.symm.trans e⟩

/-- TRAILER, completed. -/
theorem trailerState_inv (e : (do setSeq .trailer; copyRest : Engine Unit) (X.moved R n out h) = .ok () t) :
    ∃ c, R = asItems c ∧ (∀ j, j < c.length → X.sout.attempts + out.length + j ∉ X.sout.fails) ∧
      t = (X.withSeq .trailer).moved [] (n + c.length) (out ++ c) h := by
  have e' := e
  rw [setSeq_bind] at e'
  obtain ⟨c, hi, hf, -⟩ := copyRest_inv e'
  have hi : R = asItems c := hi
  subst hi
  rw [trailerState_ok (X := X) (n := n) (out := out) (h := h) (c := c) hf] at e
  cases e
  exact ⟨c, rfl, hf, rfl⟩

end invert

end Sys2Proof.Machine
end

