-- ==== Sys2Proof/Laws/PerInstr.lean ====
section
/-! SUPPORT. Laws/PerInstr.lean: what holds of every command as syntax, one lemma per constructor of Instr. -/

/-- The command word of `i` is the word of its row of R92: reserved field 0 (R91), opcode assigned (R93) and mapped to `i`
(R92), and the row read as spec/opcode_table.json numbers its bits is `i`. -/
def Sys2Proof.Laws.EncodedWord.Statement (i : Sys2Proof.Instr) : Prop :=
  Sys2Proof.rsvField (Sys2Proof.encode i) = 0 ∧
    Sys2Proof.WellFormed.opcodeAssigned (Sys2Proof.encode i) = true ∧
    (Sys2Proof.opcodeField (Sys2Proof.encode i), i) ∈ Sys2Proof.opcodeMap ∧
    Sys2Proof.decodeTableWord 32 (Sys2Proof.encode i).toNat = some i

theorem Sys2Proof.Laws.EncodedWord.loadhdr : Sys2Proof.Laws.EncodedWord.Statement .loadhdr := by
  unfold Sys2Proof.Laws.EncodedWord.Statement
  decide

theorem Sys2Proof.Laws.EncodedWord.capest : Sys2Proof.Laws.EncodedWord.Statement .capest := by
  unfold Sys2Proof.Laws.EncodedWord.Statement
  decide

theorem Sys2Proof.Laws.EncodedWord.chkcap : Sys2Proof.Laws.EncodedWord.Statement .chkcap := by
  unfold Sys2Proof.Laws.EncodedWord.Statement
  decide

theorem Sys2Proof.Laws.EncodedWord.packb : Sys2Proof.Laws.EncodedWord.Statement .packb := by
  unfold Sys2Proof.Laws.EncodedWord.Statement
  decide

theorem Sys2Proof.Laws.EncodedWord.packw : Sys2Proof.Laws.EncodedWord.Statement .packw := by
  unfold Sys2Proof.Laws.EncodedWord.Statement
  decide

theorem Sys2Proof.Laws.EncodedWord.unpackb : Sys2Proof.Laws.EncodedWord.Statement .unpackb := by
  unfold Sys2Proof.Laws.EncodedWord.Statement
  decide

theorem Sys2Proof.Laws.EncodedWord.unpackw : Sys2Proof.Laws.EncodedWord.Statement .unpackw := by
  unfold Sys2Proof.Laws.EncodedWord.Statement
  decide

theorem Sys2Proof.Laws.EncodedWord.encode : Sys2Proof.Laws.EncodedWord.Statement .encode := by
  unfold Sys2Proof.Laws.EncodedWord.Statement
  decide

theorem Sys2Proof.Laws.EncodedWord.decode : Sys2Proof.Laws.EncodedWord.Statement .decode := by
  unfold Sys2Proof.Laws.EncodedWord.Statement
  decide

theorem Sys2Proof.Laws.EncodedWord.emithdr : Sys2Proof.Laws.EncodedWord.Statement .emithdr := by
  unfold Sys2Proof.Laws.EncodedWord.Statement
  decide

theorem Sys2Proof.Laws.EncodedWord.copy : Sys2Proof.Laws.EncodedWord.Statement .copy := by
  unfold Sys2Proof.Laws.EncodedWord.Statement
  decide

theorem Sys2Proof.Laws.EncodedWord.copyrest : Sys2Proof.Laws.EncodedWord.Statement .copyrest := by
  unfold Sys2Proof.Laws.EncodedWord.Statement
  decide

theorem Sys2Proof.Laws.EncodedWord.skip : Sys2Proof.Laws.EncodedWord.Statement .skip := by
  unfold Sys2Proof.Laws.EncodedWord.Statement
  decide
end

