-- ==== Sys2Proof/Laws/Stops.lean ====
section
/-! SUPPORT. Laws/Stops.lean: the loops of the engine that a stopped carrier or a failed write ends: which error they raise,
how many carrier bytes they have read by then and which bytes they have put on their port. -/

namespace Sys2Proof.Machine

/-- A write to SOUT that was attempted and failed. -/
def State.stegoMissed (s : State) : State := s.withOut .sout s.sout.missed

/-- A write to POUT or EOUT that was attempted and failed. -/
def State.sinkMissed (s : State) (p : OutId) : State := s.withOut p (s.outPort p).missed

/-- The error of a carrier that gives no further byte, `rest` being what is left on CIN (R66). -/
def stopRaise (rest : List Item) : Raise := ⟨if rest = [] then .unexpectedEndOfCarrier else .ioFailure, some .cin⟩

/-! ## One unit over a running command -/

section unit
variable {X : State} {rest : List Item} {m : Nat} {out : List Byte} {h : Hidden} {w : Nat}

theorem State.moved_withHidden (h' : Hidden) : (X.moved rest m out h).withHidden h' = X.moved rest m out h' := rfl

theorem State.moved_inPort {p : InId} (hp : p ≠ .cin) : (X.moved rest m out h).inPort p = X.inPort p := by
  cases p <;> first | exact absurd rfl hp | rfl

theorem State.moved_sourceTo {p : InId} (hp : p ≠ .cin) (l : List Item) :
    (X.moved rest m out h).sourceTo p l = (X.sourceTo p l).moved rest m out h := by
  cases p <;> first | exact absurd rfl hp | rfl

theorem State.moved_self (X : State) : X = X.moved X.cin.items 0 [] X.hidden := by simp [State.moved]

theorem packBits_moved_ok (v : BitVec w) {cs : List Byte} (hl : cs.length = w)
    (hf : ∀ k, k < w → X.sout.attempts + out.length + k ∉ X.sout.fails) :
    ∃ h', packBits v (X.moved (asItems cs ++ rest) m out h) =
      .ok () (X.moved rest (m + w) (out ++ embed cs (bitsOf v)) h') := by
  obtain ⟨h', e⟩ := packBits_ok v (s := X.moved (asItems cs ++ rest) m out h) hl rfl hf
  exact ⟨h', by rw [e]; simp [State.moved]⟩

/-- `PackBits` over a carrier that stops at byte `cs.length`, in a running command (R102). -/
theorem packBits_moved_carrier_stop (v : BitVec w) {cs : List Byte} (hl : cs.length < w) (hr : ∀ b l, rest ≠ .byte b :: l)
    (hf : ∀ k, k < cs.length → X.sout.attempts + out.length + k ∉ X.sout.fails) :
    ∃ h', packBits v (X.moved (asItems cs ++ rest) m out h) =
      .error (stopRaise rest) (X.moved rest.tail (m + cs.length) (out ++ embed cs (bitsOf v)) h') := by
  obtain ⟨h', e⟩ := packBits_carrier_stop v (s := X.moved (asItems cs ++ rest) m out h) hl rfl hr hf
  exact ⟨h', by rw [e]; simp [State.moved, stopRaise]⟩

/-- `PackBits` whose write of stego byte `k` fails, in a running command (R102, R71). -/
theorem packBits_moved_write_stop (v : BitVec w) {cs : List Byte} {k : Nat} (hk : k < w) (hl : cs.length = k + 1)
    (hf : ∀ j, j < k → X.sout.attempts + out.length + j ∉ X.sout.fails)
    (hk' : X.sout.attempts + out.length + k ∈ X.sout.fails) :
    ∃ h', packBits v (X.moved (asItems cs ++ rest) m out h) =
      .error ⟨.ioFailure, some .sout⟩
        (X.moved rest (m + (k + 1)) (out ++ (embed cs (bitsOf v)).take k) h').stegoMissed := by
  obtain ⟨h', t, e, rfl⟩ := packBits_write_stop v (s := X.moved (asItems cs ++ rest) m out h) hk hl rfl hf hk'
  refine ⟨h', ?_⟩
  rw [e]
  congr 1
  simp only [State.moved, State.withHidden_readTo, State.withHidden_stegoOut, State.stegoOut_readTo, State.readTo_readTo,
    State.stegoOut_stegoOut, State.withHidden_withHidden]
  simp only [State.stegoMissed, State.withHidden_sout]
  rfl
end unit

/-- A carrier read at EOS or at an ERR item (R66). -/
theorem carrierRead_stop {X : State} {rest : List Item} {m : Nat} {out : List Byte} {h : Hidden}
    (hr : ∀ b l, rest ≠ .byte b :: l) :
    carrierRead (X.moved rest m out h) = .error (stopRaise rest) (X.moved rest.tail m out h) := by
  cases rest with
  | nil => exact carrierRead_eos rfl
  | cons i l =>
    cases i with
    | byte b => exact absurd rfl (hr b l)
    | err => exact carrierRead_err rfl

/-! ## Bytes packed one after the other -/

theorem embed_append_of_le {ds : List Byte} {a b : List Bool} (h : ds.length ≤ a.length) : embed ds (a ++ b) = embed ds a := by
  induction ds generalizing a with
  | nil => simp [embed]
  | cons d ds ih =>
    cases a with
    | nil => simp at h
    | cons x a => exact congrArg (stegoByte d x :: ·) (ih (by simpa using h))

theorem embed_split {cs bs : List Byte} {j : Nat} (hj : j < bs.length) (h1 : 8 * j ≤ cs.length) (h2 : cs.length ≤ 8 * (j + 1)) :
    embed cs (bitString bs) =
      embed (cs.take (8 * j)) (bitString (bs.take j)) ++ embed (cs.drop (8 * j)) (bitsOf bs[j]) := by
  have e : bs = bs.take j ++ ([bs[j]] ++ bs.drop (j + 1)) := by
    rw [List.singleton_append, ← List.drop_eq_getElem_cons hj, List.take_append_drop]
  conv_lhs => rw [e, ← List.take_append_drop (8 * j) cs]
  rw [bitString_append, bitString_append, bitString_singleton, embed_append (by simp; omega),
    embed_append_of_le (by simp; omega)]

section loop
variable {body : Nat → Engine Unit} {S : Nat → State} {X : State} {bs cs : List Byte} {rest : List Item} {m : Nat}
  {out : List Byte} {h : Hidden}

/-- The whole bytes of a loop that packs `bs`, one a turn: after `i` turns the state `S i`, moved on by `8 * i` carrier
bytes. -/
theorem packLoop_turn
    (hbody : ∀ i (hi : i < bs.length) rest m out h, ∃ h',
      body i ((S i).moved rest m out h) = packBits bs[i] ((S (i + 1)).moved rest m out h'))
    (hS : ∀ i, (S i).sout = X.sout) {j : Nat} (hj : j < bs.length) (hl : 8 * (j + 1) ≤ cs.length)
    (hf : ∀ k, k < 8 → X.sout.attempts + out.length + (8 * j + k) ∉ X.sout.fails) (h : Hidden) :
    ∃ h', body j ((S j).moved (asItems (cs.drop (8 * j)) ++ rest) (m + 8 * j)
        (out ++ embed (cs.take (8 * j)) (bitString (bs.take j))) h) =
      .ok () ((S (j + 1)).moved (asItems (cs.drop (8 * (j + 1))) ++ rest) (m + 8 * (j + 1))
        (out ++ embed (cs.take (8 * (j + 1))) (bitString (bs.take (j + 1)))) h') := by
  obtain ⟨h1, e1⟩ := hbody j hj (asItems (cs.drop (8 * j)) ++ rest) (m + 8 * j)
    (out ++ embed (cs.take (8 * j)) (bitString (bs.take j))) h
  have hlen : (embed (cs.take (8 * j)) (bitString (bs.take j))).length = 8 * j := by simp; omega
  obtain ⟨h2, e2⟩ := packBits_moved_ok (X := S (j + 1)) (rest := asItems (cs.drop (8 * (j + 1))) ++ rest) (m := m + 8 * j)
    (out := out ++ embed (cs.take (8 * j)) (bitString (bs.take j))) (h := h1) bs[j] (cs := (cs.drop (8 * j)).take 8)
    (by simp; omega)
    (fun k hk => by
      have := hf k hk
      rwa [hS, List.length_append, hlen, show X.sout.attempts + (out.length + 8 * j) + k =
        X.sout.attempts + out.length + (8 * j + k) by omega])
  refine ⟨h2, ?_⟩
  rw [e1, chunk, e2]
  have e := embed_split (cs := cs.take (8 * (j + 1))) (bs := bs.take (j + 1)) (j := j) (by simp; omega) (by simp; omega)
    (by simp)
  rw [List.take_take, List.take_take, List.getElem_take, show min (8 * j) (8 * (j + 1)) = 8 * j by omega,
    show min j (j + 1) = j by omega, List.drop_take, show 8 * (j + 1) - 8 * j = 8 by omega] at e
  rw [e, List.append_assoc, show m + 8 * j + 8 = m + 8 * (j + 1) by omega]

/-- A loop that packs `bs` whose carrier stops at byte `cs.length`. -/
theorem packLoop_carrier_stop
    (hbody : ∀ i (hi : i < bs.length) rest m out h, ∃ h',
      body i ((S i).moved rest m out h) = packBits bs[i] ((S (i + 1)).moved rest m out h'))
    (hS : ∀ i, (S i).sout = X.sout) (hl : cs.length < 8 * bs.length) (hr : ∀ b l, rest ≠ .byte b :: l)
    (hf : ∀ k, k < cs.length → X.sout.attempts + out.length + k ∉ X.sout.fails) :
    ∃ h', forUpTo bs.length body ((S 0).moved (asItems cs ++ rest) m out h) =
      .error (stopRaise rest) ((S (cs.length / 8 + 1)).moved rest.tail (m + cs.length) (out ++ embed cs (bitString bs)) h') := by
  obtain ⟨r, u, hu, rfl, h', rfl⟩ := forUpTo_error (n := bs.length) (k := cs.length / 8)
    (s := (S 0).moved (asItems cs ++ rest) m out h) (body := body)
    (P := fun i t => ∃ h', t = (S i).moved (asItems (cs.drop (8 * i)) ++ rest) (m + 8 * i)
      (out ++ embed (cs.take (8 * i)) (bitString (bs.take i))) h')
    (Q := fun r u => r = stopRaise rest ∧ ∃ h', u = (S (cs.length / 8 + 1)).moved rest.tail (m + cs.length)
      (out ++ embed cs (bitString bs)) h')
    (by omega)
    (fun j t hj ht => by
      obtain ⟨h1, rfl⟩ := ht
      obtain ⟨h2, e⟩ := packLoop_turn (cs := cs) (bs := bs) (j := j) (rest := rest) (m := m) hbody hS (show j < bs.length by omega) (by omega) (fun k hk => hf _ (by omega)) h1
      exact ⟨_, e, h2, rfl⟩)
    (fun t ht => by
      obtain ⟨h1, rfl⟩ := ht
      generalize hj : cs.length / 8 = j at *
      have hjb : j < bs.length := by omega
      obtain ⟨h2, e1⟩ := hbody j hjb (asItems (cs.drop (8 * j)) ++ rest) (m + 8 * j)
        (out ++ embed (cs.take (8 * j)) (bitString (bs.take j))) h1
      have hlen : (embed (cs.take (8 * j)) (bitString (bs.take j))).length = 8 * j := by simp; omega
      have hdl : (cs.drop (8 * j)).length = cs.length - 8 * j := by simp
      obtain ⟨h3, e2⟩ := packBits_moved_carrier_stop (X := S (j + 1)) (rest := rest) (m := m + 8 * j)
        (out := out ++ embed (cs.take (8 * j)) (bitString (bs.take j))) (h := h2) bs[j] (cs := cs.drop (8 * j))
        (by omega) hr
        (fun k hk => by
          have := hf (8 * j + k) (by omega)
          rwa [hS, List.length_append, hlen, show X.sout.attempts + (out.length + 8 * j) + k =
            X.sout.attempts + out.length + (8 * j + k) by omega])
      refine ⟨_, _, e1.trans e2, rfl, h3, ?_⟩
      rw [embed_split hjb (by omega) (by omega), List.append_assoc, hdl, show m + 8 * j + (cs.length - 8 * j) = m + cs.length by omega])
    ⟨h, by simp [embed]⟩
  exact ⟨h', hu⟩

/-- A loop that packs `bs` whose write of stego byte `n` fails: `n + 1` carrier bytes read. -/
theorem packLoop_write_stop {n : Nat}
    (hbody : ∀ i (hi : i < bs.length) rest m out h, ∃ h',
      body i ((S i).moved rest m out h) = packBits bs[i] ((S (i + 1)).moved rest m out h'))
    (hS : ∀ i, (S i).sout = X.sout) (hn : n < 8 * bs.length) (hl : cs.length = n + 1)
    (hf : ∀ k, k < n → X.sout.attempts + out.length + k ∉ X.sout.fails)
    (hn' : X.sout.attempts + out.length + n ∈ X.sout.fails) :
    ∃ h', forUpTo bs.length body ((S 0).moved (asItems cs ++ rest) m out h) =
      .error ⟨.ioFailure, some .sout⟩
        ((S (n / 8 + 1)).moved rest (m + (n + 1)) (out ++ (embed cs (bitString bs)).take n) h').stegoMissed := by
  obtain ⟨r, u, hu, rfl, h', rfl⟩ := forUpTo_error (n := bs.length) (k := n / 8)
    (s := (S 0).moved (asItems cs ++ rest) m out h) (body := body)
    (P := fun i t => ∃ h', t = (S i).moved (asItems (cs.drop (8 * i)) ++ rest) (m + 8 * i)
      (out ++ embed (cs.take (8 * i)) (bitString (bs.take i))) h')
    (Q := fun r u => r = ⟨.ioFailure, some .sout⟩ ∧ ∃ h', u = ((S (n / 8 + 1)).moved rest (m + (n + 1))
      (out ++ (embed cs (bitString bs)).take n) h').stegoMissed)
    (by omega)
    (fun j t hj ht => by
      obtain ⟨h1, rfl⟩ := ht
      obtain ⟨h2, e⟩ := packLoop_turn (cs := cs) (bs := bs) (j := j) (rest := rest) (m := m) hbody hS (show j < bs.length by omega) (by omega) (fun k hk => hf _ (by omega)) h1
      exact ⟨_, e, h2, rfl⟩)
    (fun t ht => by
      obtain ⟨h1, rfl⟩ := ht
      generalize hj : n / 8 = j at *
      have hjb : j < bs.length := by omega
      obtain ⟨h2, e1⟩ := hbody j hjb (asItems (cs.drop (8 * j)) ++ rest) (m + 8 * j)
        (out ++ embed (cs.take (8 * j)) (bitString (bs.take j))) h1
      have hlen : (embed (cs.take (8 * j)) (bitString (bs.take j))).length = 8 * j := by simp; omega
      obtain ⟨h3, e2⟩ := packBits_moved_write_stop (X := S (j + 1)) (rest := rest) (m := m + 8 * j)
        (out := out ++ embed (cs.take (8 * j)) (bitString (bs.take j))) (h := h2) bs[j] (cs := cs.drop (8 * j))
        (k := n - 8 * j) (by omega) (by simp; omega)
        (fun k hk => by
          have := hf (8 * j + k) (by omega)
          rwa [hS, List.length_append, hlen, show X.sout.attempts + (out.length + 8 * j) + k =
            X.sout.attempts + out.length + (8 * j + k) by omega])
        (by rwa [hS, List.length_append, hlen, show X.sout.attempts + (out.length + 8 * j) + (n - 8 * j) =
            X.sout.attempts + out.length + n by omega])
      refine ⟨_, _, e1.trans e2, rfl, h3, ?_⟩
      rw [embed_split hjb (by omega) (by omega), List.append_assoc, List.take_append, hlen,
        List.take_of_length_le (i := n) (l := embed (cs.take (8 * j)) _) (by rw [hlen]; omega), show m + 8 * j + (n - 8 * j + 1) = m + (n + 1) by omega])
    ⟨h, by simp [embed]⟩
  exact ⟨h', hu⟩

end loop

/-! ## The marker, and the bytes of PIN and EIN -/

section frame
variable {X : State} {cs xs : List Byte} {rest xrest : List Item} {m n : Nat} {out : List Byte} {h : Hidden} {p : InId}

theorem packMarker_body (i : Nat) (hi : i < (markerBytes X).length) (rest : List Item) (m : Nat)
    (out : List Byte) (h : Hidden) :
    ∃ h', (do modify (·.withIdx i); packByte (fileByte (← get).marker i) : Engine Unit) (X.moved rest m out h) =
      packBits (markerBytes X)[i] (X.moved rest m out h') :=
  ⟨{ h with idx := BitVec.ofNat 33 i }, by rw [← fileByte_markerBytes hi]; rfl⟩

theorem packSource_body (hp : p ≠ .cin) (i : Nat) (hi : i < xs.length) (rest : List Item) (m : Nat)
    (out : List Byte) (h : Hidden) :
    ∃ h', (do modify (·.withIdx i); let b ← sourceRead p; packByte b : Engine Unit)
        ((X.sourceTo p (asItems (xs.drop i) ++ xrest)).moved rest m out h) =
      packBits xs[i] ((X.sourceTo p (asItems (xs.drop (i + 1)) ++ xrest)).moved rest m out h') := by
  refine ⟨{ h with idx := BitVec.ofNat 33 i }, ?_⟩
  rw [Engine.modify_bind, State.withIdx_eq, Engine.bind_ok (sourceRead_sourceTo (b := xs[i])
    (rest := asItems (xs.drop (i + 1)) ++ xrest) (by
      rw [State.withHidden_inPort, State.moved_inPort hp, State.sourceTo_items, asItems_drop hi])),
    State.withHidden_sourceTo, State.moved_sourceTo hp, State.sourceTo_sourceTo]
  rfl

/-- Packing the marker over a carrier that stops at byte `cs.length` (R175, R182). -/
theorem packMarker_carrier_stop (hm : markerLenOk X = true) (hl : cs.length < 8 * X.mlen.toNat)
    (hr : ∀ b l, rest ≠ .byte b :: l) (hf : ∀ k, k < cs.length → X.sout.attempts + out.length + k ∉ X.sout.fails) :
    ∃ h', packMarker (X.moved (asItems cs ++ rest) m out h) =
      .error (stopRaise rest) (X.moved rest.tail (m + cs.length) (out ++ embed cs (bitString (markerBytes X))) h') := by
  have := packLoop_carrier_stop (S := fun _ => X) (X := X) packMarker_body (fun _ => rfl) (cs := cs) (rest := rest)
    (m := m) (out := out) (h := h) (by rwa [markerBytes_length hm]) hr hf
  rwa [markerBytes_length hm] at this

/-- Packing the marker when the write of stego byte `n` fails (R175, R71). -/
theorem packMarker_write_stop (hm : markerLenOk X = true) (hn : n < 8 * X.mlen.toNat) (hl : cs.length = n + 1)
    (hf : ∀ k, k < n → X.sout.attempts + out.length + k ∉ X.sout.fails)
    (hn' : X.sout.attempts + out.length + n ∈ X.sout.fails) :
    ∃ h', packMarker (X.moved (asItems cs ++ rest) m out h) = .error ⟨.ioFailure, some .sout⟩
      (X.moved rest (m + (n + 1)) (out ++ (embed cs (bitString (markerBytes X))).take n) h').stegoMissed := by
  have := packLoop_write_stop (S := fun _ => X) (X := X) packMarker_body (fun _ => rfl) (cs := cs) (rest := rest)
    (m := m) (out := out) (h := h) (by rwa [markerBytes_length hm]) hl hf hn'
  rwa [markerBytes_length hm] at this

/-- Packing the bytes of PIN or EIN over a carrier that stops at byte `cs.length`: the byte being packed has been read
(R177, R179, R185). -/
theorem packSource_carrier_stop (hp : p ≠ .cin) (hx : xs.length = n) (hxi : (X.inPort p).items = asItems xs ++ xrest)
    (hl : cs.length < 8 * n) (hr : ∀ b l, rest ≠ .byte b :: l)
    (hf : ∀ k, k < cs.length → X.sout.attempts + out.length + k ∉ X.sout.fails) :
    ∃ h', forUpTo n (fun i => do modify (·.withIdx i); let b ← sourceRead p; packByte b)
        (X.moved (asItems cs ++ rest) m out h) =
      .error (stopRaise rest) ((X.sourceTo p (asItems (xs.drop (cs.length / 8 + 1)) ++ xrest)).moved rest.tail
        (m + cs.length) (out ++ embed cs (bitString xs)) h') := by
  subst hx
  have := packLoop_carrier_stop (S := fun i => X.sourceTo p (asItems (xs.drop i) ++ xrest)) (X := X) (packSource_body hp)
    (fun _ => State.sourceTo_sout _) (cs := cs) (rest := rest) (m := m) (out := out) (h := h) hl hr hf
  simpa [← hxi, State.sourceTo_self] using this

/-- Packing the bytes of PIN or EIN when the write of stego byte `k` fails (R177, R179, R71). -/
theorem packSource_write_stop {k : Nat} (hp : p ≠ .cin) (hx : xs.length = n)
    (hxi : (X.inPort p).items = asItems xs ++ xrest) (hk : k < 8 * n) (hl : cs.length = k + 1)
    (hf : ∀ j, j < k → X.sout.attempts + out.length + j ∉ X.sout.fails)
    (hk' : X.sout.attempts + out.length + k ∈ X.sout.fails) :
    ∃ h', forUpTo n (fun i => do modify (·.withIdx i); let b ← sourceRead p; packByte b)
        (X.moved (asItems cs ++ rest) m out h) =
      .error ⟨.ioFailure, some .sout⟩ ((X.sourceTo p (asItems (xs.drop (k / 8 + 1)) ++ xrest)).moved rest
        (m + (k + 1)) (out ++ (embed cs (bitString xs)).take k) h').stegoMissed := by
  subst hx
  have := packLoop_write_stop (S := fun i => X.sourceTo p (asItems (xs.drop i) ++ xrest)) (X := X) (packSource_body hp)
    (fun _ => State.sourceTo_sout _) (cs := cs) (rest := rest) (m := m) (out := out) (h := h) hk hl hf hk'
  simpa [← hxi, State.sourceTo_self] using this

end frame


/-! ## Bytes unpacked one after the other -/

section unpack
variable {X : State} {c d xs : List Byte} {rest : List Item} {m n : Nat} {h : Hidden} {p : OutId}

theorem State.moved_sinkOut (out : List Byte) :
    (X.moved rest m [] h).sinkOut p out = (X.sinkOut p out).moved rest m [] h := by
  simp only [State.moved, State.stegoOut_nil, State.withHidden_sinkOut, State.sinkOut_readTo]

theorem State.moved_outPort : (X.moved rest m [] h).outPort p = X.outPort p := by
  simp only [State.moved, State.stegoOut_nil, State.withHidden_outPort, State.readTo_outPort]

theorem unpackBits_moved_stop {w : Nat} (hw : w ≤ 32) (hl : d.length < w) (hr : ∀ b l, rest ≠ .byte b :: l) :
    ∃ h', unpackBits w (X.moved (asItems d ++ rest) m [] h) =
      .error (stopRaise rest) (X.moved rest.tail (m + d.length) [] h') := by
  obtain ⟨h', e⟩ := unpackBits_stop hw (s := X.moved (asItems d ++ rest) m [] h) hl rfl hr
  exact ⟨h', by rw [e]; simp [State.moved, stopRaise]⟩

theorem unpackByte_moved_stop (hl : d.length < 8) (hr : ∀ b l, rest ≠ .byte b :: l) :
    ∃ h', unpackByte (X.moved (asItems d ++ rest) m [] h) =
      .error (stopRaise rest) (X.moved rest.tail (m + d.length) [] h') := by
  obtain ⟨h', e⟩ := unpackBits_moved_stop (w := 8) (by omega) hl hr
  exact ⟨h', by rw [unpackByte, Engine.bind_error e]⟩

theorem unpackByte_moved (hl : c.length = 8) :
    ∃ h', unpackByte (X.moved (asItems c ++ rest) m [] h) =
      .ok (BitVec.ofNat 8 (numberOf (lsbs c))) (X.moved rest (m + 8) [] h') := by
  obtain ⟨h', e, -⟩ := unpackBits_ok (w := 8) (by omega) (s := X.moved (asItems c ++ rest) m [] h) hl rfl
  refine ⟨h', ?_⟩
  rw [unpackByte, Engine.bind_ok e, Engine.pure_apply]
  congr 1
  · apply BitVec.eq_of_toNat_eq
    simp
  · simp [State.moved]

/-- A marker whose carrier stops inside it (R203). -/
theorem unpackMarker_stop (hl : d.length < 8 * X.mlen.toNat) (hr : ∀ b l, rest ≠ .byte b :: l) :
    ∃ h', unpackMarker (X.moved (asItems d ++ rest) m [] h) =
      .error (stopRaise rest) (X.moved rest.tail (m + d.length) [] h') := by
  obtain ⟨r, u, hu, rfl, h', rfl⟩ := forUpTo_error (n := X.mlen.toNat) (k := d.length / 8)
    (s := X.moved (asItems d ++ rest) m [] h)
    (body := fun i => do modify (·.withIdx i); let b ← unpackByte; modify (·.withRxmByte i b))
    (P := fun i t => ∃ h', t = X.moved (asItems (d.drop (8 * i)) ++ rest) (m + 8 * i) [] h')
    (Q := fun r u => r = stopRaise rest ∧ ∃ h', u = X.moved rest.tail (m + d.length) [] h')
    (by omega)
    (fun j t hj ht => by
      obtain ⟨h1, rfl⟩ := ht
      rw [Engine.modify_bind, State.withIdx_eq, State.moved_withHidden, chunk]
      obtain ⟨h2, e⟩ := unpackByte_moved (X := X) (c := (d.drop (8 * j)).take 8)
        (rest := asItems (d.drop (8 * (j + 1))) ++ rest) (m := m + 8 * j) (by simp; omega)
      refine ⟨_, (Engine.bind_ok e).trans (Engine.modify_apply _ _), ?_⟩
      exact ⟨_, rfl⟩)
    (fun t ht => by
      obtain ⟨h1, rfl⟩ := ht
      rw [Engine.modify_bind, State.withIdx_eq, State.moved_withHidden]
      have hdl : (d.drop (8 * (d.length / 8))).length = d.length - 8 * (d.length / 8) := by simp
      obtain ⟨h2, e⟩ := unpackByte_moved_stop (X := X) (d := d.drop (8 * (d.length / 8)))
        (rest := rest) (m := m + 8 * (d.length / 8)) (by omega) hr
      refine ⟨_, _, Engine.bind_error e, rfl, h2, ?_⟩
      rw [hdl, show m + 8 * (d.length / 8) + (d.length - 8 * (d.length / 8)) = m + d.length by omega])
    ⟨h, by simp⟩
  exact ⟨h', hu⟩

/-- The whole bytes of EXT and PAYLOAD of DECODE, each written before the next is unpacked (R206, R208). -/
theorem unpackSink_turn {j : Nat} (hj : j < xs.length) (hb : lsbs c = bitString xs)
    (hf : (X.outPort p).attempts + j ∉ (X.outPort p).fails) (h : Hidden) :
    ∃ h', (do modify (·.withIdx j); let b ← unpackByte; sinkWrite p b : Engine Unit)
        ((X.sinkOut p (xs.take j)).moved (asItems (c.drop (8 * j)) ++ rest) (m + 8 * j) [] h) =
      .ok () ((X.sinkOut p (xs.take (j + 1))).moved (asItems (c.drop (8 * (j + 1))) ++ rest) (m + 8 * (j + 1)) [] h') := by
  rw [Engine.modify_bind, State.withIdx_eq, State.moved_withHidden]
  obtain ⟨h', e, -⟩ := unpackByte_ok
    (s := (X.sinkOut p (xs.take j)).moved (asItems (c.drop (8 * j)) ++ rest) (m + 8 * j) [] { h with idx := BitVec.ofNat 33 j })
    (rest := asItems (c.drop (8 * (j + 1))) ++ rest) (lsbs_chunk hb hj) (chunk rest)
  have e2 : (((X.sinkOut p (xs.take j)).moved (asItems (c.drop (8 * j)) ++ rest) (m + 8 * j) []
      { h with idx := BitVec.ofNat 33 j }).readTo (asItems (c.drop (8 * (j + 1))) ++ rest) 8).withHidden h' =
      (X.sinkOut p (xs.take j)).moved (asItems (c.drop (8 * (j + 1))) ++ rest) (m + 8 * (j + 1)) [] h' := by
    simp [State.moved, show m + 8 * (j + 1) = m + 8 * j + 8 by omega]
  rw [e2] at e
  refine ⟨h', (Engine.bind_ok e).trans ?_⟩
  rw [sinkWrite_sinkOut xs[j] (by
    rw [State.moved_outPort, State.sinkOut_attempts, State.sinkOut_fails, List.length_take,
      show min j xs.length = j by omega]
    exact hf), State.moved_sinkOut, State.sinkOut_sinkOut, List.take_succ_eq_append_getElem hj]

/-- EXT and PAYLOAD of DECODE whose carrier stops in byte `xs.length` (R206, R208, R213). -/
theorem unpackSink_carrier_stop (hn : xs.length < n) (hb : lsbs c = bitString xs) (hl : d.length < 8)
    (hr : ∀ b l, rest ≠ .byte b :: l) (hf : ∀ k, k < xs.length → (X.outPort p).attempts + k ∉ (X.outPort p).fails) :
    ∃ h', forUpTo n (fun i => do modify (·.withIdx i); let b ← unpackByte; sinkWrite p b)
        (X.moved (asItems (c ++ d) ++ rest) m [] h) =
      .error (stopRaise rest) ((X.sinkOut p xs).moved rest.tail (m + c.length + d.length) [] h') := by
  have hc : c.length = 8 * xs.length := by rw [← lsbs_length, hb, bitString_length]
  obtain ⟨r, u, hu, rfl, h', rfl⟩ := forUpTo_error (n := n) (k := xs.length)
    (s := X.moved (asItems (c ++ d) ++ rest) m [] h)
    (body := fun i => do modify (·.withIdx i); let b ← unpackByte; sinkWrite p b)
    (P := fun i t => ∃ h', t = (X.sinkOut p (xs.take i)).moved (asItems (c.drop (8 * i)) ++ (asItems d ++ rest)) (m + 8 * i)
      [] h')
    (Q := fun r u => r = stopRaise rest ∧ ∃ h', u = (X.sinkOut p xs).moved rest.tail (m + c.length + d.length) [] h')
    hn
    (fun j t hj ht => by
      obtain ⟨h1, rfl⟩ := ht
      obtain ⟨h2, e⟩ := unpackSink_turn (X := X) (rest := asItems d ++ rest) (m := m) hj hb (hf j hj) h1
      exact ⟨_, e, h2, rfl⟩)
    (fun t ht => by
      obtain ⟨h1, rfl⟩ := ht
      rw [Engine.modify_bind, State.withIdx_eq, State.moved_withHidden, ← hc]
      simp only [List.drop_length, List.take_length, asItems_nil, List.nil_append]
      obtain ⟨h2, e⟩ := unpackByte_moved_stop (X := X.sinkOut p xs) (rest := rest) (m := m + c.length) hl hr
      exact ⟨_, _, Engine.bind_error e, rfl, h2, rfl⟩)
    ⟨h, by simp⟩
  exact ⟨h', hu⟩

/-- EXT and PAYLOAD of DECODE whose write of byte `xs.length` fails, the byte having been unpacked (R70, R71, R211). -/
theorem unpackSink_write_stop {b : Byte} (hn : xs.length < n) (hb : lsbs c = bitString (xs ++ [b]))
    (hf : ∀ k, k < xs.length → (X.outPort p).attempts + k ∉ (X.outPort p).fails)
    (hn' : (X.outPort p).attempts + xs.length ∈ (X.outPort p).fails) :
    ∃ h', forUpTo n (fun i => do modify (·.withIdx i); let b ← unpackByte; sinkWrite p b)
        (X.moved (asItems c ++ rest) m [] h) =
      .error ⟨.ioFailure, some p.port⟩ (((X.sinkOut p xs).moved rest (m + c.length) [] h').sinkMissed p) := by
  have hc : c.length = 8 * (xs.length + 1) := by rw [← lsbs_length, hb, bitString_length]; simp
  obtain ⟨r, u, hu, rfl, h', rfl⟩ := forUpTo_error (n := n) (k := xs.length)
    (s := X.moved (asItems c ++ rest) m [] h)
    (body := fun i => do modify (·.withIdx i); let b ← unpackByte; sinkWrite p b)
    (P := fun i t => ∃ h', t = (X.sinkOut p ((xs ++ [b]).take i)).moved (asItems (c.drop (8 * i)) ++ rest) (m + 8 * i)
      [] h')
    (Q := fun r u => r = ⟨.ioFailure, some p.port⟩ ∧
      ∃ h', u = ((X.sinkOut p xs).moved rest (m + c.length) [] h').sinkMissed p)
    hn
    (fun j t hj ht => by
      obtain ⟨h1, rfl⟩ := ht
      obtain ⟨h2, e⟩ := unpackSink_turn (X := X) (rest := rest) (m := m) (by simp; omega) hb (hf j hj) h1
      exact ⟨_, e, h2, rfl⟩)
    (fun t ht => by
      obtain ⟨h1, rfl⟩ := ht
      rw [Engine.modify_bind, State.withIdx_eq, State.moved_withHidden, List.take_left]
      obtain ⟨h2, e⟩ := unpackByte_moved (X := X.sinkOut p xs) (c := c.drop (8 * xs.length)) (rest := rest)
        (m := m + 8 * xs.length) (h := { h1 with idx := BitVec.ofNat 33 xs.length }) (by simp; omega)
      refine ⟨_, _, (Engine.bind_ok e).trans (sinkWrite_fail _ ?_), rfl, h2, ?_⟩
      · rw [State.moved_outPort, State.sinkOut_attempts, State.sinkOut_fails]
        exact hn'
      · rw [hc, show m + 8 * xs.length + 8 = m + 8 * (xs.length + 1) by omega]
        rfl)
    ⟨h, by simp⟩
  exact ⟨h', hu⟩

end unpack

/-! ## The passthrough -/

section pass
variable {X : State} {cs : List Byte} {rest : List Item} {m n : Nat} {out : List Byte} {h : Hidden}

/-- `EmitHeader()` whose write of byte `n` fails (R230). -/
theorem emitHeader_write_stop (hn : n < 54) (hf : ∀ k, k < n → X.sout.attempts + out.length + k ∉ X.sout.fails)
    (hn' : X.sout.attempts + out.length + n ∈ X.sout.fails) :
    ∃ h', emitHeader (X.moved rest m out h) =
      .error ⟨.ioFailure, some .sout⟩ (X.moved rest m (out ++ X.hdr.toList.take n) h').stegoMissed := by
  obtain ⟨r, u, hu, rfl, h', rfl⟩ := forUpTo_error (n := Config.hdrLen) (k := n) (s := X.moved rest m out h)
    (body := fun i => do modify (·.withIdx i); stegoWrite (fileByte (← get).hdr i))
    (P := fun i t => ∃ h', t = X.moved rest m (out ++ X.hdr.toList.take i) h')
    (Q := fun r u => r = ⟨.ioFailure, some .sout⟩ ∧ ∃ h', u = (X.moved rest m (out ++ X.hdr.toList.take n) h').stegoMissed)
    hn
    (fun j t hj ht => by
      obtain ⟨h1, rfl⟩ := ht
      have hl : j < X.hdr.toList.length := by rw [Vector.length_toList]; exact Nat.lt_trans hj hn
      have e : fileByte X.hdr j = X.hdr.toList[j] := by
        rw [fileByte_toList, List.getElem?_eq_getElem hl, Option.getD_some]
      refine ⟨_, ?_, { h1 with idx := BitVec.ofNat 33 j }, rfl⟩
      rw [Engine.modify_bind, Engine.get_bind, State.withIdx_eq, State.moved_withHidden]
      refine (stegoWrite_stegoOut (s := X.moved rest m (out ++ X.hdr.toList.take j) _) (fileByte X.hdr j) ?_).trans ?_
      · show X.sout.attempts + (out ++ X.hdr.toList.take j).length ∉ X.sout.fails
        rw [List.length_append, List.length_take, show min j X.hdr.toList.length = j by omega, ← Nat.add_assoc]
        exact hf j hj
      · rw [e, List.take_succ_eq_append_getElem hl]
        simp [State.moved])
    (fun t ht => by
      obtain ⟨h1, rfl⟩ := ht
      refine ⟨_, _, ?_, rfl, { h1 with idx := BitVec.ofNat 33 n }, rfl⟩
      rw [Engine.modify_bind, Engine.get_bind, State.withIdx_eq, State.moved_withHidden]
      refine stegoWrite_fail _ ?_
      show X.sout.attempts + (out ++ X.hdr.toList.take n).length ∈ X.sout.fails
      rw [List.length_append, List.length_take, Nat.min_eq_left (by rw [Vector.length_toList]; exact Nat.le_of_lt hn), ← Nat.add_assoc]
      exact hn')
    ⟨h, by simp⟩
  exact ⟨h', hu⟩

/-- One turn of `CopyN`. -/
theorem copyN_turn {j : Nat} (hj : j < cs.length) (hf : X.sout.attempts + out.length + j ∉ X.sout.fails) (h : Hidden) :
    ∃ h', (do modify (·.withIdx j); let b ← carrierRead; stegoWrite b : Engine Unit)
        (X.moved (asItems (cs.drop j) ++ rest) (m + j) (out ++ cs.take j) h) =
      .ok () (X.moved (asItems (cs.drop (j + 1)) ++ rest) (m + (j + 1)) (out ++ cs.take (j + 1)) h') := by
  refine ⟨{ h with idx := BitVec.ofNat 33 j }, ?_⟩
  rw [Engine.modify_bind, State.withIdx_eq, State.moved_withHidden,
    Engine.bind_ok (carrierRead_readTo (c := cs[j]) (rest := asItems (cs.drop (j + 1)) ++ rest) (asItems_drop hj rest)),
    stegoWrite_stegoOut _ (by
      show X.sout.attempts + (out ++ cs.take j).length ∉ X.sout.fails
      rw [List.length_append, List.length_take, show min j cs.length = j by omega, ← Nat.add_assoc]
      exact hf),
    List.take_succ_eq_append_getElem hj]
  simp [State.moved, Nat.add_assoc]

/-- `CopyN(n)` whose carrier stops at byte `cs.length` (R232). -/
theorem copyN_carrier_stop (hl : cs.length < n) (hr : ∀ b l, rest ≠ .byte b :: l)
    (hf : ∀ k, k < cs.length → X.sout.attempts + out.length + k ∉ X.sout.fails) :
    ∃ h', copyN n (X.moved (asItems cs ++ rest) m out h) =
      .error (stopRaise rest) (X.moved rest.tail (m + cs.length) (out ++ cs) h') := by
  obtain ⟨r, u, hu, rfl, h', rfl⟩ := forUpTo_error (n := n) (k := cs.length) (s := X.moved (asItems cs ++ rest) m out h)
    (body := fun i => do modify (·.withIdx i); let b ← carrierRead; stegoWrite b)
    (P := fun i t => ∃ h', t = X.moved (asItems (cs.drop i) ++ rest) (m + i) (out ++ cs.take i) h')
    (Q := fun r u => r = stopRaise rest ∧ ∃ h', u = X.moved rest.tail (m + cs.length) (out ++ cs) h')
    hl
    (fun j t hj ht => by
      obtain ⟨h1, rfl⟩ := ht
      obtain ⟨h2, e⟩ := copyN_turn (rest := rest) (m := m) hj (hf j hj) h1
      exact ⟨_, e, h2, rfl⟩)
    (fun t ht => by
      obtain ⟨h1, rfl⟩ := ht
      rw [Engine.modify_bind, State.withIdx_eq, State.moved_withHidden]
      simp only [List.drop_length, List.take_length, asItems_nil, List.nil_append]
      exact ⟨_, _, Engine.bind_error (carrierRead_stop hr), rfl, _, rfl⟩)
    ⟨h, by simp⟩
  exact ⟨h', hu⟩

/-- `CopyN(n)` whose write of byte `cs.length` fails, the byte having been read (R232). -/
theorem copyN_write_stop {b : Byte} (hl : cs.length < n)
    (hf : ∀ k, k < cs.length → X.sout.attempts + out.length + k ∉ X.sout.fails)
    (hn' : X.sout.attempts + out.length + cs.length ∈ X.sout.fails) :
    ∃ h', copyN n (X.moved (asItems (cs ++ [b]) ++ rest) m out h) =
      .error ⟨.ioFailure, some .sout⟩ (X.moved rest (m + (cs.length + 1)) (out ++ cs) h').stegoMissed := by
  obtain ⟨r, u, hu, rfl, h', rfl⟩ := forUpTo_error (n := n) (k := cs.length)
    (s := X.moved (asItems (cs ++ [b]) ++ rest) m out h)
    (body := fun i => do modify (·.withIdx i); let b ← carrierRead; stegoWrite b)
    (P := fun i t => ∃ h', t = X.moved (asItems ((cs ++ [b]).drop i) ++ rest) (m + i) (out ++ (cs ++ [b]).take i) h')
    (Q := fun r u => r = ⟨.ioFailure, some .sout⟩ ∧
      ∃ h', u = (X.moved rest (m + (cs.length + 1)) (out ++ cs) h').stegoMissed)
    hl
    (fun j t hj ht => by
      obtain ⟨h1, rfl⟩ := ht
      obtain ⟨h2, e⟩ := copyN_turn (rest := rest) (m := m) (cs := cs ++ [b]) (by simp; omega) (hf j hj) h1
      exact ⟨_, e, h2, rfl⟩)
    (fun t ht => by
      obtain ⟨h1, rfl⟩ := ht
      rw [Engine.modify_bind, State.withIdx_eq, State.moved_withHidden, List.take_left, List.drop_left]
      refine ⟨_, _, (Engine.bind_ok (carrierRead_readTo rfl)).trans (stegoWrite_fail _ ?_), rfl,
        { h1 with idx := BitVec.ofNat 33 cs.length }, ?_⟩
      · show X.sout.attempts + (out ++ cs).length ∈ X.sout.fails
        rw [List.length_append, ← Nat.add_assoc]
        exact hn'
      · simp only [State.moved, State.withHidden_readTo, State.stegoOut_readTo, State.readTo_readTo, Nat.add_assoc]
        rfl)
    ⟨h, by simp⟩
  exact ⟨h', hu⟩

/-- `SkipN(n)` whose carrier stops at byte `cs.length` (R236). -/
theorem skipN_stop (hl : cs.length < n) (hr : ∀ b l, rest ≠ .byte b :: l) :
    ∃ h', skipN n (X.moved (asItems cs ++ rest) m out h) =
      .error (stopRaise rest) (X.moved rest.tail (m + cs.length) out h') := by
  obtain ⟨r, u, hu, rfl, h', rfl⟩ := forUpTo_error (n := n) (k := cs.length) (s := X.moved (asItems cs ++ rest) m out h)
    (body := fun i => do modify (·.withIdx i); let _ ← carrierRead)
    (P := fun i t => ∃ h', t = X.moved (asItems (cs.drop i) ++ rest) (m + i) out h')
    (Q := fun r u => r = stopRaise rest ∧ ∃ h', u = X.moved rest.tail (m + cs.length) out h')
    hl
    (fun j t hj ht => by
      obtain ⟨h1, rfl⟩ := ht
      refine ⟨_, ?_, { h1 with idx := BitVec.ofNat 33 j }, rfl⟩
      rw [Engine.modify_bind, State.withIdx_eq, State.moved_withHidden,
        Engine.bind_ok (carrierRead_readTo (c := cs[j]) (rest := asItems (cs.drop (j + 1)) ++ rest) (asItems_drop hj rest))]
      simp [State.moved, Nat.add_assoc])
    (fun t ht => by
      obtain ⟨h1, rfl⟩ := ht
      rw [Engine.modify_bind, State.withIdx_eq, State.moved_withHidden]
      simp only [List.drop_length, asItems_nil, List.nil_append]
      exact ⟨_, _, Engine.bind_error (carrierRead_stop hr), rfl, _, rfl⟩)
    ⟨h, by simp⟩
  exact ⟨h', hu⟩

end pass

/-- The bytes at the front of the carrier are copied one by one, and what follows them is met with as many turns left (R234). -/
theorem copyRestWithin_bytes {rest : List Item} {cs : List Byte} : ∀ {k : Nat} {s : State}, cs.length ≤ k →
    s.cin.items = asItems cs ++ rest → (∀ j, j < cs.length → s.sout.attempts + j ∉ s.sout.fails) →
    copyRestWithin k s = copyRestWithin (k - cs.length) ((s.readTo rest cs.length).stegoOut cs) := by
  induction cs with
  | nil =>
    intro k s _ hi _
    have hs : s.readTo rest 0 = s := by
      have := State.readTo_zero s
      rwa [hi] at this
    simp [hs]
  | cons c cs ih =>
    intro k s hk hi hf
    obtain ⟨k, rfl⟩ : ∃ m, k = m + 1 := ⟨k - 1, by simp at hk; omega⟩
    obtain ⟨h, -⟩ | ⟨r, h, -⟩ | ⟨b, r, h, e⟩ := copyRestWithin_cases k s
    · simp [hi] at h
    · simp [hi] at h
    · rw [hi, asItems_cons] at h
      obtain ⟨h1, h2⟩ := List.cons.inj h
      cases h1
      have h2 : r = asItems cs ++ rest := h2.symm
      have e2 : stegoWrite c (s.readTo r 1) = .ok () ((s.readTo r 1).stegoOut [c]) :=
        stegoWrite_stegoOut c (hf 0 (by simp))
      have e3 : copyRestWithin k ((s.readTo r 1).stegoOut [c]) =
          copyRestWithin (k - cs.length) ((((s.readTo r 1).stegoOut [c]).readTo rest cs.length).stegoOut cs) :=
        ih (by simpa using hk) h2 (fun j hj => by
          have := hf (j + 1) (by simpa using hj)
          simpa [Nat.add_assoc, Nat.add_comm 1 j] using this)
      rw [e]
      exact (Engine.bind_ok e2).trans (e3.trans (by
        rw [show k + 1 - (c :: cs).length = k - cs.length by simp]
        simp [Nat.add_comm]))

/-- `CopyRest()` stopped by an ERR item (R234). -/
theorem copyRest_err {rest : List Item} {cs : List Byte} {s : State} (hi : s.cin.items = asItems cs ++ .err :: rest)
    (hf : ∀ j, j < cs.length → s.sout.attempts + j ∉ s.sout.fails) :
    copyRest s = .error ⟨.ioFailure, some .cin⟩ ((s.readTo rest cs.length).stegoOut cs) := by
  have hl : s.cin.items.length + 1 - cs.length = rest.length + 1 + 1 := by simp [hi, asItems]; omega
  rw [copyRest, Engine.get_bind, copyRestWithin_bytes (by simp [hi, asItems]; omega) hi hf, hl]
  obtain ⟨e, -⟩ | ⟨l, e, e2⟩ | ⟨b, l, e, -⟩ := copyRestWithin_cases (rest.length + 1)
    ((s.readTo (.err :: rest) cs.length).stegoOut cs)
  · simp [State.stegoOut, State.readTo] at e
  · have : l = rest := by simpa [State.stegoOut, State.readTo] using e.symm
    rw [e2, this]
    rfl
  · simp [State.stegoOut, State.readTo] at e

/-- `CopyRest()` whose write of byte `cs.length` fails, the byte having been read (R234). -/
theorem copyRest_write_stop {rest : List Item} {cs : List Byte} {b : Byte} {s : State}
    (hi : s.cin.items = asItems cs ++ .byte b :: rest)
    (hf : ∀ j, j < cs.length → s.sout.attempts + j ∉ s.sout.fails) (hn : s.sout.attempts + cs.length ∈ s.sout.fails) :
    copyRest s = .error ⟨.ioFailure, some .sout⟩ ((s.readTo rest (cs.length + 1)).stegoOut cs).stegoMissed := by
  have hl : s.cin.items.length + 1 - cs.length = rest.length + 1 + 1 := by simp [hi, asItems]; omega
  rw [copyRest, Engine.get_bind, copyRestWithin_bytes (by simp [hi, asItems]; omega) hi hf, hl]
  obtain ⟨e, -⟩ | ⟨l, e, -⟩ | ⟨b', l, e, e2⟩ := copyRestWithin_cases (rest.length + 1)
    ((s.readTo (.byte b :: rest) cs.length).stegoOut cs)
  · simp [State.stegoOut, State.readTo] at e
  · simp [State.stegoOut, State.readTo] at e
  · obtain ⟨rfl, rfl⟩ : b = b' ∧ rest = l := by simpa [State.stegoOut, State.readTo] using e
    have e3 : (((s.readTo (.byte b :: rest) cs.length).stegoOut cs).withIn .cin
        { ((s.readTo (.byte b :: rest) cs.length).stegoOut cs).cin with items := rest }).countCarrier =
        (s.readTo rest (cs.length + 1)).stegoOut cs := by
      show ((s.readTo (.byte b :: rest) cs.length).stegoOut cs).readTo rest 1 = _
      simp
    rw [e2, e3]
    exact Engine.bind_error (stegoWrite_fail b hn)

end Sys2Proof.Machine
end

