-- ==== Sys2Proof/Tests/Slice0.lean ====
section
/-! SUPPORT. Tests/Slice0.lean: what each check of WellFormed refuses; the command words written out from R92; one or two
vectors of 95_test_vectors.md for each command; and, for every obligation with hypotheses, a state that meets them. -/

namespace Sys2Proof.Tests

open Sys2Proof.Machine

/-! ## WellFormed: each check refuses an ill-formed term -/

theorem test_rsvZero_refuses : WellFormed.rsvZero 0x00000108 = false := by decide
theorem test_opcodeAssigned_refuses_zero : WellFormed.opcodeAssigned 0x00000000 = false := by decide
theorem test_opcodeAssigned_refuses_0E : WellFormed.opcodeAssigned 0x0000000E = false := by decide
theorem test_commandWord_refuses : WellFormed.commandWord 0x80000001 = false := by decide
theorem test_access_refuses_width : WellFormed.access 0x004 2 = false := by decide
theorem test_access_refuses_alignment : WellFormed.access 0x006 4 = false := by decide
theorem test_access_refuses_outside : WellFormed.access 0x400 4 = false := by decide
theorem test_markerMax_refuses : WellFormed.markerMax 8 = false ∧ WellFormed.markerMax 65 = false := by decide
theorem test_seqCode_refuses : WellFormed.seqCode 14 = false := by decide
theorem test_errCode_refuses : WellFormed.errCode 7 = false := by decide
theorem test_portCode_refuses : WellFormed.portCode 7 = false := by decide

/-! ## Decode: the words of R92, bit by bit -/

theorem test_decode_loadhdr : decode 0b00000000000000000000000000000001 = .ok .loadhdr := by decide
theorem test_decode_capest : decode 0b00000000000000000000000000000010 = .ok .capest := by decide
theorem test_decode_chkcap : decode 0b00000000000000000000000000000011 = .ok .chkcap := by decide
theorem test_decode_packb : decode 0b00000000000000000000000000000100 = .ok .packb := by decide
theorem test_decode_packw : decode 0b00000000000000000000000000000101 = .ok .packw := by decide
theorem test_decode_unpackb : decode 0b00000000000000000000000000000110 = .ok .unpackb := by decide
theorem test_decode_unpackw : decode 0b00000000000000000000000000000111 = .ok .unpackw := by decide
theorem test_decode_encode : decode 0b00000000000000000000000000001000 = .ok .encode := by decide
theorem test_decode_decode : decode 0b00000000000000000000000000001001 = .ok .decode := by decide
theorem test_decode_emithdr : decode 0b00000000000000000000000000001010 = .ok .emithdr := by decide
theorem test_decode_copy : decode 0b00000000000000000000000000001011 = .ok .copy := by decide
theorem test_decode_copyrest : decode 0b00000000000000000000000000001100 = .ok .copyrest := by decide
theorem test_decode_skip : decode 0b00000000000000000000000000001101 = .ok .skip := by decide
theorem test_decode_refuses_reserved : decode 0x000000FF = .error .reservedOpcode := by decide
theorem test_decode_refuses_rsv : decode 0x00000108 = .error .rsvNonzero := by decide
theorem test_decodeTableWord_reads_copyrest : decodeTableWord 32 12 = some .copyrest := by decide

/-! ## Small states -/

/-- An attached input port with these items; 256 stands for ERR. -/
def input (l : List Nat) : InPort :=
  { attached := true, items := l.map fun n => if n = 256 then .err else .byte (BitVec.ofNat 8 n) }

/-- An attached output port on which these attempts fail. -/
def output (fails : List Nat) : OutPort := { attached := true, data := [], attempts := 0, fails := fails }

/-- Every port attached, this on CIN, everything else as after reset. -/
def ready (carrier : List Nat) : State :=
  { State.reset with
    cin := input carrier, pin := input [], ein := input [], sout := output [], pout := output [], eout := output [] }

/-- The state after a command. -/
def ran (i : Instr) (s : State) : State :=
  match exec i s with
  | .next t => t
  | .fault _ => s
  | .refused _ => s

/-- Every command ends in a next state. -/
theorem exec_ran (i : Instr) (s : State) : exec i s = .next (ran i s) := by
  obtain ⟨t, h⟩ : ∃ t, exec i s = .next t := by cases i <;> exact ⟨_, rfl⟩
  simp only [ran, h]

/-- The state after a step. -/
def stepped (s : State) : State :=
  match step s with
  | .next t => t
  | .fault _ => s
  | .refused _ => s

/-- The bytes on an output port. -/
def bytesOf (q : OutPort) : List Nat := q.data.map (·.toNat)

/-- STATUS as the host reads it. -/
def statusOf (s : State) : Nat := (readOffset s 0x004).toNat

/-- A 54-byte header of zeros but for width 8 and height 4: CAP = 12 (program P1). -/
def header : List Nat := List.replicate 18 0 ++ [8, 0, 0, 0, 4, 0, 0, 0] ++ List.replicate 28 0

/-- Marker "#", ELEN = 2, PLEN = 1: S = 12, the capacity of `header` (program P1). -/
def framed (s : State) : State :=
  { s with mlen := 1, elen := 2, plen := 1, marker := s.marker.setIfInBounds 0 0x23
           ein := input [0x2E, 0x63], pin := input [0x41] }

/-- A carrier that `framed` fills exactly. -/
def exact : State := framed (ready (header ++ List.replicate 96 0))

/-! ## The vectors of 95_test_vectors.md -/

theorem test_step_runs_the_fetched_word : statusOf (stepped (State.reset.withFetchWord 32 2)) = 0x00000C02 := by
  decide +kernel
theorem test_loadhdr_short : statusOf (ran .loadhdr (ready (List.range 10))) = 0x0001BD54 := by decide +kernel
theorem test_loadhdr_fault : (ran .loadhdr (ready [1, 2, 3, 4, 5, 256, 7])).cin = input [7] := by decide +kernel
theorem test_capest_truncates : (ran .capest (ran .loadhdr (ready (List.replicate 18 0 ++ [1, 0, 0, 0, 3, 0, 0, 0] ++
    List.replicate 28 0)))).cap = 1 := by decide +kernel
theorem test_capest_is_exact : (ran .capest (ran .loadhdr (ready (List.replicate 18 0 ++ List.replicate 8 255 ++
    List.replicate 28 0)))).cap = 0x5FFFFFFF40000000 := by decide +kernel
theorem test_chkcap_after_reset : statusOf (ran .chkcap State.reset) = 0x00000C0A := by decide +kernel
theorem test_chkcap_boundary : (ran .chkcap { State.reset with plen := 4, cap := 12 }).result = 1 := by decide +kernel
theorem test_packb_is_msb_first : bytesOf (ran .packb { ready [0x00, 0xFF, 0x10, 0x11, 0x7E, 0x7F, 0x80, 0x81] with
    arg := 0x1A5 }).sout = [0x01, 0xFE, 0x11, 0x10, 0x7E, 0x7F, 0x80, 0x81] := by decide +kernel
theorem test_packb_write_fault : statusOf (ran .packb { ready (List.replicate 8 0) with arg := 0xFF, sout := output [2] }) =
    0x0002BD64 := by decide +kernel
theorem test_packw_five : bytesOf (ran .packw { ready (List.replicate 32 0xFF) with arg := 5 }).sout =
    List.replicate 29 0xFE ++ [0xFF, 0xFE, 0xFF] := by decide +kernel
theorem test_packw_carrier_ends : (ran .packw { ready (List.replicate 20 0) with arg := 0xFFFFFFFF }).ocnt = 20 := by
  decide +kernel
theorem test_unpackb_is_msb_first : (ran .unpackb (ready [0x01, 0xFE, 0x11, 0x10, 0x7E, 0x7F, 0x80, 0x81])).result = 0xA5 := by
  decide +kernel
theorem test_unpackb_stale_result : (ran .unpackb { ready [1, 1, 1] with result := 0xA5 }).result = 0xA5 := by decide +kernel
theorem test_unpackw_lsb_only : (ran .unpackw (ready (List.replicate 31 0 ++ [1]))).result = 1 := by decide +kernel
theorem test_unpackw_msb_only : (ran .unpackw (ready (1 :: List.replicate 31 0))).result = 0x80000000 := by decide +kernel
theorem test_encode_marker_and_length : ((bytesOf (ran .encode exact).sout).drop 54).take 40 =
    [0, 0, 1, 0, 0, 0, 1, 1] ++ List.replicate 30 0 ++ [1, 0] := by decide +kernel
theorem test_encode_short_payload : statusOf (ran .encode { exact with pin := input [] }) = 0x00039D64 := by decide +kernel
theorem test_decode_mlen_zero_keeps_rxElen : (ran .decode { ready [] with rxElen := 7 }).rxElen = 7 := by decide +kernel
theorem test_decode_mismatch : statusOf (ran .decode (framed (ready (header ++ List.replicate 8 0)))) = 0x00015D44 := by
  decide +kernel
theorem test_emithdr_after_reset : bytesOf (ran .emithdr (ready [])).sout = List.replicate 54 0 := by decide +kernel
theorem test_emithdr_needs_sout : statusOf (ran .emithdr State.reset) = 0x00021D24 := by decide +kernel
theorem test_copy_three : (ran .copy { ready [0xDE, 0xAD, 0xBE, 0xEF] with arg := 3 }).cin = input [0xEF] := by decide +kernel
theorem test_copy_short : statusOf (ran .copy { ready [0xDE, 0xAD] with arg := 3 }) = 0x0001BD54 := by decide +kernel
theorem test_copyrest_copies : bytesOf (ran .copyrest (ready [0xDE, 0xAD, 0xBE, 0xEF])).sout = [0xDE, 0xAD, 0xBE, 0xEF] := by
  decide +kernel
theorem test_copyrest_fault : statusOf (ran .copyrest (ready [1, 2, 256, 4])) = 0x0001BD64 := by decide +kernel
theorem test_skip_54 : (ran .skip { ready (List.range 56) with arg := 54 }).cin = input [54, 55] := by decide +kernel
theorem test_skip_short : (ran .skip { ready (List.range 10) with arg := 54 }).ccnt = 10 := by decide +kernel
theorem test_invalid_word : statusOf (rejectCommand 0x00000108 State.reset) = 0x00001D14 := by decide +kernel

/-! ## Witnesses: states and operands that meet the hypotheses of the obligations, each clause at a boundary -/

/-- Bytes from numbers. -/
def bytes (l : List Nat) : List Byte := l.map fun n => BitVec.ofNat 8 n

/-- `header` as the 54 bytes of HDR. -/
def headerVec : Vector Byte 54 := ⟨(bytes header).toArray, rfl⟩

/-- A state whose host's next action is `c`. -/
def about (c : HostStmt) : State := { State.reset with host := { State.reset.host with prog := [c] } }

theorem witness_DecodeAndEncodeAgree : Instr.skip.wellFormed = true ∧ decode 0x0000000D = .ok .skip := by decide

theorem witness_EveryWordDecodesOrIsInvalid :
    WellFormed.rsvZero 0x00000100 = false ∧
      (WellFormed.rsvZero 0x0000000E = true ∧ WellFormed.opcodeAssigned 0x0000000E = false) ∧
      (WellFormed.rsvZero 0x00000000 = true ∧ WellFormed.opcodeAssigned 0x00000000 = false) ∧
      WellFormed.commandWord 0x00000001 = true ∧ WellFormed.commandWord 0x0000000D = true := by decide

theorem witness_StepRunsDecodedCommand :
    (about (.wr 0x000 4 8)).resetLine = false ∧ nextStmt (about (.wr 0x000 4 8)) = some (.wr 0x000 4 8) ∧
      (about (.wr 0x000 4 8)).status.busy = false ∧ decode 8 = .ok .encode := by decide +kernel

theorem witness_InvalidWordRaisesInvalidArguments :
    (about (.wr 0x000 4 0x108)).resetLine = false ∧ nextStmt (about (.wr 0x000 4 0x108)) = some (.wr 0x000 4 0x108) ∧
      (about (.wr 0x000 4 0x108)).status.busy = false ∧ WellFormed.rsvZero 0x108 = false ∧
      WellFormed.opcodeAssigned 0x0E = false ∧ nextStmt (about (.wr 0x000 4 0x0E)) = some (.wr 0x000 4 0x0E) := by
  decide +kernel

/-- A state with BUSY = 1. -/
def busy : State := { State.reset with status := { Status.reset with busy := true } }

theorem witness_WritesWhileBusyAreIgnored :
    busy.status.busy = true ∧ WellFormed.access 0x000 4 = true ∧ WellFormed.access 0x3FC 4 = true := by decide

theorem witness_HostReadHasNoSideEffect :
    (about (.rd 0x004 4)).resetLine = false ∧ nextStmt (about (.rd 0x004 4)) = some (.rd 0x004 4) ∧
      WellFormed.access 0x004 4 = true := by decide +kernel

theorem witness_RegisterMapReadsEveryRegister :
    (0 < Config.markerMax ∧ 8 < Config.markerMax) ∧ (0 < 54 ∧ 53 < 54) ∧
      (0x044 % 4 = 0 ∧ 0x044 ≤ 0x044 ∧ 0x044 < 0x100) ∧ (0x3FC % 4 = 0 ∧ 0x2D8 ≤ 0x3FC ∧ 0x3FC < 0x400) := by
  simp [Config.markerMax]

theorem witness_RegisterWriteStoresOnlyItsRegister :
    State.reset.status.busy = false ∧ WellFormed.access 0x018 4 = true ∧ WellFormed.access 0x120 4 = true ∧
      WellFormed.access 0x004 4 = true ∧ WellFormed.access 0x3FC 4 = true ∧ 0x120 < 0x100 + 4 * Config.markerMax := by
  refine ⟨rfl, by decide, by decide, by decide, by decide, ?_⟩
  simp only [Config.markerMax]
  omega

theorem witness_AccessWithoutMeaningIsRefused :
    ¬(2 = 4 ∧ 0x004 % 4 = 0 ∧ 0x004 < 0x400) ∧ ¬(4 = 4 ∧ 0x006 % 4 = 0 ∧ 0x006 < 0x400) ∧
      ¬(4 = 4 ∧ 0x400 % 4 = 0 ∧ 0x400 < 0x400) := by decide

theorem witness_PortActionsChangeOnlyTheirPort : State.reset.status.busy = false ∧ busy.status.busy = true := by decide

theorem witness_ResetClearsRegistersAndKeepsPorts : ({ ready [1] with resetLine := true } : State).resetLine = true := by decide

/-- What a CHKCAP that found too little room leaves. -/
def insufficient : State :=
  { State.reset with cmd := 3, status := { Status.reset with done := true, insuf := true, state := 12 } }

/-- An invariant state from which a step goes on. -/
theorem witness_EveryStepKeepsTheInvariant : insufficient.Inv ∧ step insufficient = .next insufficient := by
  refine ⟨⟨⟨rfl, .inr (.inl (by decide))⟩, fun i _ => ?_, by decide, by decide, fun _ => ⟨.chkcap, by decide⟩⟩, rfl⟩
  show fileByte (Vector.replicate 64 0) i = 0
  simp only [fileByte, Vector.getElem?_replicate]
  split <;> rfl

/-- Serves every statement whose only hypothesis is that a command ended: CommandsKeepTheirOperands,
InputsAreConsumedAndOutputsAppended, CountersCountTheCommandsBytes. -/
theorem witness_command_ended : exec .copy (ready [1]) = .next (ran .copy (ready [1])) :=
  exec_ran _ _

theorem witness_ResultsAreWrittenOnlyByTheirCommands :
    exec .copy (ready [1]) = .next (ran .copy (ready [1])) ∧ Instr.copy ∉ [Instr.chkcap, .unpackb, .unpackw, .encode] ∧
      Instr.copy ∉ [Instr.capest, .encode] ∧ Instr.copy ∉ [Instr.loadhdr, .encode, .decode] ∧ Instr.copy ≠ .decode ∧
      Instr.copy ∉ [Instr.chkcap, .encode] := ⟨exec_ran _ _, by decide⟩

theorem witness_NoTransferOutsideTheRequiredPorts :
    exec .copy (ready [1]) = .next (ran .copy (ready [1])) ∧ InId.pin.port ∉ portsRequired .copy ∧
      OutId.eout.port ∉ portsRequired .copy := ⟨exec_ran _ _, by decide⟩

theorem witness_UnattachedPortRaisesUnopenableFile :
    (portsRequired .encode = [.cin] ++ .sout :: [.pin, .ein] ∧ (∀ q ∈ [Port.cin], exact.attached q = true) ∧
      ({ exact with sout := OutPort.none } : State).attached .sout = false ∧
      ({ exact with sout := OutPort.none } : State).MarkerLenOk) ∧
    portsRequired .skip = [] ++ .cin :: [] ∧ State.reset.attached .cin = false := by decide +kernel

theorem witness_MarkerLengthOutOfRangeRaisesInvalidArguments :
    (ready []).mlen.toNat = 0 ∧ Config.markerMax < ({ ready [] with mlen := 65 } : State).mlen.toNat := by
  refine ⟨rfl, ?_⟩
  have := Config.markerMaxOver.isLt
  show Config.markerMaxOver.val + 9 < 65
  omega

theorem witness_LoadhdrReadsTheHeader :
    (ready (header ++ [9])).cin.attached = true ∧ (ready (header ++ [9])).cin.items = asItems headerVec.toList ++ [.byte 9] := by
  decide +kernel

/-- EOS at once, and ERR before the last byte. -/
theorem witness_LoadhdrStopsWhereTheCarrierStops :
    ((ready []).cin.attached = true ∧ (bytes []).length < 54 ∧ (ready []).cin.items = asItems (bytes []) ++ [] ∧
      CarrierStop [] .unexpectedEndOfCarrier []) ∧
    (bytes (List.range 53)).length < 54 ∧
      (ready (List.range 53 ++ [256, 7])).cin.items = asItems (bytes (List.range 53)) ++ [.err, .byte 7] ∧
      CarrierStop [.err, .byte 7] .ioFailure [.byte 7] :=
  ⟨⟨rfl, by decide, rfl, .inl ⟨rfl, rfl, rfl⟩⟩, by decide, by decide +kernel, .inr ⟨rfl, rfl⟩⟩

/-- S = CAP and S = CAP + 1. -/
theorem witness_ChkcapReportsWhetherTheFrameFits :
    frameBytes { State.reset with plen := 4, cap := 12 } ≤ ({ State.reset with plen := 4, cap := 12 } : State).cap.toNat ∧
      ({ State.reset with plen := 5, cap := 12 } : State).cap.toNat < frameBytes { State.reset with plen := 5, cap := 12 } := by
  decide +kernel

theorem witness_CapacityCheckIsBoundaryExact :
    (exec .capest { exact with hdr := headerVec } = .next (ran .capest { exact with hdr := headerVec }) ∧
      exec .chkcap (ran .capest { exact with hdr := headerVec }) =
        .next (ran .chkcap (ran .capest { exact with hdr := headerVec }))) ∧
      frameBytes { exact with hdr := headerVec } = (ran .capest { exact with hdr := headerVec }).cap.toNat :=
  ⟨⟨exec_ran _ _, exec_ran _ _⟩, by decide +kernel⟩

theorem witness_PackbEmbedsOneByte :
    (ready (List.range 9)).cin.attached = true ∧ (ready (List.range 9)).sout.attached = true ∧
      (bytes (List.range 8)).length = 8 ∧ (ready (List.range 9)).cin.items = asItems (bytes (List.range 8)) ++ [.byte 8] ∧
      (ready (List.range 9)).sout.NoFails 8 := by decide +kernel

theorem witness_PackwEmbedsOneWord :
    (ready (List.range 33)).cin.attached = true ∧ (ready (List.range 33)).sout.attached = true ∧
      (bytes (List.range 32)).length = 32 ∧ (ready (List.range 33)).cin.items = asItems (bytes (List.range 32)) ++ [.byte 32] ∧
      (ready (List.range 33)).sout.NoFails 32 := by decide +kernel

/-- EOS before the last bit of a byte, and ERR before the last bit of a word. -/
theorem witness_PackStopsWhereTheCarrierStops :
    ((ready (List.range 7)).cin.attached = true ∧ (ready (List.range 7)).sout.attached = true ∧
      (ready (List.range 7)).cin.items = asItems (bytes (List.range 7)) ++ [] ∧
      (ready (List.range 7)).sout.NoFails 7 ∧ (bytes (List.range 7)).length < 8) ∧
    CarrierStop [] .unexpectedEndOfCarrier [] ∧
    ((ready (List.range 31 ++ [256])).cin.items = asItems (bytes (List.range 31)) ++ [.err] ∧
      (bytes (List.range 31)).length < 32) ∧ CarrierStop [.err] .ioFailure [] :=
  ⟨by decide +kernel, .inl ⟨rfl, rfl, rfl⟩, by decide +kernel, .inr ⟨rfl, rfl⟩⟩

/-- A failing write at the last bit of a byte, and at the last bit of a word. -/
theorem witness_PackStopsWhereTheWriteFails :
    (({ ready (List.range 8) with sout := output [7] } : State).cin.attached = true ∧
      ({ ready (List.range 8) with sout := output [7] } : State).sout.attached = true ∧ (bytes (List.range 8)).length = 7 + 1 ∧
      ({ ready (List.range 8) with sout := output [7] } : State).cin.items = asItems (bytes (List.range 8)) ++ [] ∧
      (output [7]).NoFails 7 ∧ 7 ∈ (output [7]).fails ∧ 7 < 8) ∧
    (ready (List.range 32)).cin.items = asItems (bytes (List.range 32)) ++ [] ∧ (bytes (List.range 32)).length = 31 + 1 ∧
      (output [31]).NoFails 31 ∧ 31 ∈ (output [31]).fails ∧ 31 < 32 := by decide +kernel

theorem witness_UnpackbReadsOneByte :
    (ready (List.range 9)).cin.attached = true ∧ (bytes (List.range 8)).length = 8 ∧
      (ready (List.range 9)).cin.items = asItems (bytes (List.range 8)) ++ [.byte 8] := by decide +kernel

theorem witness_UnpackwReadsOneWord :
    (ready (List.range 33)).cin.attached = true ∧ (bytes (List.range 32)).length = 32 ∧
      (ready (List.range 33)).cin.items = asItems (bytes (List.range 32)) ++ [.byte 32] := by decide +kernel

theorem witness_UnpackStopsWhereTheCarrierStops :
    ((ready (List.range 7)).cin.attached = true ∧ (ready (List.range 7)).cin.items = asItems (bytes (List.range 7)) ++ [] ∧
      (bytes (List.range 7)).length < 8) ∧ CarrierStop [] .unexpectedEndOfCarrier [] ∧
    ((ready (List.range 31 ++ [256])).cin.items = asItems (bytes (List.range 31)) ++ [.err] ∧
      (bytes (List.range 31)).length < 32) ∧ CarrierStop [.err] .ioFailure [] :=
  ⟨by decide +kernel, .inl ⟨rfl, rfl, rfl⟩, by decide +kernel, .inr ⟨rfl, rfl⟩⟩

/-- PACKB of 0x00 writes eight zeros over eight zeros, which UNPACKB reads; PACKW of 0 likewise. -/
theorem witness_UnpackInvertsPack :
    (exec .packb (ready (List.replicate 8 0)) = .next (ran .packb (ready (List.replicate 8 0))) ∧
      exec .packw (ready (List.replicate 32 0)) = .next (ran .packw (ready (List.replicate 32 0))) ∧
      exec .unpackb (ready (List.replicate 8 0)) = .next (ran .unpackb (ready (List.replicate 8 0)))) ∧
    ((ran .packb (ready (List.replicate 8 0))).status.done = true ∧
      (ran .packb (ready (List.replicate 8 0))).sout.data = (ready []).sout.data ++ bytes (List.replicate 8 0)) ∧
    ((ran .packw (ready (List.replicate 32 0))).status.done = true ∧
      (ran .packw (ready (List.replicate 32 0))).sout.data = (ready []).sout.data ++ bytes (List.replicate 32 0) ∧
      (ready (List.replicate 32 0)).cin.items = asItems (bytes (List.replicate 32 0)) ++ []) ∧
    (ran .unpackb (ready (List.replicate 8 0))).status.done = true ∧
      (ready (List.replicate 8 0)).arg = (ran .unpackb (ready (List.replicate 8 0))).result ∧
      (ready (List.replicate 8 0)).cin.items = asItems (bytes (List.replicate 8 0)) ∧
      (ready (List.replicate 8 0)).sout.NoFails 8 :=
  ⟨⟨exec_ran _ _, exec_ran _ _, exec_ran _ _⟩, by decide +kernel⟩

/-- A frame that fills its capacity and its carrier exactly: S = CAP = 12, 96 pixel bytes. -/
theorem witness_EncodeWritesTheStegoImage :
    exact.cin.attached = true ∧ exact.sout.attached = true ∧ exact.pin.attached = true ∧ exact.ein.attached = true ∧
      exact.MarkerLenOk ∧ exact.cin.items = asItems (headerVec.toList ++ bytes (List.replicate 96 0)) ∧
      exact.ein.items = asItems (bytes [0x2E, 0x63]) ++ [] ∧ (bytes [0x2E, 0x63]).length = exact.elen.toNat ∧
      exact.pin.items = asItems (bytes [0x41]) ++ [] ∧ (bytes [0x41]).length = exact.plen.toNat ∧
      frameBytes exact = headerCapacity headerVec ∧ 8 * frameBytes exact = (bytes (List.replicate 96 0)).length ∧
      exact.sout.NoFails (54 + 96) ∧ exact.sout.fails = [] ∧ exact.status.busy = false := by decide +kernel

/-- The same state meets the hypotheses of EncodeEqualsThePrimitiveSequence (its last two facts above). -/
theorem witness_EncodeEqualsThePrimitiveSequence :
    exact.status.busy = false ∧ exact.sout.fails = [] ∧ frameBytes exact ≤ headerCapacity headerVec ∧
      8 * frameBytes exact ≤ (bytes (List.replicate 96 0)).length := by decide +kernel

theorem witness_EncodeDoneWroteTheStegoImage :
    exact.cin.items = asItems (bytes (header ++ List.replicate 96 0)) ∧
      exec .encode exact = .next (ran .encode exact) ∧ (ran .encode exact).status.done = true :=
  ⟨by decide +kernel, exec_ran _ _, by decide +kernel⟩

/-- One payload byte more than the capacity. -/
theorem witness_EncodeOverCapacityWritesNothing :
    (let s : State := { exact with plen := 2 }
    s.cin.attached = true ∧ s.sout.attached = true ∧ s.pin.attached = true ∧ s.ein.attached = true ∧ s.MarkerLenOk ∧
      s.cin.items = asItems headerVec.toList ++ asItems (bytes (List.replicate 96 0)) ∧
      headerCapacity headerVec < frameBytes s) := by decide +kernel

/-- ENCODE in `framed`, its ports attached, its marker length allowed, its frame no longer than the capacity. -/
theorem framed_facts (l : List Nat) (q : OutPort) (h : q.attached = true) :
    (let s : State := { framed (ready l) with sout := q }
    s.cin.attached = true ∧ s.sout.attached = true ∧ s.pin.attached = true ∧ s.ein.attached = true ∧ s.MarkerLenOk ∧
      frameBytes s ≤ headerCapacity headerVec ∧ s.ein.items = asItems (bytes [0x2E, 0x63]) ++ [] ∧
      (bytes [0x2E, 0x63]).length = s.elen.toNat ∧ s.pin.items = asItems (bytes [0x41]) ++ [] ∧
      (bytes [0x41]).length = s.plen.toNat) :=
  ⟨rfl, h, rfl, rfl, (by decide +kernel : exact.MarkerLenOk),
    (by decide +kernel : frameBytes exact ≤ headerCapacity headerVec), rfl, rfl, rfl, rfl⟩

/-- With `framed_facts`: EOS, and ERR, after 53 header bytes; a failing write of header byte 53; a carrier that ends one byte
before the frame does, and right after the header, and an ERR item right after the frame (TRAILER); a failing write of the
last byte of the frame, and of the byte after it. -/
theorem witness_EncodeStopsWhereTheCarrierOrTheOutputStops :
    ((bytes (List.range 53)).length < 54 ∧
      (framed (ready (List.range 53))).cin.items = asItems (bytes (List.range 53)) ++ [] ∧
      (framed (ready (List.range 53 ++ [256]))).cin.items = asItems (bytes (List.range 53)) ++ [.err]) ∧
    (CarrierStop [] .unexpectedEndOfCarrier [] ∧ CarrierStop [.err] .ioFailure []) ∧
    ((framed (ready header)).cin.items = asItems headerVec.toList ++ [] ∧ 53 < 54 ∧ (output [53]).NoFails 53 ∧
      53 ∈ (output [53]).fails) ∧
    (let s : State := framed (ready (header ++ List.replicate 95 0))
    s.cin.items = asItems (headerVec.toList ++ bytes (List.replicate 95 0)) ++ [] ∧
      (bytes (List.replicate 95 0)).length < 8 * frameBytes s ∧ s.sout.NoFails (54 + 95)) ∧
    (let s : State := framed (ready header)
    s.cin.items = asItems (headerVec.toList ++ bytes []) ++ [] ∧ (bytes []).length < 8 * frameBytes s) ∧
    (let s : State := framed (ready (header ++ List.replicate 96 0 ++ [256]))
    s.cin.items = asItems (headerVec.toList ++ bytes (List.replicate 96 0)) ++ [.err] ∧
      ¬(bytes (List.replicate 96 0)).length < 8 * frameBytes s ∧ s.sout.NoFails (54 + 96)) ∧
    (let s : State := { exact with sout := output [54 + 95] }
    s.cin.items = asItems (headerVec.toList ++ bytes (List.replicate 96 0)) ++ [] ∧
      (bytes (List.replicate 96 0)).length = 95 + 1 ∧ s.sout.NoFails (54 + 95) ∧ 54 + 95 ∈ s.sout.fails) ∧
    (let s : State := { framed (ready (header ++ List.replicate 97 0)) with sout := output [54 + 96] }
    s.cin.items = asItems (headerVec.toList ++ bytes (List.replicate 97 0)) ++ [] ∧
      (bytes (List.replicate 97 0)).length = 96 + 1 ∧ s.sout.NoFails (54 + 96) ∧ 54 + 96 ∈ s.sout.fails) :=
  ⟨by decide +kernel, ⟨.inl ⟨rfl, rfl, rfl⟩, .inr ⟨rfl, rfl⟩⟩, by decide +kernel⟩

/-- EIN ends, and the carrier too, after one of two extension bytes: 48 pixel bytes. -/
theorem witness_EncodeStopsWhereTheExtensionStops :
    (let s : State := { framed (ready (header ++ List.replicate 48 0)) with ein := input [0x2E] }
    s.cin.attached = true ∧ s.sout.attached = true ∧ s.pin.attached = true ∧ s.ein.attached = true ∧ s.MarkerLenOk ∧
      s.cin.items = asItems (headerVec.toList ++ bytes (List.replicate 48 0)) ++ [] ∧
      s.ein.items = asItems (bytes [0x2E]) ++ [] ∧ (bytes [0x2E]).length < s.elen.toNat ∧
      frameBytes s ≤ headerCapacity headerVec ∧
      (bytes (List.replicate 48 0)).length = 8 * (s.mlen.toNat + 4 + (bytes [0x2E]).length) ∧ s.sout.NoFails (54 + 48)) ∧
    CarrierStop [] .unexpectedEndOfCarrier [] := ⟨by decide +kernel, .inl ⟨rfl, rfl, rfl⟩⟩

/-- PIN faults before the first payload byte: 88 pixel bytes. -/
theorem witness_EncodeStopsWhereThePayloadStops :
    (let s : State := { framed (ready (header ++ List.replicate 88 0)) with pin := input [256] }
    s.cin.attached = true ∧ s.sout.attached = true ∧ s.pin.attached = true ∧ s.ein.attached = true ∧ s.MarkerLenOk ∧
      s.cin.items = asItems (headerVec.toList ++ bytes (List.replicate 88 0)) ++ [] ∧
      s.ein.items = asItems (bytes [0x2E, 0x63]) ++ [] ∧ (bytes [0x2E, 0x63]).length = s.elen.toNat ∧
      s.pin.items = asItems (bytes []) ++ [.err] ∧ (bytes []).length < s.plen.toNat ∧
      frameBytes s ≤ headerCapacity headerVec ∧
      (bytes (List.replicate 88 0)).length =
        8 * (s.mlen.toNat + 8 + (bytes [0x2E, 0x63]).length + (bytes []).length) ∧ s.sout.NoFails (54 + 88)) ∧
    CarrierStop [.err] .ioFailure [] := ⟨by decide +kernel, .inr ⟨rfl, rfl⟩⟩

/-- Carrier bytes, without their header, that spell marker "#", extension ".", payload "A". -/
def stego : List Byte :=
  (bitString ([0x23] ++ be32 1 ++ [0x2E] ++ be32 1 ++ [0x41])).map fun b => (BitVec.ofBool b).setWidth 8

/-- A DECODE about to read `l` after a header. -/
def reading (l : List Byte) (tail : List Item) : State :=
  { framed (ready []) with cin := { attached := true, items := asItems (headerVec.toList ++ l) ++ tail } }

theorem witness_DecodeExtractsTheFrame :
    (let s : State := reading stego [.err]
    s.cin.attached = true ∧ s.pout.attached = true ∧ s.eout.attached = true ∧ s.MarkerLenOk ∧
      s.cin.items = asItems (headerVec.toList ++ stego) ++ [.err] ∧
      lsbs stego = bitString (markerBytes s ++ be32 1 ++ [0x2E] ++ be32 1 ++ [0x41]) ∧
      ([0x2E] : List Byte).length = (1 : Word).toNat ∧ ([0x41] : List Byte).length = (1 : Word).toNat ∧
      s.eout.NoFails 1 ∧ s.pout.NoFails 1) := by decide +kernel

theorem witness_DecodeMarkerMismatch :
    (let s : State := reading (bytes (List.replicate 8 0)) [.err]
    s.cin.attached = true ∧ s.pout.attached = true ∧ s.eout.attached = true ∧ s.MarkerLenOk ∧
      s.cin.items = asItems (headerVec.toList ++ bytes (List.replicate 8 0)) ++ [.err] ∧
      lsbs (bytes (List.replicate 8 0)) = bitString [0x00] ∧ ([0x00] : List Byte).length = s.mlen.toNat ∧
      ([0x00] : List Byte) ≠ markerBytes s) := by decide +kernel

theorem witness_DecodeWritesNothingBeforeTheMarkerMatched :
    exec .decode (reading (bytes (List.replicate 8 0)) []) = .next (ran .decode (reading (bytes (List.replicate 8 0)) [])) ∧
      (ran .decode (reading (bytes (List.replicate 8 0)) [])).status.fail = true ∧
      (ran .decode (reading (bytes (List.replicate 8 0)) [])).status.failstate.toNat ≤ 5 :=
  ⟨exec_ran _ _, by decide +kernel⟩

/-- A DECODE about to read `stego`: its ports are attached and its marker length is allowed. -/
theorem reading_facts (l : List Byte) (tail : List Item) :
    (reading l tail).cin.attached = true ∧ (reading l tail).pout.attached = true ∧ (reading l tail).eout.attached = true ∧
      (reading l tail).MarkerLenOk := ⟨rfl, rfl, rfl, (by decide +kernel : exact.MarkerLenOk)⟩

/-- With `reading_facts`: the carrier stops in the last byte of the header; in the last bit of the marker, of ELEN, of the
extension's byte, of PLEN and of the payload's byte; and the writes of the extension's and of the payload's byte fail. -/
theorem witness_DecodeStopsWhereTheCarrierOrAnOutputStops :
    ((bytes (List.range 53)).length < 54 ∧
      ({ framed (ready (List.range 53)) with mlen := 1 } : State).cin.items = asItems (bytes (List.range 53)) ++ []) ∧
    (CarrierStop [] .unexpectedEndOfCarrier [] ∧ CarrierStop [.err] .ioFailure []) ∧
    (let s : State := reading (stego.take 7) [.err]
    s.cin.items = asItems (headerVec.toList ++ [] ++ stego.take 7) ++ [.err] ∧ (stego.take 7).length < 8 * s.mlen.toNat) ∧
    (let s : State := reading (stego.take 39) []
    s.cin.items = asItems (headerVec.toList ++ stego.take 8 ++ (stego.take 39).drop 8) ++ [] ∧
      lsbs (stego.take 8) = bitString (markerBytes s) ∧ ((stego.take 39).drop 8).length = 31) ∧
    (let s : State := reading (stego.take 47) []
    s.cin.items = asItems (headerVec.toList ++ stego.take 40 ++ (stego.take 47).drop 40) ++ [] ∧
      lsbs (stego.take 40) = bitString (markerBytes s ++ be32 1 ++ []) ∧ ([] : List Byte).length < (1 : Word).toNat ∧
      ((stego.take 47).drop 40).length = 7 ∧ s.eout.NoFails 0) ∧
    (let s : State := reading (stego.take 79) []
    s.cin.items = asItems (headerVec.toList ++ stego.take 48 ++ (stego.take 79).drop 48) ++ [] ∧
      lsbs (stego.take 48) = bitString (markerBytes s ++ be32 1 ++ [0x2E]) ∧ ([0x2E] : List Byte).length = (1 : Word).toNat ∧
      ((stego.take 79).drop 48).length = 31 ∧ s.eout.NoFails 1) ∧
    (let s : State := reading (stego.take 87) []
    s.cin.items = asItems (headerVec.toList ++ stego.take 80 ++ (stego.take 87).drop 80) ++ [] ∧
      lsbs (stego.take 80) = bitString (markerBytes s ++ be32 1 ++ [0x2E] ++ be32 1 ++ []) ∧
      ([] : List Byte).length < (1 : Word).toNat ∧ ((stego.take 87).drop 80).length = 7 ∧ s.pout.NoFails 0) ∧
    (let s : State := { reading stego [] with eout := output [0] }
    s.cin.items = asItems (headerVec.toList ++ stego.take 48 ++ stego.drop 48) ++ [] ∧
      lsbs (stego.take 48) = bitString (markerBytes s ++ be32 1 ++ [] ++ [0x2E]) ∧ s.eout.NoFails 0 ∧ 0 ∈ s.eout.fails) ∧
    (let s : State := { reading stego [] with pout := output [0] }
    s.cin.items = asItems (headerVec.toList ++ stego ++ []) ++ [] ∧
      lsbs stego = bitString (markerBytes s ++ be32 1 ++ [0x2E] ++ be32 1 ++ [] ++ [0x41]) ∧ s.eout.NoFails 1 ∧
      s.pout.NoFails 0 ∧ 0 ∈ s.pout.fails) :=
  ⟨by decide +kernel, ⟨.inl ⟨rfl, rfl, rfl⟩, .inr ⟨rfl, rfl⟩⟩, by decide +kernel, by decide +kernel, by decide +kernel,
    by decide +kernel, by decide +kernel, by decide +kernel, by decide +kernel⟩

/-- `exact` with these carrier bytes. -/
def decoding (o : List Byte) : State := { exact with cin := { attached := true, items := asItems o } }

theorem decoding_facts (o : List Byte) :
    o = exact.sout.data ++ o ∧ (decoding o).mlen = exact.mlen ∧ (decoding o).marker = exact.marker ∧
      (decoding o).cin.attached = true ∧ (decoding o).pout.attached = true ∧ (decoding o).eout.attached = true ∧
      (decoding o).cin.items = asItems o ∧ (decoding o).eout.NoFails exact.elen.toNat ∧
      (decoding o).pout.NoFails exact.plen.toNat := by
  refine ⟨rfl, rfl, rfl, rfl, rfl, rfl, rfl, ?_, ?_⟩ <;> exact fun _ _ h => nomatch h

/-- A DECODE of what the exactly filling ENCODE wrote. -/
theorem witness_DecodeRecoversWhatEncodeEmbedded :
    exact.cin.items = asItems (bytes (header ++ List.replicate 96 0)) ∧ exec .encode exact = .next (ran .encode exact) ∧
      (ran .encode exact).status.done = true ∧
      ∃ (o : List Byte) (u : State), (ran .encode exact).sout.data = exact.sout.data ++ o ∧ u.mlen = exact.mlen ∧
        u.marker = exact.marker ∧ u.cin.attached = true ∧ u.pout.attached = true ∧
        u.eout.attached = true ∧ u.cin.items = asItems o ∧
        u.eout.NoFails exact.elen.toNat ∧ u.pout.NoFails exact.plen.toNat :=
  ⟨by decide +kernel, exec_ran _ _, by decide +kernel, _, _, decoding_facts _⟩

theorem witness_EmithdrWritesTheHeldHeader : (ready []).sout.attached = true ∧ (ready []).sout.NoFails 54 := by decide +kernel

theorem witness_EmithdrStopsWhereTheWriteFails :
    ({ ready [] with sout := output [53] } : State).sout.attached = true ∧ 53 < 54 ∧ (output [53]).NoFails 53 ∧
      53 ∈ (output [53]).fails := by decide +kernel

/-- ARG = 3, and ARG = 0. -/
theorem witness_CopyMovesTheRange :
    (let s : State := { ready [1, 2, 3, 4] with arg := 3 }
    s.cin.attached = true ∧ s.sout.attached = true ∧ (bytes [1, 2, 3]).length = s.arg.toNat ∧
      s.cin.items = asItems (bytes [1, 2, 3]) ++ [.byte 4] ∧ s.sout.NoFails 3) ∧
    (bytes []).length = (ready [1]).arg.toNat ∧ (ready [1]).cin.items = asItems (bytes []) ++ [.byte 1] := by decide +kernel

theorem witness_SkipDiscardsTheRange :
    (let s : State := { ready [1, 2, 3, 4] with arg := 3 }
    s.cin.attached = true ∧ (bytes [1, 2, 3]).length = s.arg.toNat ∧ s.cin.items = asItems (bytes [1, 2, 3]) ++ [.byte 4]) ∧
    (bytes []).length = (ready [1]).arg.toNat ∧ (ready [1]).cin.items = asItems (bytes []) ++ [.byte 1] := by decide +kernel

/-- EOS, and ERR, after two bytes of three; and a failing write of the third byte. -/
theorem witness_CopyAndSkipStopWhereTheCarrierOrTheOutputStops :
    (let s : State := { ready [1, 2] with arg := 3 }
    s.cin.attached = true ∧ (bytes [1, 2]).length < s.arg.toNat ∧ s.cin.items = asItems (bytes [1, 2]) ++ [] ∧
      s.sout.attached = true ∧ s.sout.NoFails 2) ∧
    (CarrierStop [] .unexpectedEndOfCarrier [] ∧ CarrierStop [.err, .byte 4] .ioFailure [.byte 4]) ∧
    (ready [1, 2, 256, 4]).cin.items = asItems (bytes [1, 2]) ++ [.err, .byte 4] ∧
    (let s : State := { ready [1, 2, 3] with arg := 3, sout := output [2] }
    s.cin.attached = true ∧ s.sout.attached = true ∧ (bytes [1, 2]).length < s.arg.toNat ∧
      s.cin.items = asItems (bytes [1, 2] ++ [3]) ++ [] ∧ s.sout.NoFails 2 ∧ 2 ∈ s.sout.fails) :=
  ⟨by decide +kernel, ⟨.inl ⟨rfl, rfl, rfl⟩, .inr ⟨rfl, rfl⟩⟩, by decide +kernel⟩

theorem witness_CopyrestMovesEverythingLeft :
    (ready [1, 2]).cin.attached = true ∧ (ready [1, 2]).sout.attached = true ∧
      (ready [1, 2]).cin.items = asItems (bytes [1, 2]) ∧ (ready [1, 2]).sout.NoFails 2 ∧
      (ready []).cin.items = asItems (bytes []) := by decide +kernel

/-- An ERR item after one byte; a failing write of the only byte. -/
theorem witness_CopyrestStopsOnlyAtAFault :
    ((ready [1, 256, 2]).cin.attached = true ∧ (ready [1, 256, 2]).sout.attached = true ∧
      (ready [1, 256, 2]).cin.items = asItems (bytes [1]) ++ .err :: [.byte 2] ∧ (ready [1, 256, 2]).sout.NoFails 1) ∧
    (let s : State := { ready [1] with sout := output [0] }
    s.cin.attached = true ∧ s.sout.attached = true ∧ s.cin.items = asItems (bytes [] ++ [1]) ++ [] ∧ s.sout.NoFails 0 ∧
      0 ∈ s.sout.fails) ∧
    exec .copyrest (ready [1, 256, 2]) = .next (ran .copyrest (ready [1, 256, 2])) :=
  ⟨by decide +kernel, by decide +kernel, exec_ran _ _⟩

/-- "c" after "t.", and nothing after the last '.'. -/
theorem witness_HostExtensionFollowsTheLastDot : (0x2E : Byte) ∉ [(0x63 : Byte)] ∧ (0x2E : Byte) ∉ ([] : List Byte) := by decide

/-- SOUT marked, as after a command that failed with bytes put there. -/
def spoiled (c : HostStmt) : State :=
  { about c with host := { (about c).host with spoiled := [.sout] }, status := { Status.reset with done := true } }

/-- The write of a command that answers; a marked port that another step keeps, that is cleared, and that is taken. -/
theorem witness_FailedOutputIsNeverTakenAsValid :
    ((spoiled (.wr 0x000 4 2)).resetLine = false ∧ nextStmt (spoiled (.wr 0x000 4 2)) = some (.wr 0x000 4 2) ∧
      (spoiled (.wr 0x000 4 2)).status.busy = false ∧
      step (spoiled (.wr 0x000 4 2)) = .next (stepped (spoiled (.wr 0x000 4 2)))) ∧
    (OutId.sout ∈ (spoiled (.wr 0x000 4 2)).host.spoiled ∧ nextStmt (spoiled (.wr 0x000 4 2)) ≠ some (.clearData .sout)) ∧
    (nextStmt (spoiled (.clearData .sout)) = some (.clearData .sout) ∧
      step (spoiled (.clearData .sout)) = .next (stepped (spoiled (.clearData .sout)))) ∧
    nextStmt (spoiled (.takeData .sout)) = some (.takeData .sout) ∧
      step (spoiled (.takeData .sout)) = .next (stepped (spoiled (.takeData .sout))) :=
  ⟨⟨rfl, rfl, rfl, rfl⟩, by decide +kernel, ⟨rfl, rfl⟩, rfl, rfl⟩

/-- I-3: the byte that a failed PACKB put on SOUT is not a valid output after a later DONE command. -/
theorem test_failed_output_is_never_valid :
    ((stepped (stepped (stepped { ready [0] with
      host := { (ready []).host with prog := [.wr 0x000 4 4, .wr 0x000 4 2, .takeData .sout] } }))).host.takes.map
        fun k => (k.data, k.valid)) = [([0], false)] := by decide +kernel

end Sys2Proof.Tests
end

section
/-! Proofs, the register space: where each register of the map lies (R61), what a host write stores (R22, R43), what
STATUS reads (R24), and what a reset leaves (R51, R290). -/

namespace Sys2Proof.Machine

/-! ## The map -/

/-- The offset of a register in the map of R61. -/
def Reg.offset : Reg → Nat
  | .cmd => 0x000
  | .status => 0x004
  | .arg => 0x008
  | .result => 0x00C
  | .mlen => 0x010
  | .elen => 0x014
  | .plen => 0x018
  | .width => 0x01C
  | .height => 0x020
  | .capLo => 0x024
  | .capHi => 0x028
  | .rxElen => 0x02C
  | .rxPlen => 0x030
  | .ccntLo => 0x034
  | .ccntHi => 0x038
  | .ocntLo => 0x03C
  | .ocntHi => 0x040
  | .marker i => 0x100 + 4 * i
  | .hdr i => 0x200 + 4 * i

/-- Only the first MARKER_MAX elements of MARKER (R43) and the 54 of HDR (R44) are registers. -/
def Reg.InMap : Reg → Prop
  | .marker i => i < Config.markerMax
  | .hdr i => i < Config.hdrLen
  | _ => True

theorem namedRegs_offset : ∀ p ∈ namedRegs, p.1 = p.2.offset ∧ p.2.InMap := by
  simp [namedRegs, Reg.offset, Reg.InMap]

/-- What `regAt` finds at an aligned offset lies there in the map. -/
theorem regAt_some {off : Nat} {r : Reg} (ha : off % 4 = 0) (h : regAt off = some r) : off = r.offset ∧ r.InMap := by
  unfold regAt at h
  split at h
  · obtain ⟨l₁, l₂, e, -⟩ := List.lookup_eq_some_iff.mp h
    exact namedRegs_offset (off, r) (by simp [e])
  · split at h
    all_goals
      obtain ⟨hi, e⟩ := Option.ite_none_right_eq_some.mp h
      cases e
      exact ⟨by simp only [Reg.offset]; omega, hi⟩

/-- Every register of the map is found at its offset. -/
theorem regAt_offset {r : Reg} (h : r.InMap) : regAt r.offset = some r := by
  have hm := markerMax_bounds
  cases r
  case marker i =>
    have hi : i < Config.markerMax := h
    simp [regAt, Reg.offset, hi, show 0x100 + 4 * i < 0x200 by omega]
  case hdr i =>
    have hi : i < 54 := h
    simp [regAt, Reg.offset, hi, show ¬ 0x200 + 4 * i < 0x100 by omega]
  all_goals rfl

theorem readOffset_offset (s : State) {r : Reg} (h : r.InMap) : readOffset s r.offset = readReg s r := by
  rw [readOffset, regAt_offset h]

theorem regAt_unmapped {off : Nat} (ha : off % 4 = 0) (h : 0x044 ≤ off ∧ off < 0x100 ∨
    0x100 + 4 * Config.markerMax ≤ off ∧ off < 0x200 ∨ 0x2D8 ≤ off ∧ off < 0x400) : regAt off = none := by
  have hm := markerMax_bounds
  cases hr : regAt off with
  | none => rfl
  | some r =>
    obtain ⟨ho, hi⟩ := regAt_some ha hr
    cases r <;> simp only [Reg.offset, Reg.InMap, Config.hdrLen] at ho hi <;> omega

/-! ## STATUS and the pairs as numbers -/

theorem append_toNat {m n : Nat} (x : BitVec m) (y : BitVec n) : (x ++ y).toNat = x.toNat * 2 ^ n + y.toNat := by
  rw [BitVec.toNat_append, ← Nat.shiftLeft_add_eq_or_of_lt y.isLt, Nat.shiftLeft_eq]

/-- The word of R24, field by field. -/
theorem statusWord_toNat (q : Status) :
    (statusWord q).toNat =
      q.failport.toNat * 2 ^ 16 + q.failstate.toNat * 2 ^ 12 + q.state.toNat * 2 ^ 8 + q.err.toNat * 2 ^ 4 +
        q.insuf.toNat * 2 ^ 3 + q.fail.toNat * 2 ^ 2 + q.done.toNat * 2 + q.busy.toNat := by
  simp only [statusWord, append_toNat, BitVec.toNat_ofBool, BitVec.toNat_ofNat]
  omega

/-- A 64-bit value is its two halves (R40, R45, R46). -/
theorem halves_toNat (x : Dword) : (x.extractLsb' 32 32).toNat * 2 ^ 32 + (x.extractLsb' 0 32).toNat = x.toNat := by
  have hx := x.isLt
  simp only [BitVec.extractLsb'_toNat, Nat.shiftRight_eq_div_pow]
  omega

/-! ## Register writes -/

/-- The registers that a host write stores into (R22). -/
def Reg.Writable : Reg → Prop
  | .arg | .mlen | .elen | .plen | .marker _ => True
  | _ => False

theorem writeReg_readOnly (s : State) {r : Reg} (h : ¬ r.Writable) (v : Word) : writeReg s r v = s := by
  cases r <;> simp [Reg.Writable] at h <;> rfl

/-- A write changes no field but those of the writable registers. -/
theorem writeReg_frame (s : State) (r : Reg) (v : Word) :
    writeReg s r v = { s with
      arg := (writeReg s r v).arg, mlen := (writeReg s r v).mlen, elen := (writeReg s r v).elen
      plen := (writeReg s r v).plen, marker := (writeReg s r v).marker } := by
  cases r <;> rfl

/-- A write leaves every other register as it was. -/
theorem readReg_writeReg_ne (s : State) {r r' : Reg} (hr : r.InMap) (h : r' ≠ r) (v : Word) :
    readReg (writeReg s r v) r' = readReg s r' := by
  have hm := markerMax_bounds
  cases r with
  | arg => cases r' with | arg => exact absurd rfl h | _ => rfl
  | mlen => cases r' with | mlen => exact absurd rfl h | _ => rfl
  | elen => cases r' with | elen => exact absurd rfl h | _ => rfl
  | plen => cases r' with | plen => exact absurd rfl h | _ => rfl
  | marker i =>
    cases r' with
    | marker j =>
      have hi : i < Config.markerMax := hr
      have hj : j ≠ i := fun e => h (e ▸ rfl)
      simp only [readReg, writeReg, fileByte_set _ (show i < 64 by omega), if_neg hj]
    | _ => rfl
  | _ => rw [writeReg_readOnly s (by simp [Reg.Writable])]

/-- An element of MARKER keeps the low byte of what is written (R43). -/
theorem readReg_writeReg_marker (s : State) {i : Nat} (hi : i < Config.markerMax) (v : Word) :
    readReg (writeReg s (.marker i) v) (.marker i) = v &&& 0xFF := by
  have hm := markerMax_bounds
  simp only [readReg, writeReg, fileByte_set _ (show i < 64 by omega), if_true]
  apply BitVec.eq_of_toNat_eq
  have hv : v.toNat &&& 255 = v.toNat % 256 := Nat.and_two_pow_sub_one_eq_mod v.toNat 8
  simp [hv]
  omega

/-- What the register written then reads (R22, R43). -/
theorem readReg_writeReg_self (s : State) {r : Reg} (hr : r.InMap) (v : Word) :
    readReg (writeReg s r v) r =
      if r.offset = 0x008 ∨ r.offset = 0x010 ∨ r.offset = 0x014 ∨ r.offset = 0x018 then v
      else if 0x100 ≤ r.offset ∧ r.offset < 0x100 + 4 * Config.markerMax then v &&& 0xFF
      else readReg s r := by
  have hm := markerMax_bounds
  cases r with
  | marker i =>
    have hi : i < Config.markerMax := hr
    rw [readReg_writeReg_marker s hi, if_neg (by simp only [Reg.offset]; omega), if_pos (by simp only [Reg.offset]; omega)]
  | hdr i => rw [if_neg (by simp only [Reg.offset]; omega), if_neg (by simp only [Reg.offset]; omega)]; rfl
  | _ => rfl

/-! ## Host writes -/

theorem accessOk_eq (off size : Nat) : accessOk off size = WellFormed.access off size := rfl

theorem access_iff {off : Nat} : WellFormed.access off 4 = true ↔ off % 4 = 0 ∧ off < 0x400 := by
  simp [WellFormed.access]

theorem hostWrite_unmapped {off : Nat} (v : Word) (s : State) (ha : WellFormed.access off 4 = true)
    (h : regAt off = none) : hostWrite off 4 v s = .next s := by
  simp [hostWrite, accessOk_eq, ha, h]

theorem hostWrite_cmd {off : Nat} (v : Word) (s : State) (ha : WellFormed.access off 4 = true)
    (h : regAt off = some .cmd) : hostWrite off 4 v s = writeCmd v s := by
  simp [hostWrite, accessOk_eq, ha, h]

theorem hostWrite_reg {off : Nat} {r : Reg} (v : Word) (s : State) (ha : WellFormed.access off 4 = true)
    (h : regAt off = some r) (hr : r ≠ .cmd) :
    hostWrite off 4 v s = .next (if s.status.busy then s else writeReg s r v) := by
  cases r with
  | cmd => exact absurd rfl hr
  | _ => simp [hostWrite, accessOk_eq, ha, h]

/-! ## What a reset leaves (R51, R290, R291) -/

theorem fileByte_replicate_zero (n i : Nat) : fileByte (Vector.replicate n (0 : Byte)) i = 0 := by
  simp only [fileByte, Vector.getElem?_replicate]
  split <;> rfl

/-- Every register reads 0 after power-on. -/
theorem readReg_reset (r : Reg) : readReg State.reset r = 0 := by
  cases r with
  | marker i => exact congrArg (BitVec.setWidth 32) (fileByte_replicate_zero _ i)
  | hdr i => exact congrArg (BitVec.setWidth 32) (fileByte_replicate_zero _ i)
  | _ => rfl

theorem readOffset_reset (off : Nat) : readOffset State.reset off = 0 := by
  rw [readOffset]
  split
  · exact readReg_reset _
  · rfl

/-- A reset leaves the registers as power-on does. -/
theorem readOffset_afterReset (s : State) (off : Nat) : readOffset s.afterReset off = 0 := by
  rw [← readOffset_reset off, readOffset, readOffset]
  cases regAt off with
  | none => rfl
  | some r => cases r <;> rfl

/-! ## The statements -/

/-- Settles O8: `readOffset_offset` for the map, `statusWord_toNat` for the fields of STATUS. -/
theorem registerMapReadsEveryRegister : Obligations.RegisterMapReadsEveryRegister := by
  intro s
  have byte : ∀ b : Byte, (b.setWidth 32).toNat = b.toNat := fun b => BitVec.toNat_setWidth_of_le (by decide)
  refine ⟨⟨rfl, rfl, rfl, rfl, rfl, rfl, rfl, rfl, rfl, rfl, rfl⟩, statusWord_toNat s.status,
    ⟨halves_toNat s.cap, halves_toNat s.ccnt, halves_toNat s.ocnt⟩, fun i hi => ?_, fun i hi => ?_, fun off ha h => ?_⟩
  · exact (congrArg BitVec.toNat (readOffset_offset s (r := .marker i) hi)).trans (byte _)
  · exact (congrArg BitVec.toNat (readOffset_offset s (r := .hdr i) hi)).trans (byte _)
  · rw [readOffset, regAt_unmapped ha h]

/-- Settles O6: with BUSY = 1 neither a start (R96) nor a store (R22) is made. -/
theorem writesWhileBusyAreIgnored : Obligations.WritesWhileBusyAreIgnored := by
  intro s off v hb ha
  cases hr : regAt off with
  | none => exact hostWrite_unmapped v s ha hr
  | some r =>
    by_cases hc : r = .cmd
    · subst hc
      rw [hostWrite_cmd v s ha hr, writeCmd, if_pos hb]
    · rw [hostWrite_reg v s ha hr hc, if_pos hb]

/-- Settles O9: the write stores in the register at the offset, and registers at different offsets are different. -/
theorem registerWriteStoresOnlyItsRegister : Obligations.RegisterWriteStoresOnlyItsRegister := by
  intro s off v hb ha hne
  have hal := (access_iff.mp ha).1
  cases hr : regAt off with
  | none =>
    have unmapped : ∀ r : Reg, r.InMap → off ≠ r.offset := fun r hi e => by
      rw [e, regAt_offset hi] at hr
      cases hr
    have hrw : ¬(off = 0x008 ∨ off = 0x010 ∨ off = 0x014 ∨ off = 0x018) :=
      not_or.mpr ⟨unmapped .arg trivial, not_or.mpr ⟨unmapped .mlen trivial,
        not_or.mpr ⟨unmapped .elen trivial, unmapped .plen trivial⟩⟩⟩
    have hmk : ¬(0x100 ≤ off ∧ off < 0x100 + 4 * Config.markerMax) := fun h =>
      unmapped (.marker ((off - 0x100) / 4)) (by simp only [Reg.InMap]; omega) (by simp only [Reg.offset]; omega)
    exact ⟨s, hostWrite_unmapped v s ha hr, by rw [if_neg hrw, if_neg hmk], fun _ _ _ => rfl, rfl⟩
  | some r =>
    obtain ⟨rfl, hi⟩ := regAt_some hal hr
    refine ⟨writeReg s r v, ?_, ?_, fun off' ha' hne' => ?_, writeReg_frame s r v⟩
    · rw [hostWrite_reg v s ha hr (fun e => hne (e ▸ rfl)), hb]
      rfl
    · rw [readOffset_offset _ hi, readOffset_offset _ hi, readReg_writeReg_self s hi]
    · rw [readOffset, readOffset]
      cases h' : regAt off' with
      | none => rfl
      | some r' => exact readReg_writeReg_ne s hi (fun e => hne' ((regAt_some ha' h').1.trans (e ▸ rfl))) v

/-- Settles O12: the asserted line makes the next step a reset (R290). -/
theorem resetClearsRegistersAndKeepsPorts : Obligations.ResetClearsRegistersAndKeepsPorts := by
  refine ⟨fun s => ⟨_, rfl, rfl⟩, fun s h => ⟨s.afterReset, ?_, readOffset_afterReset s, rfl, rfl, ?_, ?_, rfl⟩⟩
  · rw [step, stepOnce, if_pos h]
  · intro p
    cases p <;> rfl
  · intro p
    cases p <;> rfl

/-- Settles O13. -/
theorem powerOnRegistersAreZero : Obligations.PowerOnRegistersAreZero :=
  ⟨readOffset_reset, rfl, fileByte_replicate_zero _, fileByte_replicate_zero _⟩

/-- Settles O22: STATUS as a raise leaves it, read by `statusWord_toNat`. -/
theorem raiseRecordsTheErrorAndNothingElse : Obligations.RaiseRecordsTheErrorAndNothingElse := by
  intro s r
  refine ⟨rfl, (statusWord_toNat (statusRaised r s.status)).trans ?_⟩
  simp only [statusRaised, show (seqCode .fail).toNat = 13 from rfl, Bool.toNat_true, Bool.toNat_false]
  omega

end Sys2Proof.Machine
end

section
/-! Proofs, what a command leaves unchanged and what its counters count: each from one lemma on the moves of
Laws/Moves.lean (R33, R45, R46, R94). -/

namespace Sys2Proof.Machine

/-! ## Fields that a command keeps -/

/-- What `CheckCapacity()` leaves (R119), as one update. -/
theorem State.capacityChecked_eq (s : State) :
    s.capacityChecked = { s with
      result := if insufficient s then 0 else 1, status := { s.status with insuf := s.status.insuf || insufficient s } } := by
  cases h : insufficient s <;> simp [State.capacityChecked, h, statusInsufficient]

/-- A field that no move of the command changes, and that its end does not change, is at the end what it was at the start. -/
theorem exec_unchanged {γ : Type} (f : State → γ) {i : Instr} {s t : State}
    (hm : ∀ k ∈ moveKinds i, ∀ u v, Move k u v → f v = f u) (hf : ∀ u : State, f u.finish = f u)
    (hr : ∀ (u : State) (r : Raise), f (u.raise r) = f u) (h : exec i s = .next t) : f t = f (s.start (encode i)) := by
  obtain ⟨u, hp, rfl | ⟨r, rfl⟩⟩ := exec_path h
  · exact (hf u).trans (hp.unchanged f hm)
  · exact (hr u r).trans (hp.unchanged f hm)

/-- What no command writes: the operands of R94, the reset line and the side of the host. -/
def State.operands (s : State) : (Word × Word × Word × Word) × Vector Byte Config.markerSlots × Bool × HostSide :=
  ((s.arg, s.mlen, s.elen, s.plen), s.marker, s.resetLine, s.host)

section moves
variable {k : MoveKind} {s t : State}

theorem Move.operands_eq (m : Move k s t) : t.operands = s.operands := by
  cases m with
  | check => rw [State.capacityChecked_eq]; rfl
  | _ => simp [State.operands, -State.withHdrByte_eq]

theorem Move.cmd_eq (m : Move k s t) : t.cmd = s.cmd := by
  cases m with
  | check => rw [State.capacityChecked_eq]
  | _ => simp [-State.withHdrByte_eq]

theorem Move.result_eq (m : Move k s t) (h1 : k ≠ .check) (h2 : k ≠ .result) : t.result = s.result := by
  cases m with
  | check => exact absurd rfl h1
  | result => exact absurd rfl h2
  | _ => simp [-State.withHdrByte_eq]

theorem Move.capacity_eq (m : Move k s t) (h : k ≠ .estimate) : (t.width, t.height, t.cap) = (s.width, s.height, s.cap) := by
  cases m with
  | estimate => exact absurd rfl h
  | check => rw [State.capacityChecked_eq]
  | _ => simp [-State.withHdrByte_eq]

theorem Move.hdr_eq (m : Move k s t) (h : k ≠ .hdr) : t.hdr = s.hdr := by
  cases m with
  | hdr => exact absurd rfl h
  | check => rw [State.capacityChecked_eq]
  | _ => simp

theorem Move.decoded_eq (m : Move k s t) (h : k ≠ .decoded) : (t.rxElen, t.rxPlen) = (s.rxElen, s.rxPlen) := by
  cases m with
  | decoded => exact absurd rfl h
  | check => rw [State.capacityChecked_eq]
  | _ => simp [-State.withHdrByte_eq]

theorem Move.insuf_eq (m : Move k s t) (h : k ≠ .check) : t.status.insuf = s.status.insuf := by
  cases m with
  | check => exact absurd rfl h
  | seq => rfl
  | _ => simp [-State.withHdrByte_eq]

end moves

/-- A command whose row of R94 does not list INSUF leaves it 0 (R29, R95). -/
theorem exec_insuf {i : Instr} {s t : State} (hi : i ∉ [Instr.chkcap, .encode]) (h : exec i s = .next t) :
    t.status.insuf = false := by
  have hk : ∀ k ∈ moveKinds i, k ≠ .check := by revert hi; cases i <;> decide
  exact exec_unchanged (fun u => u.status.insuf) (fun k hm u v m => m.insuf_eq (hk k hm)) (fun _ => rfl) (fun _ _ => rfl) h

/-- Settles O17. -/
theorem commandsKeepTheirOperands : Obligations.CommandsKeepTheirOperands := by
  intro i s t h
  have e : t.operands = s.operands :=
    exec_unchanged State.operands (fun _ _ _ _ m => m.operands_eq) (fun _ => rfl) (fun _ _ => rfl) h
  simpa [State.operands, and_assoc] using e

/-- Settles O18: the kinds of move of a command are those of its row. -/
theorem resultsAreWrittenOnlyByTheirCommands : Obligations.ResultsAreWrittenOnlyByTheirCommands := by
  intro i s t h
  refine ⟨fun hi => ?_, fun hi => ?_, fun hi => ?_, fun hi => ?_, fun hi => exec_insuf hi h⟩
  · have hk : ∀ k ∈ moveKinds i, k ≠ .check ∧ k ≠ .result := by revert hi; cases i <;> decide
    exact exec_unchanged State.result (fun k hm _ _ m => m.result_eq (hk k hm).1 (hk k hm).2) (fun _ => rfl) (fun _ _ => rfl) h
  · have hk : ∀ k ∈ moveKinds i, k ≠ .estimate := by revert hi; cases i <;> decide
    have e := exec_unchanged (fun u => (u.width, u.height, u.cap)) (fun k hm _ _ m => m.capacity_eq (hk k hm))
      (fun _ => rfl) (fun _ _ => rfl) h
    simpa using e
  · have hk : ∀ k ∈ moveKinds i, k ≠ .hdr := by revert hi; cases i <;> decide
    exact exec_unchanged State.hdr (fun k hm _ _ m => m.hdr_eq (hk k hm)) (fun _ => rfl) (fun _ _ => rfl) h
  · have hk : ∀ k ∈ moveKinds i, k ≠ .decoded := by revert hi; cases i <;> decide
    have e := exec_unchanged (fun u => (u.rxElen, u.rxPlen)) (fun k hm _ _ m => m.decoded_eq (hk k hm))
      (fun _ => rfl) (fun _ _ => rfl) h
    simpa using e

/-! ## The counters -/

/-- From `s` to `t`, CCNT advanced by the bytes taken from CIN (R45) and OCNT by the bytes put on SOUT (R46). -/
def State.Counted (s t : State) : Prop :=
  (∃ used, s.cin.items = used ++ t.cin.items ∧ t.ccnt = s.ccnt + BitVec.ofNat 64 (byteCount used)) ∧
    ∃ out, t.sout.data = s.sout.data ++ out ∧ t.ocnt = s.ocnt + BitVec.ofNat 64 out.length

theorem byteCount_append (l l' : List Item) : byteCount (l ++ l') = byteCount l + byteCount l' := List.countP_append

theorem State.Counted.refl (s : State) : s.Counted s := ⟨⟨[], by simp [byteCount]⟩, [], by simp⟩

theorem State.Counted.trans {s t u : State} (h : s.Counted t) (h' : t.Counted u) : s.Counted u := by
  obtain ⟨⟨a, ha, hc⟩, b, hb, ho⟩ := h
  obtain ⟨⟨a', ha', hc'⟩, b', hb', ho'⟩ := h'
  exact ⟨⟨a ++ a', by simp [ha, ha'], by rw [hc', hc, byteCount_append, BitVec.ofNat_add, add_assoc]⟩,
    b ++ b', by simp [hb, hb'], by rw [ho', ho, List.length_append, BitVec.ofNat_add, add_assoc]⟩

/-- A change that leaves CIN, SOUT and both counters alone. -/
theorem State.Counted.of_eq {s t : State} (h1 : t.cin = s.cin) (h2 : t.ccnt = s.ccnt) (h3 : t.sout = s.sout)
    (h4 : t.ocnt = s.ocnt) : s.Counted t :=
  ⟨⟨[], by simp [h1, h2, byteCount]⟩, [], by simp [h3, h4]⟩

theorem Move.counted {k : MoveKind} {s t : State} (m : Move k s t) : s.Counted t := by
  cases m with
  | carrier _ b rest h => exact ⟨⟨[.byte b], h, rfl⟩, [], by simp⟩
  | carrierErr _ rest h => exact ⟨⟨[.err], h, by simp [byteCount]⟩, [], by simp⟩
  | stego _ b h => exact ⟨⟨[], by simp [byteCount]⟩, [b], rfl, rfl⟩
  | stegoMiss _ h => exact ⟨⟨[], by simp [byteCount]⟩, [], (List.append_nil _).symm, by simp⟩
  | source _ p hp =>
    cases p with
    | cin => exact absurd rfl hp
    | _ => exact .of_eq rfl rfl rfl rfl
  | sink _ p hp =>
    cases p with
    | sout => exact absurd rfl hp
    | _ => exact .of_eq rfl rfl rfl rfl
  | sinkMiss _ p hp =>
    cases p with
    | sout => exact absurd rfl hp
    | _ => exact .of_eq rfl rfl rfl rfl
  | check => rw [State.capacityChecked_eq]; exact .of_eq rfl rfl rfl rfl
  | _ => exact .of_eq rfl rfl rfl rfl

/-- Settles O21: both counters start at 0 (R95) and count along the path of the command. -/
theorem countersCountTheCommandsBytes : Obligations.CountersCountTheCommandsBytes := by
  intro i s t h
  have hc : (s.start (encode i)).Counted t := by
    obtain ⟨u, hp, rfl | ⟨r, rfl⟩⟩ := exec_path h
    all_goals exact hp.keeps .refl (fun _ _ _ => .trans) fun _ _ _ _ m => m.counted
  obtain ⟨⟨used, hi, hn⟩, out, hd, ho⟩ := hc
  exact ⟨⟨used, hi, by simp [hn]⟩, out, hd, by simp [ho]⟩

end Sys2Proof.Machine
end

section
/-! Proofs, commands that stop before they complete: the check of MLEN (R97, R251) and an unpack whose carrier stops
(R156). -/

namespace Sys2Proof.Machine

/-- A command that only reads the carrier in PRIM, and takes an error there after `n` bytes. -/
theorem exec_raises_readTo {i : Instr} {s : State} {r : Raise} {rest : List Item} {n : Nat} {h : Hidden}
    (hm : i = .encode ∨ i = .decode → s.MarkerLenOk) (hp : ∀ p ∈ portsRequired i, s.attached p = true)
    (hb : bodyOf i (s.start (encode i)) = .error r ((((s.start (encode i)).withSeq .prim).readTo rest n).withHidden h)) :
    exec i s = .next { s.failed (encode i) r.kind r.port .prim with
      cin := { s.cin with items := rest }, ccnt := BitVec.ofNat 64 n } :=
  (exec_raises hm hp hb).trans (congrArg _ (raise_readTo s i rest n h r .prim))

/-- Settles O36: `unpackBits_stop` at the two widths; RESULT would be written only after it (R151, R154). -/
theorem unpackStopsWhereTheCarrierStops : Obligations.UnpackStopsWhereTheCarrierStops := by
  intro s cs tail left k ha hi hstop
  obtain ⟨hr, rfl, rfl⟩ := hstop.facts
  have cin : ∀ p ∈ [Port.cin], s.attached p = true := by simpa [State.attached] using ha
  refine ⟨fun hl => ?_, fun hl => ?_⟩
  · obtain ⟨h, e⟩ := unpackBits_stop (by omega) (s := (s.start (encode .unpackb)).withSeq .prim) hl hi hr
    have e' : unpackByte ((s.start (encode .unpackb)).withSeq .prim) = _ := Engine.bind_error e
    exact exec_raises_readTo (i := .unpackb) (by simp) cin ((setSeq_bind ..).trans (Engine.bind_error e'))
  · obtain ⟨h, e⟩ := unpackBits_stop (by omega) (s := (s.start (encode .unpackw)).withSeq .prim) hl hi hr
    exact exec_raises_readTo (i := .unpackw) (by simp) cin ((setSeq_bind ..).trans (Engine.bind_error e))

/-- Settles O24: the check of MLEN comes first in validation. -/
theorem markerLengthOutOfRangeRaisesInvalidArguments : Obligations.MarkerLengthOutOfRangeRaisesInvalidArguments := by
  intro i s hi hm
  have hc : checksMarkerLen i = true := by obtain rfl | rfl := hi <;> rfl
  have hl : markerLenOk (s.start (encode i)) = false := by
    rw [← Bool.not_eq_true, markerLenOk_iff, State.start_mlen]
    omega
  rw [exec_eq, runCommand_invalid (validate_markerLen hc hl)]
  rfl

end Sys2Proof.Machine
end

section
/-! Proofs, the invariant of `State.Inv`. A command keeps STATUS, MARKER and CAP in order move by move; that INSUF = 1 goes
with RESULT = 0 (R119) needs that ENCODE checks the capacity once, which no path of moves says, so ENCODE is cut at its
check. -/

namespace Sys2Proof.Machine

/-! ## STATUS -/

/-- STATUS while a command runs: BUSY, no outcome, and a sequencer state from VALIDATE to PRIM (R25, R28, R95). -/
def Status.Running (q : Status) : Prop :=
  q.busy = true ∧ q.done = false ∧ q.fail = false ∧ q.err = 0 ∧ q.failstate = 0 ∧ q.failport = 0 ∧
    1 ≤ q.state.toNat ∧ q.state.toNat ≤ 11

theorem statusStarted_running : statusStarted.Running := by
  simp [Status.Running, statusStarted, Status.reset, seqCode]

theorem seqCode_running {c : Seq} (hc : c ≠ .idle ∧ c ≠ .done ∧ c ≠ .fail) :
    1 ≤ (seqCode c).toNat ∧ (seqCode c).toNat ≤ 11 := by
  revert hc
  cases c <;> decide

theorem Status.Running.at {q : Status} (h : q.Running) {c : Seq} (hc : c ≠ .idle ∧ c ≠ .done ∧ c ≠ .fail) :
    (statusAt c q).Running := by
  obtain ⟨hb, hd, hf, he, hs, hp, -⟩ := h
  exact ⟨hb, hd, hf, he, hs, hp, seqCode_running hc⟩

theorem Status.Running.done_legal {q : Status} (h : q.Running) : (statusDone q).Legal := by
  obtain ⟨-, -, hf, he, hs, hp, -⟩ := h
  exact ⟨rfl, .inr (.inl ⟨rfl, hf, he, rfl, hs, hp⟩)⟩

theorem errCode_bounds (k : ErrKind) : 1 ≤ (errCode k).toNat ∧ (errCode k).toNat ≤ 6 := by cases k <;> decide

theorem portIdOf_le (p : Option Port) : (portIdOf p).toNat ≤ 6 := by
  cases p with
  | none => decide
  | some p => cases p <;> decide

theorem Status.Running.raised_legal {q : Status} (h : q.Running) (r : Raise) : (statusRaised r q).Legal := by
  obtain ⟨-, -, -, -, -, -, hlo, hhi⟩ := h
  obtain ⟨h1, h2⟩ := errCode_bounds r.kind
  exact ⟨rfl, .inr (.inr ⟨rfl, rfl, h1, h2, rfl, hlo, hhi, portIdOf_le r.port⟩)⟩

/-! ## CAP -/

/-- CAP is the capacity of WIDTH and HEIGHT (R114). -/
def State.CapacityOk (s : State) : Prop :=
  s.cap.toNat = s.width.toNat * s.height.toNat * 3 / 8 ∧ s.cap.toNat < 2 ^ 63

/-- The capacity of two 32-bit numbers fits below 2^63, so CAP is exact (R40). -/
theorem capOf_toNat (w h : Word) : (capOf w h).toNat = w.toNat * h.toNat * 3 / 8 ∧ (capOf w h).toNat < 2 ^ 63 := by
  have hle : w.toNat * h.toNat ≤ (2 ^ 32 - 1) * (2 ^ 32 - 1) := Nat.mul_le_mul (by omega) (by omega)
  simp only [capOf, capBytes, Config.bytesPerPixel, Config.carrierBytesPerPayloadByte, BitVec.toNat_ofNat]
  rw [Nat.mod_eq_of_lt (by omega)]
  omega

/-! ## What the moves of a command keep -/

theorem Move.running {k : MoveKind} {s t : State} (m : Move k s t) (h : s.status.Running) : t.status.Running := by
  cases m with
  | seq _ q hq => exact h.at hq
  | check => rw [State.capacityChecked_eq]; exact h
  | _ => simpa [-State.withHdrByte_eq] using h

theorem Move.capacityOk {k : MoveKind} {s t : State} (m : Move k s t) (h : s.CapacityOk) : t.CapacityOk := by
  cases m with
  | estimate => exact capOf_toNat _ _
  | check => rw [State.capacityChecked_eq]; exact h
  | _ => simpa [State.CapacityOk, -State.withHdrByte_eq] using h

/-- At the end of a command STATUS is legal and CMD holds its word (R95, R255). -/
theorem exec_status {i : Instr} {s t : State} (h : exec i s = .next t) : t.status.Legal ∧ t.cmd = encode i := by
  obtain ⟨u, hp, ht⟩ := exec_path h
  have hc : u.cmd = encode i := hp.unchanged State.cmd fun _ _ _ _ m => m.cmd_eq
  have hr : u.status.Running := hp.keeps (R := fun s t => s.status.Running → t.status.Running) (fun _ => id)
    (fun _ _ _ h1 h2 => h2 ∘ h1) (fun _ _ _ _ m => m.running) statusStarted_running
  obtain rfl | ⟨r, rfl⟩ := ht
  · exact ⟨hr.done_legal, hc⟩
  · exact ⟨hr.raised_legal r, hc⟩

theorem exec_capacityOk {i : Instr} {s t : State} (hs : s.CapacityOk) (h : exec i s = .next t) : t.CapacityOk := by
  obtain ⟨u, hp, ht⟩ := exec_path h
  have hu : u.CapacityOk := hp.keeps (R := fun s t => s.CapacityOk → t.CapacityOk) (fun _ => id)
    (fun _ _ _ h1 h2 => h2 ∘ h1) (fun _ _ _ _ m => m.capacityOk) hs
  obtain rfl | ⟨r, rfl⟩ := ht <;> exact hu

/-! ## INSUF and RESULT -/

/-- INSUF = 1 goes with RESULT = 0 (R119). -/
def State.InsufOk (s : State) : Prop := s.status.insuf = true → s.result = 0

theorem insufOk_of_false {s : State} (h : s.status.insuf = false) : s.InsufOk := fun h' => by simp [h] at h'

/-- One check of the capacity, from INSUF = 0. -/
theorem capacityChecked_insufOk {s : State} (h : s.status.insuf = false) : s.capacityChecked.InsufOk := by
  intro h'
  rw [State.capacityChecked_eq] at h' ⊢
  have hi : insufficient s = true := by simpa [h] using h'
  simp [hi]

/-- The end of a command changes neither INSUF nor RESULT. -/
theorem endCommand_insufOk {x : EStateM.Result Raise State Unit} (hok : ∀ t, x = .ok () t → t.InsufOk)
    (herr : ∀ r t, x = .error r t → t.InsufOk) : (endCommand x).InsufOk := by
  cases x with
  | ok _ t => exact hok t rfl
  | error r t => exact herr r t rfl

/-- A part of a command without a check of the capacity leaves INSUF. -/
theorem Path.insuf_eq {ks : List MoveKind} {s t : State} (hk : MoveKind.check ∉ ks) (h : Path ks s t) :
    t.status.insuf = s.status.insuf :=
  h.unchanged (fun u => u.status.insuf) fun _ hm _ _ m => m.insuf_eq fun e => hk (e ▸ hm)

theorem endCommand_insuf_false {ks : List MoveKind} {m : Engine Unit} {s : State} (hk : MoveKind.check ∉ ks)
    (hm : Engine.Within ks m) (hs : s.status.insuf = false) : (endCommand (m s)).InsufOk :=
  endCommand_insufOk (fun t e => insufOk_of_false (((hm s).1 () t e).insuf_eq hk ▸ hs))
    fun r t e => insufOk_of_false (((hm s).2 r t e).insuf_eq hk ▸ hs)

section parts
variable {ks : List MoveKind} (hc : MoveKind.carrier ∈ ks) (hh : MoveKind.hidden ∈ ks) (ho : MoveKind.stego ∈ ks)
include hc hh ho

theorem within_packMarker : Engine.Within ks packMarker :=
  Within.bind Within.get fun _ => Within.forUpTo _ fun _ => Within.bind (Within.update hh fun s => .hidden s _) fun _ =>
    Within.bind Within.get fun _ => within_packBits _ hc hh ho

/-- The loop of EXT and of PAYLOAD (R177, R179). -/
theorem within_packSource {p : InId} (hp : p ≠ .cin) (hs : p.moveKind ∈ ks) (n : Nat) :
    Engine.Within ks (forUpTo n fun i => do modify (·.withIdx i); let b ← sourceRead p; packByte b) :=
  Within.forUpTo n fun _ => Within.bind (Within.update hh fun s => .hidden s _) fun _ =>
    Within.bind (within_sourceRead hp hs) fun b => within_packBits b hc hh ho

end parts

/-- The states of ENCODE after CAPCHECK, in order (R171). -/
def encodeTail : Engine Unit := do
  setSeq .hdrcopy
  emitHeader
  setSeq .marker
  packMarker
  setSeq .extlen
  packInt32 (← get).elen
  setSeq .ext
  packExt
  setSeq .paylen
  packInt32 (← get).plen
  setSeq .payload
  packPayload
  setSeq .trailer
  copyRest

theorem encodeBody_eq :
    encodeBody = (do setSeq .header; readHeader; setSeq .capcheck; capCheck; encodeTail : Engine Unit) := rfl

/-- The kinds of move of ENCODE after CAPCHECK. -/
def tailKinds : List MoveKind := [.seq, .hidden, .carrier, .stego, .pin, .ein]

theorem within_encodeTail : Engine.Within tailKinds encodeTail := by
  have seq : ∀ q : Seq, q ≠ .idle ∧ q ≠ .done ∧ q ≠ .fail → Engine.Within tailKinds (setSeq q) :=
    fun q hq => within_seq (by decide) hq
  have word : ∀ v : Word, Engine.Within tailKinds (packInt32 v) :=
    fun v => within_packBits v (by decide) (by decide) (by decide)
  have source : ∀ p : InId, p ≠ .cin → p.moveKind ∈ tailKinds → ∀ n, Engine.Within tailKinds
      (forUpTo n fun i => do modify (·.withIdx i); let b ← sourceRead p; packByte b) :=
    fun p hp hs n => within_packSource (by decide) (by decide) (by decide) hp hs n
  exact Within.bind (seq .hdrcopy (by decide)) fun _ => Within.bind (within_emitHeader (by decide) (by decide)) fun _ =>
    Within.bind (seq .marker (by decide)) fun _ =>
    Within.bind (within_packMarker (by decide) (by decide) (by decide)) fun _ =>
    Within.bind (seq .extlen (by decide)) fun _ => Within.bind Within.get fun s => Within.bind (word s.elen) fun _ =>
    Within.bind (seq .ext (by decide)) fun _ =>
    Within.bind (Within.bind Within.get fun _ => source .ein (by decide) (by decide) _) fun _ =>
    Within.bind (seq .paylen (by decide)) fun _ => Within.bind Within.get fun s => Within.bind (word s.plen) fun _ =>
    Within.bind (seq .payload (by decide)) fun _ =>
    Within.bind (Within.bind Within.get fun _ => source .pin (by decide) (by decide) _) fun _ =>
    Within.bind (seq .trailer (by decide)) fun _ => within_copyRest (by decide) (by decide)

/-- ENCODE checks the capacity once: it stops there, or goes on with INSUF = 0. -/
theorem encodeBody_insufOk {s : State} (hs : s.status.insuf = false) : (endCommand (encodeBody s)).InsufOk := by
  have header : ∀ t : State, Path [.carrier, .hidden, .hdr] (s.withSeq .header) t → t.status.insuf = false :=
    fun _ p => (p.insuf_eq (by decide)).trans hs
  have wh := within_readHeader (ks := [.carrier, .hidden, .hdr]) (by decide) (by decide) (by decide) (s.withSeq .header)
  rw [encodeBody_eq, setSeq_bind]
  cases e : readHeader (s.withSeq .header) with
  | error r t =>
    rw [Engine.bind_error e]
    exact insufOk_of_false (header t (wh.2 r t e))
  | ok a t =>
    have ht : (t.withSeq .capcheck).estimated.status.insuf = false := header t (wh.1 a t e)
    rw [Engine.bind_ok e, setSeq_bind]
    have hc := capCheck_eq (t.withSeq .capcheck)
    cases hi : insufficient (t.withSeq .capcheck).estimated with
    | true =>
      rw [hi, if_pos rfl] at hc
      rw [Engine.bind_error hc]
      exact capacityChecked_insufOk ht
    | false =>
      rw [hi, if_neg (by decide)] at hc
      rw [Engine.bind_ok hc]
      refine endCommand_insuf_false (by decide) within_encodeTail ?_
      rw [State.capacityChecked_eq, hi, Bool.or_false]
      exact ht

/-- A command ends with validation failed and nothing done, or as its body ends. -/
theorem exec_cases {i : Instr} {s t : State} (h : exec i s = .next t) :
    (∃ r, t = (s.start (encode i)).raise r) ∨ t = endCommand (bodyOf i (s.start (encode i))) := by
  rw [exec_eq] at h
  obtain ⟨r, -, e⟩ | ⟨-, ⟨r, u, hb, e⟩ | ⟨u, hb, e⟩⟩ := runCommand_cases i (bodyOf i) s <;> rw [e] at h <;> cases h
  · exact .inl ⟨r, rfl⟩
  · exact .inr (by rw [hb]; rfl)
  · exact .inr (by rw [hb]; rfl)

theorem exec_insufOk {i : Instr} {s t : State} (h : exec i s = .next t) : t.InsufOk := by
  by_cases hi : i ∈ [Instr.chkcap, .encode]
  · obtain ⟨r, rfl⟩ | rfl := exec_cases h
    · exact insufOk_of_false rfl
    · obtain rfl | rfl : i = .chkcap ∨ i = .encode := by simpa using hi
      · exact capacityChecked_insufOk (s := (s.start (encode .chkcap)).withSeq .prim) rfl
      · exact encodeBody_insufOk rfl
  · exact insufOk_of_false (exec_insuf hi h)

/-! ## The invariant over the actions of the host -/

theorem decode_encode (i : Instr) : decode (encode i) = .ok i := by cases i <;> rfl

/-- The fields that the invariant is about. -/
def State.invPart (s : State) : Word × Status × Word × (Word × Word × Dword) × Vector Byte Config.markerSlots :=
  (s.cmd, s.status, s.result, (s.width, s.height, s.cap), s.marker)

theorem State.Inv.of_invPart {s t : State} (h : s.Inv) (e : t.invPart = s.invPart) : t.Inv := by
  obtain ⟨hc, hq, hr, ⟨hw, hh, hcap⟩, hm⟩ : t.cmd = s.cmd ∧ t.status = s.status ∧ t.result = s.result ∧
      (t.width = s.width ∧ t.height = s.height ∧ t.cap = s.cap) ∧ t.marker = s.marker := by
    simpa [State.invPart] using e
  rwa [State.Inv, hc, hq, hr, hw, hh, hcap, hm]

theorem exec_inv {i : Instr} {s t : State} (hs : s.Inv) (h : exec i s = .next t) : t.Inv := by
  obtain ⟨-, hm, hc, -⟩ := hs
  obtain ⟨hq, hcmd⟩ := exec_status h
  obtain ⟨-, -, -, -, he, -⟩ := commandsKeepTheirOperands i s t h
  exact ⟨hq, he ▸ hm, exec_capacityOk hc h, exec_insufOk h, fun _ => ⟨i, hcmd ▸ decode_encode i⟩⟩

theorem rejectCommand_inv {s : State} (v : Word) (hs : s.Inv) : (rejectCommand v s).Inv := by
  obtain ⟨-, hm, hc, -⟩ := hs
  exact ⟨statusStarted_running.raised_legal _, hm, hc, insufOk_of_false rfl, fun h => Bool.noConfusion h⟩

/-- A store in a register of the map touches no slot of MARKER at or above MARKER_MAX (R43). -/
theorem writeReg_inv {s : State} {r : Reg} (hr : r.InMap) (v : Word) (hs : s.Inv) : (writeReg s r v).Inv := by
  cases r with
  | marker i =>
    obtain ⟨hq, hm, hrest⟩ := hs
    have hi : i < Config.markerMax := hr
    have hb := markerMax_bounds
    refine ⟨hq, fun j hj => ?_, hrest⟩
    rw [writeReg, fileByte_set _ (show i < 64 by omega), if_neg (by omega)]
    exact hm j hj
  | _ => exact hs.of_invPart rfl

/-- All that a write of CMD can do: nothing, a command, or a rejected word. -/
theorem writeCmd_cases {v : Word} {s t : State} (h : writeCmd v s = .next t) :
    t = s ∨ (∃ i u, decode v = .ok i ∧ exec i s = .next u ∧ t = u.judged s) ∨ t = rejectCommand v s := by
  rw [writeCmd] at h
  split at h
  · cases h
    exact .inl rfl
  · cases hd : decode v with
    | ok i =>
      obtain ⟨u, hu⟩ := exec_next i s
      rw [hd] at h
      have e := (runJudged_eq hu).symm.trans h
      cases e
      exact .inr (.inl ⟨i, u, rfl, hu, rfl⟩)
    | error _ =>
      rw [hd] at h
      cases h
      exact .inr (.inr rfl)

/-- All that a host write with a meaning can do: nothing, a store in a register of the map, or a write of CMD. -/
theorem hostWrite_cases {off size : Nat} {v : Word} {s t : State} (h : hostWrite off size v s = .next t) :
    t = s ∨ (∃ r, r.InMap ∧ t = writeReg s r v) ∨ writeCmd v s = .next t := by
  cases hok : accessOk off size with
  | false => simp [hostWrite, hok] at h
  | true =>
    obtain rfl : size = 4 := by
      simp only [accessOk, Bool.and_eq_true, beq_iff_eq] at hok
      exact hok.1.1
    have ha : WellFormed.access off 4 = true := hok
    cases hr : regAt off with
    | none =>
      rw [hostWrite_unmapped v s ha hr] at h
      cases h
      exact .inl rfl
    | some r =>
      by_cases hc : r = .cmd
      · subst hc
        rw [hostWrite_cmd v s ha hr] at h
        exact .inr (.inr h)
      · rw [hostWrite_reg v s ha hr hc] at h
        cases h
        split
        · exact .inl rfl
        · exact .inr (.inl ⟨r, (regAt_some (access_iff.mp ha).1 hr).2, rfl⟩)

theorem hostWrite_inv {off size : Nat} {v : Word} {s t : State} (hs : s.Inv) (h : hostWrite off size v s = .next t) :
    t.Inv := by
  obtain rfl | ⟨r, hr, rfl⟩ | h := hostWrite_cases h
  · exact hs
  · exact writeReg_inv hr v hs
  · obtain rfl | ⟨i, u, -, hu, rfl⟩ | rfl := writeCmd_cases h
    · exact hs
    · exact (exec_inv hs hu).of_invPart rfl
    · exact rejectCommand_inv v hs

theorem portAction_invPart {f : State → State} {s t : State} (hf : (f s).invPart = s.invPart)
    (h : portAction f s = .next t) : t.invPart = s.invPart := by
  rw [portAction] at h
  split at h <;> cases h
  exact hf

theorem hostRead_next {off size : Nat} {s t : State} (h : hostRead off size s = .next t) : ∃ v, t = s.traced v := by
  rw [hostRead] at h
  split at h <;> cases h
  exact ⟨_, rfl⟩

theorem hostBranch_next {eq : Bool} {off hi lo target : Nat} {v : Word} {s t : State}
    (h : hostBranch eq off hi lo v target s = .next t) : ∃ v, t = s.traced v ∨ t = (s.traced v).goto target := by
  rw [hostBranch] at h
  split at h <;> cases h
  refine ⟨readOffset s off, ?_⟩
  split
  · exact .inr rfl
  · exact .inl rfl

/-- An action of the host that is no register write leaves what the invariant is about. -/
theorem hostAct_invPart {c : HostStmt} {s t : State} (hc : ∀ off size v, c ≠ .wr off size v) (h : hostAct c s = .next t) :
    t.invPart = s.invPart := by
  cases c with
  | wr off size v => exact absurd rfl (hc off size v)
  | rd => obtain ⟨v, rfl⟩ := hostRead_next h; rfl
  | beq => obtain ⟨v, rfl | rfl⟩ := hostBranch_next h <;> rfl
  | bne => obtain ⟨v, rfl | rfl⟩ := hostBranch_next h <;> rfl
  | halt => cases h; rfl
  | reset => cases h; rfl
  | _ =>
    rw [hostAct] at h
    exact portAction_invPart (by simp [State.invPart]) h

theorem hostAct_inv {c : HostStmt} {s t : State} (hs : s.Inv) (h : hostAct c s = .next t) : t.Inv := by
  by_cases hc : ∃ off size v, c = .wr off size v
  · obtain ⟨off, size, v, rfl⟩ := hc
    exact hostWrite_inv hs h
  · exact hs.of_invPart (hostAct_invPart (fun off size v e => hc ⟨off, size, v, e⟩) h)

/-- Settles O16. -/
theorem resetSatisfiesTheInvariant : Obligations.ResetSatisfiesTheInvariant :=
  ⟨⟨rfl, .inl rfl⟩, fun i _ => fileByte_replicate_zero _ i, ⟨rfl, by decide⟩, fun _ => rfl, fun h => Bool.noConfusion h⟩

/-- Settles O15: a step is a reset, an action of the host, or nothing. -/
theorem everyStepKeepsTheInvariant : Obligations.EveryStepKeepsTheInvariant := by
  intro s t hs h
  rw [step, stepOnce] at h
  split at h
  · cases h
    exact resetSatisfiesTheInvariant.of_invPart rfl
  · cases hn : nextStmt s with
    | none =>
      rw [hn] at h
      cases h
      exact hs
    | some c =>
      rw [hn] at h
      exact hostAct_inv (s := s.advance) (hs.of_invPart rfl) h

end Sys2Proof.Machine
end

section
/-! Proofs, one action of the host as a step: a command word (R95, R78), a register read (R62), an access without a meaning
(R62), an action on a port (R280, R281). -/

namespace Sys2Proof.Machine

/-- A step with the reset line released is the host's next action, its position moved on. -/
theorem step_hostAct {s : State} {c : HostStmt} (h1 : s.resetLine = false) (h2 : nextStmt s = some c) :
    step s = hostAct c s.advance := by
  simp only [step, stepOnce, h1, h2]
  rfl

/-- Settles O4: a command keeps the side of the host, so its judgement is all that the step adds. -/
theorem stepRunsDecodedCommand : Obligations.StepRunsDecodedCommand := by
  intro s v i h1 h2 h3 h4
  obtain ⟨t, ht⟩ := exec_next i s.advance
  obtain ⟨-, -, -, -, -, -, hh⟩ := commandsKeepTheirOperands i s.advance t ht
  exact ⟨t, t.judged s.advance, ht, (step_command h1 h2 h3 h4).trans (runJudged_eq ht),
    fun hf => State.judged_of_done hf hh, rfl⟩

/-- A register read with a meaning shows the value to the host and does nothing else. -/
theorem hostRead_ok {off : Nat} (s : State) (ha : WellFormed.access off 4 = true) :
    hostRead off 4 s = .next (s.traced (readOffset s off)) := by
  rw [hostRead, accessOk_eq, ha]
  rfl

/-- No register shows the host's position. -/
theorem readOffset_advance (s : State) (off : Nat) : readOffset s.advance off = readOffset s off := by
  rw [readOffset, readOffset]
  cases regAt off with
  | none => rfl
  | some r => cases r <;> rfl

/-- Settles O7. -/
theorem hostReadHasNoSideEffect : Obligations.HostReadHasNoSideEffect := by
  intro s off h1 h2 ha
  rw [step_hostAct h1 h2, hostAct, hostRead_ok _ ha, readOffset_advance]
  rfl

theorem accessOk_false {off size : Nat} (h : ¬(size = 4 ∧ off % 4 = 0 ∧ off < 0x400)) : accessOk off size = false := by
  rw [← Bool.not_eq_true]
  simpa [accessOk, and_assoc] using h

/-- Settles O10: both accesses ask `accessOk` first. -/
theorem accessWithoutMeaningIsRefused : Obligations.AccessWithoutMeaningIsRefused := by
  intro s off size v h
  have ha := accessOk_false h
  exact ⟨by rw [hostWrite, ha]; rfl, by rw [hostRead, ha]; rfl⟩

/-! ## Port actions -/

theorem portAction_idle {s : State} (f : State → State) (h : s.status.busy = false) : portAction f s = .next (f s) := by
  rw [portAction, h]
  rfl

theorem portAction_busy {s : State} (f : State → State) (h : s.status.busy = true) :
    portAction f s = .refused .portActionWhileBusy := if_pos h

/-- Attaching or detaching a port sets the flag of that port only. -/
theorem State.withAttached_attached (s : State) (p : Port) (b : Bool) (q : Port) :
    (s.withAttached p b).attached q = if q = p then b else s.attached q := by
  cases p <;> cases q <;> rfl

theorem State.withAttached_items (s : State) (p : Port) (b : Bool) (q : InId) :
    ((s.withAttached p b).inPort q).items = (s.inPort q).items := by
  cases p <;> cases q <;> rfl

theorem State.withAttached_outPort (s : State) (p : Port) (b : Bool) (q : OutId) :
    { (s.withAttached p b).outPort q with attached := (s.outPort q).attached } = s.outPort q := by
  cases p <;> cases q <;> rfl

theorem State.withAttached_frame (s : State) (p : Port) (b : Bool) :
    { s.withAttached p b with
      cin := s.cin, pin := s.pin, ein := s.ein, sout := s.sout, pout := s.pout, eout := s.eout } = s := by
  cases p <;> rfl

/-- Settles O11. -/
theorem portActionsChangeOnlyTheirPort : Obligations.PortActionsChangeOnlyTheirPort := by
  intro s
  refine ⟨fun hb => ?_, fun hb c hc => ?_⟩
  · have idle : ∀ f : State → State, portAction f s = .next (f s) := fun f => portAction_idle f hb
    refine ⟨fun p items => idle (fun s => s.withIn p { s.inPort p with items := items }), fun p => ?_,
      fun p => idle (·.took p), fun p ks => idle (fun s => s.withOut p { s.outPort p with fails := ks }),
      fun p => idle (·.withAttached p true), fun p => idle (·.withAttached p false), fun p b =>
      ⟨s.withAttached_attached p b, s.withAttached_items p b, s.withAttached_outPort p b, s.withAttached_frame p b⟩⟩
    rw [hostAct, idle, State.cleared, State.withOut_host]
  · obtain ⟨p, items, rfl⟩ | ⟨p, rfl⟩ | ⟨p, rfl⟩ | ⟨p, rfl⟩ | ⟨p, rfl⟩ | ⟨p, ks, rfl⟩ := hc
    all_goals rw [hostAct, portAction_busy _ hb]

end Sys2Proof.Machine
end

section
/-! Proofs, what a command does to its ports (R64, R65, R84). -/

namespace Sys2Proof.Machine

/-- Items were taken from the front of an input port. -/
def InPort.Consumed (q q' : InPort) : Prop := q'.attached = q.attached ∧ ∃ used, q.items = used ++ q'.items

/-- Bytes were appended to an output port. -/
def OutPort.Extended (q q' : OutPort) : Prop :=
  q'.attached = q.attached ∧ q'.fails = q.fails ∧ ∃ out, q'.data = q.data ++ out

/-- From `s` to `t`, input ports were consumed and output ports appended to. -/
def State.PortsMoved (s t : State) : Prop :=
  (∀ p, (s.inPort p).Consumed (t.inPort p)) ∧ ∀ p, (s.outPort p).Extended (t.outPort p)

theorem InPort.Consumed.refl (q : InPort) : q.Consumed q := ⟨rfl, [], rfl⟩

theorem OutPort.Extended.refl (q : OutPort) : q.Extended q := ⟨rfl, rfl, [], by simp⟩

theorem InPort.Consumed.trans {q q' q'' : InPort} (h : q.Consumed q') (h' : q'.Consumed q'') : q.Consumed q'' := by
  obtain ⟨ha, u, hu⟩ := h
  obtain ⟨ha', u', hu'⟩ := h'
  exact ⟨ha'.trans ha, u ++ u', by rw [hu, hu', List.append_assoc]⟩

theorem OutPort.Extended.trans {q q' q'' : OutPort} (h : q.Extended q') (h' : q'.Extended q'') : q.Extended q'' := by
  obtain ⟨ha, hf, o, ho⟩ := h
  obtain ⟨ha', hf', o', ho'⟩ := h'
  exact ⟨ha'.trans ha, hf'.trans hf, o ++ o', by rw [ho', ho, List.append_assoc]⟩

theorem OutPort.wrote_extended (q : OutPort) (b : Byte) : q.Extended (q.wrote b) := ⟨rfl, rfl, [b], rfl⟩

theorem OutPort.missed_extended (q : OutPort) : q.Extended q.missed := ⟨rfl, rfl, [], (List.append_nil _).symm⟩

theorem State.PortsMoved.refl (s : State) : s.PortsMoved s := ⟨fun _ => .refl _, fun _ => .refl _⟩

theorem State.PortsMoved.trans {s t u : State} (h : s.PortsMoved t) (h' : t.PortsMoved u) : s.PortsMoved u :=
  ⟨fun p => (h.1 p).trans (h'.1 p), fun p => (h.2 p).trans (h'.2 p)⟩

/-- A change of one input port. -/
theorem State.PortsMoved.withIn {s : State} {p : InId} {q : InPort} (h : (s.inPort p).Consumed q) :
    s.PortsMoved (s.withIn p q) := by
  refine ⟨fun p' => ?_, fun p' => by rw [State.withIn_outPort]; exact .refl _⟩
  by_cases e : p' = p
  · subst e
    rwa [State.withIn_inPort]
  · rw [State.withIn_inPort_ne s e]
    exact .refl _

/-- A change of one output port. -/
theorem State.PortsMoved.withOut {s : State} {p : OutId} {q : OutPort} (h : (s.outPort p).Extended q) :
    s.PortsMoved (s.withOut p q) := by
  refine ⟨fun p' => by rw [State.withOut_inPort]; exact .refl _, fun p' => ?_⟩
  by_cases e : p' = p
  · subst e
    rwa [State.withOut_outPort]
  · rw [State.withOut_outPort_ne s e]
    exact .refl _

theorem Move.portsMoved {k : MoveKind} {s t : State} (m : Move k s t) : s.PortsMoved t := by
  cases m with
  | carrier _ b rest h => exact State.PortsMoved.withIn (p := .cin) ⟨rfl, [.byte b], h⟩
  | carrierErr _ rest h => exact .withIn ⟨rfl, [.err], h⟩
  | source _ p hp i rest h => exact .withIn ⟨rfl, [i], h⟩
  | stego _ b h => exact State.PortsMoved.withOut (p := .sout) (s.sout.wrote_extended b)
  | stegoMiss _ h => exact .withOut s.sout.missed_extended
  | sink _ p hp b h => exact .withOut (OutPort.wrote_extended _ b)
  | sinkMiss _ p hp h => exact .withOut (OutPort.missed_extended _)
  | check => rw [State.capacityChecked_eq]; exact .refl s
  | _ => exact .refl s

/-- The start of a command only sets the counts of write attempts back (R65, R95). -/
theorem State.start_portsMoved (s : State) (v : Word) : s.PortsMoved (s.start v) := by
  refine ⟨fun p => ?_, fun p => ?_⟩
  · cases p <;> exact .refl _
  · cases p <;> exact ⟨rfl, rfl, [], (List.append_nil _).symm⟩

/-- Settles O20: every move of a command takes items from the front or appends bytes. -/
theorem inputsAreConsumedAndOutputsAppended : Obligations.InputsAreConsumedAndOutputsAppended := by
  intro i s t h
  obtain ⟨u, hp, ht⟩ := exec_path h
  have hu : s.PortsMoved u :=
    (s.start_portsMoved _).trans (hp.keeps .refl (fun _ _ _ => .trans) fun _ _ _ _ m => m.portsMoved)
  obtain rfl | ⟨r, rfl⟩ := ht <;> exact hu

end Sys2Proof.Machine
end

section
/-! Proofs, commands of one primitive: an error in PRIM after bytes were moved or a write was missed (R66, R67, R255, R257),
and the exact capacity of CAPEST (R114). -/

namespace Sys2Proof.Machine

/-! ## An error after bytes were moved -/

/-- An error of a running command that has moved bytes. -/
theorem exec_raises_moved {i : Instr} {s : State} {r : Raise} {q : Seq} {rest : List Item} {n : Nat} {out : List Byte}
    {h : Hidden} (hm : i = .encode ∨ i = .decode → s.MarkerLenOk) (hp : ∀ p ∈ portsRequired i, s.attached p = true)
    (hb : bodyOf i (s.start (encode i)) = .error r (((s.start (encode i)).withSeq q).moved rest n out h)) :
    exec i s = .next { s.failed (encode i) r.kind r.port q with
      cin := { s.cin with items := rest }, ccnt := BitVec.ofNat 64 n, ocnt := BitVec.ofNat 64 out.length
      sout := { s.sout with data := s.sout.data ++ out, attempts := out.length } } :=
  (exec_raises hm hp hb).trans (congrArg _ (raise_moved s i rest n out h r q))

/-- A raise leaves the ports as they are (R255), a missed write included. -/
theorem State.raise_sinkMissed (s : State) (p : OutId) (r : Raise) : (s.sinkMissed p).raise r = (s.raise r).sinkMissed p := by
  cases p <;> rfl

/-- An error after a write to SOUT was missed, the attempt counted (R65). -/
theorem raise_missed (s : State) (i : Instr) (rest : List Item) (n : Nat) (out : List Byte) (h : Hidden) (r : Raise)
    (q : Seq) :
    ((((s.start (encode i)).withSeq q).moved rest n out h).stegoMissed).raise r =
      { s.failed (encode i) r.kind r.port q with
        cin := { s.cin with items := rest }, ccnt := BitVec.ofNat 64 n, ocnt := BitVec.ofNat 64 out.length
        sout := { s.sout with data := s.sout.data ++ out, attempts := out.length + 1 } } := by
  refine (State.raise_sinkMissed _ .sout r).trans ?_
  rw [State.moved, raise_moved]
  rfl

/-- An error of a running command whose write to SOUT failed. -/
theorem exec_raises_missed {i : Instr} {s : State} {r : Raise} {q : Seq} {rest : List Item} {n : Nat} {out : List Byte}
    {h : Hidden} (hm : i = .encode ∨ i = .decode → s.MarkerLenOk) (hp : ∀ p ∈ portsRequired i, s.attached p = true)
    (hb : bodyOf i (s.start (encode i)) = .error r (((s.start (encode i)).withSeq q).moved rest n out h).stegoMissed) :
    exec i s = .next { s.failed (encode i) r.kind r.port q with
      cin := { s.cin with items := rest }, ccnt := BitVec.ofNat 64 n, ocnt := BitVec.ofNat 64 out.length
      sout := { s.sout with data := s.sout.data ++ out, attempts := out.length + 1 } } :=
  (exec_raises hm hp hb).trans (congrArg _ (raise_missed s i rest n out h r q))

/-- A command in `q` that has moved nothing yet, as a running command. -/
theorem start_eq_moved (s : State) (v : Word) (q : Seq) {l : List Item} (hi : s.cin.items = l) :
    (s.start v).withSeq q = ((s.start v).withSeq q).moved l 0 [] s.hidden := by
  subst hi
  exact State.moved_self _

theorem State.stegoOut_eq_moved (X : State) (rest : List Item) (n : Nat) (out : List Byte) :
    (X.readTo rest n).stegoOut out = X.moved rest n out X.hidden := rfl

/-- The writes to SOUT that do not fail, as the attempts of a command that has just started. -/
theorem OutPort.NoFails.started {q : OutPort} {n : Nat} (h : q.NoFails n) :
    ∀ k, k < n → 0 + ([] : List Byte).length + k ∉ q.fails := by simpa using h

theorem fails_started {q : OutPort} {n : Nat} (h : n ∈ q.fails) : 0 + ([] : List Byte).length + n ∈ q.fails := by
  simpa using h

theorem attached_cin {s : State} (h : s.cin.attached = true) : ∀ p ∈ [Port.cin], s.attached p = true := by
  simpa [State.attached] using h

/-- CIN and SOUT attached are the ports of a command that packs or copies. -/
theorem attached_cin_sout {s : State} (h1 : s.cin.attached = true) (h2 : s.sout.attached = true) :
    ∀ p ∈ [Port.cin, .sout], s.attached p = true := by simp [State.attached, h1, h2]

/-! ## LOADHDR and CAPEST -/

/-- Settles O26: `readHeader_stop` in PRIM. -/
theorem loadhdrStopsWhereTheCarrierStops : Obligations.LoadhdrStopsWhereTheCarrierStops := by
  intro s bs tail left k ha hl hi hstop
  obtain ⟨hr, rfl, rfl⟩ := hstop.facts
  obtain ⟨h, g, e, hg⟩ := readHeader_stop (s := (s.start (encode .loadhdr)).withSeq .prim) hl hi hr
  refine ⟨_, exec_raises (i := .loadhdr) (by simp) (attached_cin ha) e, ?_, fun j _ => hg j⟩
  simp [State.readTo, State.start]
  rfl

/-- Settles O27: `estimated_eq`, and CAP is exact by `capOf_toNat`. -/
theorem capestComputesTheExactCapacity : Obligations.CapestComputesTheExactCapacity := by
  intro s
  have field : ∀ off, (hdrLe32 s off).toNat = hdrNumber s.hdr off := fun off => by
    rw [hdrLe32_eq, BitVec.toNat_ofNat, Nat.mod_eq_of_lt (hdrNumber_lt _ _)]
  exact ⟨_, exec_completes (i := .capest) (by simp) (by simp [portsRequired]) rfl, rfl, field 18, field 22,
    (capOf_toNat _ _).1⟩

/-! ## PACKB and PACKW -/

theorem argByte_eq (s : State) : argByte s = s.arg.setWidth 8 := by
  apply BitVec.eq_of_toNat_eq
  simp [argByte]

/-- The body of PACKB and of PACKW: one unit packed in PRIM (R131, R134). -/
theorem packb_body (s : State) :
    bodyOf .packb (s.start (encode .packb)) =
      packBits (s.arg.setWidth 8 : Byte) ((s.start (encode .packb)).withSeq .prim) := by
  rw [← argByte_eq]
  rfl

theorem packw_body (s : State) :
    bodyOf .packw (s.start (encode .packw)) = packBits s.arg ((s.start (encode .packw)).withSeq .prim) := rfl

section pack
variable {i : Instr} {w : Nat} {v : BitVec w} {s : State} {cs : List Byte}
  (hm : i = .encode ∨ i = .decode → s.MarkerLenOk) (hp : ∀ p ∈ portsRequired i, s.attached p = true)
  (hb : bodyOf i (s.start (encode i)) = packBits v ((s.start (encode i)).withSeq .prim))
include hm hp hb

/-- A command that packs one unit in PRIM, over a carrier that stops at bit `cs.length` (R135). -/
theorem exec_pack_carrier_stop {tail left : List Item} {k : ErrKind} (hi : s.cin.items = asItems cs ++ tail)
    (hstop : CarrierStop tail k left) (hf : s.sout.NoFails cs.length) (hl : cs.length < w) :
    exec i s = .next { s.failed (encode i) k (some .cin) .prim with
      cin := { s.cin with items := left }, ccnt := BitVec.ofNat 64 cs.length, ocnt := BitVec.ofNat 64 cs.length
      sout := { s.sout with data := s.sout.data ++ embed cs (bitsOf v), attempts := cs.length } } := by
  obtain ⟨hr, rfl, rfl⟩ := hstop.facts
  obtain ⟨h, e⟩ := packBits_moved_carrier_stop (X := (s.start (encode i)).withSeq .prim) (m := 0) (h := s.hidden) v hl hr
    hf.started
  rw [← start_eq_moved s (encode i) .prim hi, ← hb, Nat.zero_add, List.nil_append] at e
  have hlen : (embed cs (bitsOf v)).length = cs.length := by simp; omega
  rw [exec_raises_moved hm hp e, hlen]
  rfl

/-- A command that packs one unit in PRIM, whose write of bit `n` fails (R135, R257). -/
theorem exec_pack_write_stop {rest : List Item} {n : Nat} (hl : cs.length = n + 1) (hi : s.cin.items = asItems cs ++ rest)
    (hf : s.sout.NoFails n) (hn : n ∈ s.sout.fails) (hw : n < w) :
    exec i s = .next { s.failed (encode i) .ioFailure (some .sout) .prim with
      cin := { s.cin with items := rest }, ccnt := BitVec.ofNat 64 (n + 1), ocnt := BitVec.ofNat 64 n
      sout := { s.sout with data := s.sout.data ++ (embed cs (bitsOf v)).take n, attempts := n + 1 } } := by
  obtain ⟨h, e⟩ := packBits_moved_write_stop (X := (s.start (encode i)).withSeq .prim) (rest := rest) (m := 0)
    (h := s.hidden) v hw hl hf.started (fails_started hn)
  rw [← start_eq_moved s (encode i) .prim hi, ← hb, Nat.zero_add, List.nil_append] at e
  have hlen : ((embed cs (bitsOf v)).take n).length = n := by simp; omega
  rw [exec_raises_missed hm hp e, hlen]

end pack

/-- Settles O32. -/
theorem packStopsWhereTheCarrierStops : Obligations.PackStopsWhereTheCarrierStops := by
  intro s cs tail left k h1 h2 hi hstop hf
  have ports := attached_cin_sout h1 h2
  exact ⟨exec_pack_carrier_stop (i := .packb) (by simp) ports (packb_body s) hi hstop hf,
    exec_pack_carrier_stop (i := .packw) (by simp) ports (packw_body s) hi hstop hf⟩

/-- Settles O33. -/
theorem packStopsWhereTheWriteFails : Obligations.PackStopsWhereTheWriteFails := by
  intro s cs rest n h1 h2 hl hi hf hn
  have ports := attached_cin_sout h1 h2
  exact ⟨exec_pack_write_stop (i := .packb) (by simp) ports (packb_body s) hl hi hf hn,
    exec_pack_write_stop (i := .packw) (by simp) ports (packw_body s) hl hi hf hn⟩

/-! ## The passthrough -/

/-- Settles O53: `emitHeader_write_stop` with no carrier byte read. -/
theorem emithdrStopsWhereTheWriteFails : Obligations.EmithdrStopsWhereTheWriteFails := by
  intro s n ha hn hf hk
  obtain ⟨h, e⟩ := emitHeader_write_stop (X := (s.start (encode .emithdr)).withSeq .prim) (rest := s.cin.items) (m := 0)
    (h := s.hidden) hn hf.started (fails_started hk)
  rw [← start_eq_moved s (encode .emithdr) .prim rfl, List.nil_append] at e
  have hlen : (s.hdr.toList.take n).length = n := by simp [Config.hdrLen]; omega
  have sout : ∀ p ∈ [Port.sout], s.attached p = true := by simpa [State.attached] using ha
  rw [exec_raises_missed (i := .emithdr) (by simp) sout e]
  simp only [State.withSeq_hdr, State.start_hdr, hlen]
  rfl

/-- Settles O56: the stops of the loops of COPY and SKIP in PRIM. -/
theorem copyAndSkipStopWhereTheCarrierOrTheOutputStops :
    Obligations.CopyAndSkipStopWhereTheCarrierOrTheOutputStops := by
  refine ⟨fun s cs tail left k h1 hl hi hstop => ?_, fun s cs b rest h1 h2 hl hi hf hn => ?_⟩
  · obtain ⟨hr, rfl, rfl⟩ := hstop.facts
    refine ⟨fun h2 hf => ?_, ?_⟩
    · obtain ⟨h, e⟩ := copyN_carrier_stop (X := (s.start (encode .copy)).withSeq .prim) (m := 0) (h := s.hidden) hl hr
        hf.started
      rw [← start_eq_moved s (encode .copy) .prim hi, Nat.zero_add] at e
      exact exec_raises_moved (i := .copy) (by simp) (attached_cin_sout h1 h2) e
    · obtain ⟨h, e⟩ := skipN_stop (X := (s.start (encode .skip)).withSeq .prim) (m := 0) (out := []) (h := s.hidden) hl
        hr
      rw [← start_eq_moved s (encode .skip) .prim hi, Nat.zero_add, State.moved, State.stegoOut_nil] at e
      exact exec_raises_readTo (i := .skip) (by simp) (attached_cin h1) e
  · obtain ⟨h, e⟩ := copyN_write_stop (X := (s.start (encode .copy)).withSeq .prim) (rest := rest) (m := 0) (out := [])
      (h := s.hidden) (b := b) hl hf.started (fails_started hn)
    rw [← start_eq_moved s (encode .copy) .prim hi, Nat.zero_add] at e
    exact exec_raises_missed (i := .copy) (by simp) (attached_cin_sout h1 h2) e

/-- `CopyRest()` raises no error but IOFailure: EOS is its normal end (R234). -/
theorem copyRestWithin_raises {n : Nat} : ∀ {s t : State} {r : Raise}, copyRestWithin n s = .error r t →
    r.kind = .ioFailure := by
  induction n with
  | zero => intro s t r h; cases h
  | succ n ih =>
    intro s t r h
    obtain ⟨-, e⟩ | ⟨rest, -, e⟩ | ⟨b, rest, -, e⟩ := copyRestWithin_cases n s <;> rw [e] at h
    · cases h
    · cases h; rfl
    · obtain h | ⟨-, u, -, h⟩ := Engine.bind_eq_error_iff.mp h
      · obtain ⟨-, e⟩ | ⟨-, e⟩ := stegoWrite_cases b ((s.withIn .cin { s.cin with items := rest }).countCarrier) <;>
          rw [e] at h <;> cases h
        rfl
      · exact ih h

/-- A command that completes has ERR = 0 (R30, R95). -/
theorem exec_done_err {i : Instr} {s t : State} (h : exec i s = .next t) (hd : t.status.done = true) :
    t.status.err = 0 := by
  obtain ⟨-, hq | ⟨-, -, he, -⟩ | ⟨hd', -⟩⟩ := (exec_status h).1
  · rw [hq]; rfl
  · exact he
  · rw [hd] at hd'; cases hd'

/-- ERR tells the kinds of error apart (R30). -/
theorem errCode_injective : Function.Injective errCode := by
  intro k k'
  cases k <;> cases k' <;> decide

/-- COPYREST never raises UnexpectedEndOfCarrier (R235, R256): its errors are those of validation and of `CopyRest()`. -/
theorem copyrest_err_ne {s t : State} (h : exec .copyrest s = .next t) :
    t.status.err ≠ errCode .unexpectedEndOfCarrier := by
  have raised : ∀ (u : State) (r : Raise), r.kind ≠ .unexpectedEndOfCarrier →
      (u.raise r).status.err ≠ errCode .unexpectedEndOfCarrier := fun u r hr e => hr (errCode_injective e)
  have hx := h
  rw [exec_eq] at hx
  obtain ⟨r, hv, e⟩ | ⟨-, ⟨r, u, hb, e⟩ | ⟨u, -, e⟩⟩ := runCommand_cases .copyrest (bodyOf .copyrest) s <;>
    rw [e] at hx <;> cases hx
  · obtain hok | ⟨r', hv', hk⟩ := validate_cases .copyrest (s.start (encode .copyrest))
    · rw [hok] at hv; cases hv
    · rw [hv'] at hv; cases hv
      exact raised _ _ fun hr => by simp [hr] at hk
  · have hk : r.kind = .ioFailure := copyRestWithin_raises hb
    exact raised _ _ (by simp [hk])
  · rw [exec_done_err h rfl]
    decide

/-- Settles O58. -/
theorem copyrestStopsOnlyAtAFault : Obligations.CopyrestStopsOnlyAtAFault := by
  refine ⟨fun s cs left h1 h2 hi hf => ?_, fun s cs b rest h1 h2 hi hf hn => ?_, fun s t h => copyrest_err_ne h⟩
  · have e := copyRest_err (s := (s.start (encode .copyrest)).withSeq .prim) hi (by simpa using hf)
    rw [State.stegoOut_eq_moved] at e
    exact exec_raises_moved (i := .copyrest) (by simp) (attached_cin_sout h1 h2) e
  · have hi' : s.cin.items = asItems cs ++ .byte b :: rest := by simpa using hi
    have e := copyRest_write_stop (s := (s.start (encode .copyrest)).withSeq .prim) hi' (by simpa using hf)
      (by simpa using hn)
    rw [State.stegoOut_eq_moved] at e
    exact exec_raises_missed (i := .copyrest) (by simp) (attached_cin_sout h1 h2) e

end Sys2Proof.Machine
end

section
/-! Proofs, ENCODE stopped by EIN or PIN (R177, R179, R181, R185): the states up to EXT and up to PAYLOAD, said once, and the
loop over a source that gives too few bytes. -/

namespace Sys2Proof.Machine

/-! ## A source that stops -/

/-- A read of PIN or EIN at EOS or at an ERR item (R68, R69). -/
theorem sourceRead_stop {p : InId} {s : State} {tail : List Item} (hi : (s.inPort p).items = tail)
    (hr : ∀ b l, tail ≠ .byte b :: l) :
    sourceRead p s = .error ⟨.ioFailure, some p.port⟩ (s.sourceTo p tail.tail) := by
  cases tail with
  | nil =>
    have hs : s.sourceTo p [] = s := by
      have := State.sourceTo_self (s := s) (p := p)
      rwa [hi] at this
    rw [sourceRead_eos hi, List.tail_nil, hs]
  | cons i l =>
    cases i with
    | byte b => exact absurd rfl (hr b l)
    | err => exact sourceRead_err hi

/-- Packing the bytes of PIN or EIN when the source stops after `xs`: the byte is read before the carrier bytes that would
carry it, so none of them is taken (R177, R179, R185). -/
theorem packSource_source_stop {p : InId} (hp : p ≠ .cin) {X : State} {xs cs : List Byte} {tail rest : List Item}
    {n m : Nat} {out : List Byte} {h : Hidden} (hx : xs.length < n) (hxi : (X.inPort p).items = asItems xs ++ tail)
    (hr : ∀ b l, tail ≠ .byte b :: l) (hl : cs.length = 8 * xs.length)
    (hf : ∀ k, k < cs.length → X.sout.attempts + out.length + k ∉ X.sout.fails) :
    ∃ h', forUpTo n (fun i => do modify (·.withIdx i); let b ← sourceRead p; packByte b)
        (X.moved (asItems cs ++ rest) m out h) =
      .error ⟨.ioFailure, some p.port⟩
        ((X.sourceTo p tail.tail).moved rest (m + cs.length) (out ++ embed cs (bitString xs)) h') := by
  obtain ⟨r, u, hu, rfl, h', rfl⟩ := forUpTo_error (n := n) (k := xs.length) (s := X.moved (asItems cs ++ rest) m out h)
    (body := fun i => do modify (·.withIdx i); let b ← sourceRead p; packByte b)
    (P := fun i t => ∃ h', t = (X.sourceTo p (asItems (xs.drop i) ++ tail)).moved (asItems (cs.drop (8 * i)) ++ rest)
      (m + 8 * i) (out ++ embed (cs.take (8 * i)) (bitString (xs.take i))) h')
    (Q := fun r u => r = ⟨.ioFailure, some p.port⟩ ∧ ∃ h', u = (X.sourceTo p tail.tail).moved rest (m + cs.length)
      (out ++ embed cs (bitString xs)) h')
    hx
    (fun j t hj ht => by
      obtain ⟨h1, rfl⟩ := ht
      obtain ⟨h2, e⟩ := packLoop_turn (S := fun i => X.sourceTo p (asItems (xs.drop i) ++ tail)) (X := X) (cs := cs)
        (rest := rest) (m := m) (packSource_body hp) (fun _ => State.sourceTo_sout _) hj (by omega)
        (fun k hk => hf _ (by omega)) h1
      exact ⟨_, e, h2, rfl⟩)
    (fun t ht => by
      obtain ⟨h1, rfl⟩ := ht
      rw [Engine.modify_bind, State.withIdx_eq, State.moved_withHidden, ← hl]
      simp only [List.drop_length, List.take_length, asItems_nil, List.nil_append]
      refine ⟨_, _, Engine.bind_error (sourceRead_stop (tail := tail) ?_ hr), rfl,
        { h1 with idx := BitVec.ofNat 33 xs.length }, ?_⟩
      · rw [State.moved_inPort hp, State.sourceTo_items]
      · rw [State.moved_sourceTo hp, State.sourceTo_sourceTo]
        rfl)
    ⟨h, by simp [embed, ← hxi, State.sourceTo_self]⟩
  exact ⟨h', hu⟩

/-! ## ENCODE up to a field -/

/-- ENCODE past CAPCHECK, in the sequencer state `q`, with the items `xs` and `ys` left on EIN and PIN. -/
def State.encoding (s : State) (hb : Vector Byte Config.hdrLen) (q : Seq) (xs ys : List Item) : State :=
  ((((s.start (encode .encode)).withHdr hb).checked.withSeq q).sourceTo .ein xs).sourceTo .pin ys

/-- The states of ENCODE from PAYLOAD on, in order (R171). -/
def encodeFromPayload : Engine Unit := do
  setSeq .payload
  packPayload
  setSeq .trailer
  copyRest

/-- The states of ENCODE from EXT on, in order (R171). -/
def encodeFromExt : Engine Unit := do
  setSeq .ext
  packExt
  setSeq .paylen
  packInt32 (← get).plen
  encodeFromPayload

theorem encodeBody_eq_fromExt :
    encodeBody = (do
      setSeq .header; readHeader; setSeq .capcheck; capCheck; setSeq .hdrcopy; emitHeader
      setSeq .marker; packMarker; setSeq .extlen; packInt32 (← get).elen; encodeFromExt : Engine Unit) := rfl

/-- An error of ENCODE past CAPCHECK. -/
theorem raise_encoding (s : State) (hb : Vector Byte Config.hdrLen) (q : Seq) (xs ys rest : List Item) (n : Nat)
    (out : List Byte) (h : Hidden) (r : Raise) :
    ((s.encoding hb q xs ys).moved rest n out h).raise r =
      { s.failed (encode .encode) r.kind r.port q with
        hdr := hb
        width := BitVec.ofNat 32 (hdrNumber hb 18), height := BitVec.ofNat 32 (hdrNumber hb 22)
        cap := BitVec.ofNat 64 (headerCapacity hb), result := 1
        ccnt := BitVec.ofNat 64 n, ocnt := BitVec.ofNat 64 out.length
        cin := { s.cin with items := rest }, ein := { s.ein with items := xs }, pin := { s.pin with items := ys }
        sout := { s.sout with data := s.sout.data ++ out, attempts := out.length } } := by
  have e : ((s.encoding hb q xs ys).moved rest n out h).raise r =
      { (((((s.start (encode .encode)).withSeq q).readTo rest n).stegoOut out).withHidden h).raise r with
        hdr := hb
        width := BitVec.ofNat 32 (hdrNumber hb 18), height := BitVec.ofNat 32 (hdrNumber hb 22)
        cap := BitVec.ofNat 64 (headerCapacity hb), result := 1
        ein := { s.ein with items := xs }, pin := { s.pin with items := ys } } := rfl
  rw [e, raise_moved]

theorem split_length {α : Type} {l : List α} {n : Nat} (h : n ≤ l.length) : ∃ a b, l = a ++ b ∧ a.length = n :=
  ⟨l.take n, l.drop n, (List.take_append_drop n l).symm, List.length_take_of_le h⟩

theorem embed_bitString_length {cs bs : List Byte} (h : cs.length = 8 * bs.length) :
    (embed cs (bitString bs)).length = cs.length := by
  rw [embed_length, bitString_length, ← h, Nat.min_self]

/-- How many bytes ENCODE has put on SOUT with the header and the bytes `bs` of the frame. -/
theorem packed_length (hb : Vector Byte 54) {cs bs : List Byte} (h : cs.length = 8 * bs.length) :
    (hb.toList ++ embed cs (bitString bs)).length = 54 + cs.length := by
  rw [List.length_append, Vector.length_toList, embed_bitString_length h]

/-- The stego bytes of two parts of a frame, each over its own carrier bytes. -/
theorem embed_bitString_append {cs ds bs bs' : List Byte} (h : cs.length = 8 * bs.length) :
    embed (cs ++ ds) (bitString (bs ++ bs')) = embed cs (bitString bs) ++ embed ds (bitString bs') := by
  rw [bitString_append, embed_append (by rw [h, bitString_length])]

/-- The next writes of ENCODE succeed when the first writes of the command do. -/
theorem encoding_noFails {s : State} {hb : Vector Byte Config.hdrLen} {q : Seq} {xs ys : List Item} {out : List Byte}
    {m n k : Nat} (hf : s.sout.NoFails n) (ho : out.length = m) (hk : m + k ≤ n) :
    ∀ j, j < k → (s.encoding hb q xs ys).sout.attempts + out.length + j ∉ (s.encoding hb q xs ys).sout.fails := by
  intro j hj
  show 0 + out.length + j ∉ s.sout.fails
  rw [Nat.zero_add]
  exact hf _ (by omega)

section encode
variable {s : State} {hb : Vector Byte Config.hdrLen} {c : List Byte} {rest : List Item} (hm : s.MarkerLenOk)
  (hc : frameBytes s ≤ headerCapacity hb) (hf : s.sout.NoFails (54 + c.length))
  (hi : s.cin.items = asItems (hb.toList ++ c) ++ rest)
include hm hc hf hi

/-- ENCODE with the header, the marker and ELEN in the carrier reaches EXT (R172 to R176). -/
theorem encode_reaches_ext (hl : c.length = 8 * (s.mlen.toNat + 4)) :
    ∃ h, bodyOf .encode (s.start (encode .encode)) =
      encodeFromExt ((s.encoding hb .extlen s.ein.items s.pin.items).moved rest (54 + c.length)
        (hb.toList ++ embed c (bitString (markerBytes s ++ be32 s.elen))) h) := by
  have hml := markerBytes_length (markerLenOk_iff.2 hm)
  obtain ⟨c1, c2, rfl, hl1⟩ := split_length (l := c) (n := 8 * s.mlen.toNat) (by omega)
  rw [List.length_append] at hl hf
  have hb1 : c1.length = 8 * (markerBytes s).length := by rw [hml, hl1]
  obtain ⟨h1, e1⟩ := headerStates_ok (s := s.start (encode .encode)) (rest := asItems c1 ++ (asItems c2 ++ rest))
    (do setSeq .marker; packMarker; setSeq .extlen; packInt32 (← get).elen; encodeFromExt) hb (by simpa using hi) hc
    (fun k hk => by simpa using hf k (by omega))
  obtain ⟨h2, e2⟩ := markerState_ok (X := s.encoding hb .hdrcopy s.ein.items s.pin.items) (rest := asItems c2 ++ rest)
    (n := 54) (h := h1) (do setSeq .extlen; packInt32 (← get).elen; encodeFromExt)
    (markerLenOk_iff.2 hm) hl1 (encoding_noFails hf hb.length_toList (by show 54 + 8 * s.mlen.toNat ≤ _; omega))
  obtain ⟨h3, e3⟩ := lengthState_ok (X := s.encoding hb .marker s.ein.items s.pin.items) (rest := rest)
    (n := 54 + 8 * s.mlen.toNat) (out := hb.toList ++ embed c1 (bitString (markerBytes s))) (h := h2) (c := c2)
    encodeFromExt .extlen State.elen rfl (by omega) (encoding_noFails hf (packed_length hb hb1) (by omega))
  refine ⟨h3, e1.trans (e2.trans (e3.trans ?_))⟩
  rw [embed_bitString_append hb1, List.length_append, ← hl1, List.append_assoc]
  rw [show 54 + (c1.length + c2.length) = 54 + c1.length + 32 by omega]
  rfl

/-- ENCODE with the frame up to PLEN in the carrier and the extension on EIN reaches PAYLOAD (R172 to R178). -/
theorem encode_reaches_payload {x : List Byte} {xs : List Item} (hxi : s.ein.items = asItems x ++ xs)
    (hx : x.length = s.elen.toNat) (hl : c.length = 8 * (s.mlen.toNat + 8 + x.length)) :
    ∃ h, bodyOf .encode (s.start (encode .encode)) =
      encodeFromPayload ((s.encoding hb .paylen xs s.pin.items).moved rest (54 + c.length)
        (hb.toList ++ embed c (bitString (markerBytes s ++ be32 s.elen ++ x ++ be32 s.plen))) h) := by
  have hml := markerBytes_length (markerLenOk_iff.2 hm)
  obtain ⟨c1, c', rfl, hl1⟩ := split_length (l := c) (n := 8 * (s.mlen.toNat + 4)) (by omega)
  rw [List.length_append] at hl hf
  obtain ⟨c2, c3, rfl, hl2⟩ := split_length (l := c') (n := 8 * s.elen.toNat) (by omega)
  rw [List.length_append] at hl hf
  have hb1 : c1.length = 8 * (markerBytes s ++ be32 s.elen).length := by simp [hml, hl1]
  have hb2 : c2.length = 8 * x.length := by rw [hx, hl2]
  obtain ⟨h1, e1⟩ := encode_reaches_ext (c := c1) (rest := asItems c2 ++ (asItems c3 ++ rest)) hm hc
    (fun k hk => hf k (by omega)) (by simpa using hi) hl1
  obtain ⟨h2, e2⟩ := extState_ok (X := s.encoding hb .extlen s.ein.items s.pin.items) (rest := asItems c3 ++ rest)
    (n := 54 + c1.length) (out := hb.toList ++ embed c1 (bitString (markerBytes s ++ be32 s.elen))) (h := h1)
    (do setSeq .paylen; packInt32 (← get).plen; encodeFromPayload) hx hxi hl2
    (encoding_noFails hf (packed_length hb hb1)
      (by show 54 + c1.length + 8 * s.elen.toNat ≤ _; omega))
  obtain ⟨h3, e3⟩ := lengthState_ok (X := s.encoding hb .ext xs s.pin.items) (rest := rest) (c := c3)
    (n := 54 + c1.length + 8 * s.elen.toNat)
    (out := hb.toList ++ embed c1 (bitString (markerBytes s ++ be32 s.elen)) ++ embed c2 (bitString x)) (h := h2)
    encodeFromPayload .paylen State.plen rfl (by omega)
    (encoding_noFails (m := 54 + c1.length + c2.length) hf
      (by rw [List.length_append, packed_length hb hb1, embed_bitString_length hb2]) (by omega))
  refine ⟨h3, e1.trans (e2.trans (e3.trans ?_))⟩
  rw [List.append_assoc _ x, embed_bitString_append hb1, embed_bitString_append hb2, List.append_assoc,
    List.append_assoc, List.length_append, List.length_append, ← hl2]
  rw [show 54 + (c1.length + (c2.length + c3.length)) = 54 + c1.length + c2.length + 32 by omega]
  rfl

/-- ENCODE with the frame up to the extension bytes `x` in the carrier, and EIN stopping after them, fails in EXT (R177). -/
theorem encode_ext_stop {x : List Byte} {tail : List Item} (hxi : s.ein.items = asItems x ++ tail)
    (hr : ∀ b l, tail ≠ .byte b :: l) (hx : x.length < s.elen.toNat) (hl : c.length = 8 * (s.mlen.toNat + 4 + x.length)) :
    ∃ h, bodyOf .encode (s.start (encode .encode)) = .error ⟨.ioFailure, some .ein⟩
      ((s.encoding hb .ext tail.tail s.pin.items).moved rest (54 + c.length)
        (hb.toList ++ embed c (bitString (markerBytes s ++ be32 s.elen ++ x))) h) := by
  have hml := markerBytes_length (markerLenOk_iff.2 hm)
  obtain ⟨c1, c2, rfl, hl1⟩ := split_length (l := c) (n := 8 * (s.mlen.toNat + 4)) (by omega)
  rw [List.length_append] at hl hf
  have hb1 : c1.length = 8 * (markerBytes s ++ be32 s.elen).length := by simp [hml, hl1]
  obtain ⟨h1, e1⟩ := encode_reaches_ext (c := c1) (rest := asItems c2 ++ rest) hm hc
    (fun k hk => hf k (by omega)) (by simpa using hi) hl1
  obtain ⟨h2, e2⟩ := packSource_source_stop (p := .ein) (by decide) (X := s.encoding hb .ext s.ein.items s.pin.items)
    (rest := rest) (m := 54 + c1.length) (out := hb.toList ++ embed c1 (bitString (markerBytes s ++ be32 s.elen))) (h := h1)
    hx hxi hr (cs := c2) (by omega)
    (encoding_noFails hf (packed_length hb hb1) (by omega))
  have e3 : packExt ((s.encoding hb .ext s.ein.items s.pin.items).moved (asItems c2 ++ rest) _ _ h1) = _ := e2
  refine ⟨h2, e1.trans (((setSeq_bind ..).trans (Engine.bind_error e3)).trans ?_)⟩
  rw [embed_bitString_append hb1, ← List.append_assoc, List.length_append, ← Nat.add_assoc]
  rfl

/-- ENCODE with the frame up to the payload bytes `y` in the carrier, and PIN stopping after them, fails in PAYLOAD (R179). -/
theorem encode_payload_stop {x y : List Byte} {xs tail : List Item} (hxi : s.ein.items = asItems x ++ xs)
    (hx : x.length = s.elen.toNat) (hyi : s.pin.items = asItems y ++ tail) (hr : ∀ b l, tail ≠ .byte b :: l)
    (hy : y.length < s.plen.toNat) (hl : c.length = 8 * (s.mlen.toNat + 8 + x.length + y.length)) :
    ∃ h, bodyOf .encode (s.start (encode .encode)) = .error ⟨.ioFailure, some .pin⟩
      ((s.encoding hb .payload xs tail.tail).moved rest (54 + c.length)
        (hb.toList ++ embed c (bitString (frame s x y))) h) := by
  have hml := markerBytes_length (markerLenOk_iff.2 hm)
  obtain ⟨c1, c2, rfl, hl1⟩ := split_length (l := c) (n := 8 * (s.mlen.toNat + 8 + x.length)) (by omega)
  rw [List.length_append] at hl hf
  have hb1 : c1.length = 8 * (markerBytes s ++ be32 s.elen ++ x ++ be32 s.plen).length := by simp [hml, hl1]; omega
  obtain ⟨h1, e1⟩ := encode_reaches_payload (c := c1) (rest := asItems c2 ++ rest) hm hc
    (fun k hk => hf k (by omega)) (by simpa using hi) hxi hx hl1
  obtain ⟨h2, e2⟩ := packSource_source_stop (p := .pin) (by decide) (X := s.encoding hb .payload xs s.pin.items)
    (rest := rest) (m := 54 + c1.length)
    (out := hb.toList ++ embed c1 (bitString (markerBytes s ++ be32 s.elen ++ x ++ be32 s.plen))) (h := h1)
    hy hyi hr (cs := c2) (by omega)
    (encoding_noFails hf (packed_length hb hb1) (by omega))
  have e3 : packPayload ((s.encoding hb .payload xs s.pin.items).moved (asItems c2 ++ rest) _ _ h1) = _ := e2
  refine ⟨h2, e1.trans (((setSeq_bind ..).trans (Engine.bind_error e3)).trans ?_)⟩
  rw [frame, embed_bitString_append hb1, ← List.append_assoc, List.length_append, ← Nat.add_assoc]
  rfl

end encode

/-- The ports of ENCODE, attached. -/
theorem attached_encode {s : State} (h1 : s.cin.attached = true) (h2 : s.sout.attached = true) (h3 : s.pin.attached = true)
    (h4 : s.ein.attached = true) : ∀ p ∈ portsRequired .encode, s.attached p = true := by
  simp [portsRequired, State.attached, h1, h2, h3, h4]

/-- Settles O44. -/
theorem encodeStopsWhereTheExtensionStops : Obligations.EncodeStopsWhereTheExtensionStops := by
  intro s hb c x rest tail left k h1 h2 h3 h4 hm hi hxi hstop hx hc hl hf
  obtain ⟨hr, -, rfl⟩ := hstop.facts
  have hml := markerBytes_length (markerLenOk_iff.2 hm)
  obtain ⟨h, e⟩ := encode_ext_stop hm hc hf hi hxi hr hx hl
  have hb1 : c.length = 8 * (markerBytes s ++ be32 s.elen ++ x).length := by simp [hml, hl, Nat.add_assoc]
  rw [exec_raises (i := .encode) (fun _ => hm) (attached_encode h1 h2 h3 h4) e, raise_encoding, packed_length hb hb1,
    ← List.append_assoc]
  rfl

/-- Settles O45. -/
theorem encodeStopsWhereThePayloadStops : Obligations.EncodeStopsWhereThePayloadStops := by
  intro s hb c x y rest xs tail left k h1 h2 h3 h4 hm hi hxi hx hyi hstop hy hc hl hf
  obtain ⟨hr, -, rfl⟩ := hstop.facts
  have hml := markerBytes_length (markerLenOk_iff.2 hm)
  obtain ⟨h, e⟩ := encode_payload_stop hm hc hf hi hxi hx hyi hr hy hl
  have hb1 : c.length = 8 * (frame s x y).length := by simp [frame, hml, hl]; omega
  rw [exec_raises (i := .encode) (fun _ => hm) (attached_encode h1 h2 h3 h4) e, raise_encoding, packed_length hb hb1,
    ← List.append_assoc]

end Sys2Proof.Machine
end

section
/-! Proofs, DECODE stopped by its carrier or by a write to EOUT or POUT (R211): the states up to each field, said
once, and the stop in each. -/

namespace Sys2Proof.Machine

/-! ## DECODE up to a field -/

/-- DECODE past HEADER, in the sequencer state `q`, with `e` and `l` in RX_ELEN and RX_PLEN, and `x` and `y` put on EOUT and
POUT. -/
def State.decoding (s : State) (hb : Vector Byte Config.hdrLen) (q : Seq) (e l : Word) (x y : List Byte) : State :=
  (((({ s.start (encode .decode) with rxElen := e, rxPlen := l } : State).withHdr hb).withSeq q).sinkOut .eout x).sinkOut
    .pout y

/-- The states of DECODE from PAYLOAD on (R201). -/
def decodeFromPayload : Engine Unit := do
  setSeq .payload
  readPayload

/-- The states of DECODE from PAYLEN on, in order (R201). -/
def decodeFromPayLen : Engine Unit := do
  setSeq .paylen
  readPayLen
  decodeFromPayload

/-- The states of DECODE from EXT on, in order (R201). -/
def decodeFromExt : Engine Unit := do
  setSeq .ext
  readExt
  decodeFromPayLen

/-- The states of DECODE from EXTLEN on, in order (R201). -/
def decodeFromExtLen : Engine Unit := do
  setSeq .extlen
  readExtLen
  decodeFromExt

/-- The states of DECODE from MARKER on, in order (R201). -/
def decodeFromMarker : Engine Unit := do
  setSeq .marker
  unpackMarker
  compareMarker
  decodeFromExtLen

theorem decodeBody_eq_fromMarker :
    decodeBody = (do clearDecoded; setSeq .header; readHeader; decodeFromMarker : Engine Unit) := rfl

section state
variable {s : State} {hb : Vector Byte Config.hdrLen} {q : Seq} {e l : Word} {x y : List Byte} {n : Nat}

theorem State.withSeq_decoding (q' : Seq) : (s.decoding hb q e l x y).withSeq q' = s.decoding hb q' e l x y := rfl

theorem State.sinkOut_ext_decoding : (s.decoding hb q e l [] y).sinkOut .eout x = s.decoding hb q e l x y := by
  rw [State.decoding, State.sinkOut_nil]
  rfl

theorem State.sinkOut_payload_decoding : (s.decoding hb q e l x []).sinkOut .pout y = s.decoding hb q e l x y := by
  rw [State.decoding, State.sinkOut_nil]
  rfl

/-- The writes to EOUT that do not fail, as attempts of a DECODE that has written none. -/
theorem decoding_ext_noFails (hf : s.eout.NoFails n) :
    ∀ j, j < n → (s.decoding hb q e l [] y).eout.attempts + j ∉ (s.decoding hb q e l [] y).eout.fails := by
  intro j hj
  rw [show (s.decoding hb q e l [] y).eout.attempts + j = j from Nat.zero_add j]
  exact hf j hj

/-- The writes to POUT that do not fail, as attempts of a DECODE that has written none. -/
theorem decoding_payload_noFails (hf : s.pout.NoFails n) :
    ∀ j, j < n → (s.decoding hb q e l x []).pout.attempts + j ∉ (s.decoding hb q e l x []).pout.fails := by
  intro j hj
  rw [show (s.decoding hb q e l x []).pout.attempts + j = j from Nat.zero_add j]
  exact hf j hj

theorem decoding_ext_fails (hf : n ∈ s.eout.fails) :
    (s.decoding hb q e l [] y).eout.attempts + n ∈ (s.decoding hb q e l [] y).eout.fails := by
  rwa [show (s.decoding hb q e l [] y).eout.attempts + n = n from Nat.zero_add n]

theorem decoding_payload_fails (hf : n ∈ s.pout.fails) :
    (s.decoding hb q e l x []).pout.attempts + n ∈ (s.decoding hb q e l x []).pout.fails := by
  rwa [show (s.decoding hb q e l x []).pout.attempts + n = n from Nat.zero_add n]

end state

/-- An error of DECODE past HEADER. -/
theorem raise_decoding (s : State) (hb : Vector Byte Config.hdrLen) (q : Seq) (e l : Word) (x y : List Byte)
    (left : List Item) (n : Nat) (h : Hidden) (k : ErrKind) (p : Port) :
    ((s.decoding hb q e l x y).moved left n [] h).raise ⟨k, some p⟩ = s.decodeFailed k p q hb e l n left x y := by
  have eq : ((s.decoding hb q e l x y).moved left n [] h).raise ⟨k, some p⟩ =
      { ((((s.start (encode .decode)).withSeq q).readTo left n).withHidden h).raise ⟨k, some p⟩ with
        hdr := hb, rxElen := e, rxPlen := l
        eout := { s.eout with data := s.eout.data ++ x, attempts := 0 + x.length }
        pout := { s.pout with data := s.pout.data ++ y, attempts := 0 + y.length } } := by
    rw [State.moved, State.stegoOut_nil]
    rfl
  rw [eq, raise_readTo, Nat.zero_add, Nat.zero_add]
  rfl

/-- Carrier bytes whose LSBs spell two byte strings, one after the other. -/
theorem lsbs_split {c bs bs' : List Byte} (h : lsbs c = bitString (bs ++ bs')) :
    ∃ c1 c2, c = c1 ++ c2 ∧ lsbs c1 = bitString bs ∧ lsbs c2 = bitString bs' := by
  rw [bitString_append] at h
  exact List.map_eq_append_iff.mp h

section decode
variable {s : State} {hb : Vector Byte Config.hdrLen} {c : List Byte} {rest : List Item}

/-- DECODE with a whole header in the carrier reaches MARKER (R202). -/
theorem decode_reaches_marker (hi : s.cin.items = asItems hb.toList ++ rest) :
    ∃ h, bodyOf .decode (s.start (encode .decode)) =
      decodeFromMarker ((s.decoding hb .header 0 0 [] []).moved rest 54 [] h) := by
  obtain ⟨h, e⟩ := decodeHeader_ok (s := s.start (encode .decode)) decodeFromMarker hb hi
  refine ⟨h, e.trans ?_⟩
  rw [State.decoding, State.sinkOut_nil, State.sinkOut_nil]

variable (hm : s.MarkerLenOk) (hi : s.cin.items = asItems (hb.toList ++ c) ++ rest)
include hm hi

/-- DECODE with the marker in the carrier reaches EXTLEN (R203). -/
theorem decode_reaches_extlen (hl : lsbs c = bitString (markerBytes s)) :
    ∃ h, bodyOf .decode (s.start (encode .decode)) =
      decodeFromExtLen ((s.decoding hb .marker 0 0 [] []).moved rest (54 + c.length) [] h) := by
  obtain ⟨h1, e1⟩ := decode_reaches_marker (rest := asItems c ++ rest) (by simpa using hi)
  obtain ⟨h2, e2⟩ := decodeMarker_ok (X := s.decoding hb .header 0 0 [] []) (rest := rest) (n := 54) (h := h1)
    decodeFromExtLen (markerLenOk_iff.2 hm) hl
  have hlen : c.length = 8 * s.mlen.toNat := by
    rw [← lsbs_length, hl, bitString_length, markerBytes_length (markerLenOk_iff.2 hm)]
  refine ⟨h2, e1.trans (e2.trans ?_)⟩
  rw [hlen]
  rfl

/-- DECODE with the frame up to the extension's length in the carrier reaches EXT (R205). -/
theorem decode_reaches_ext {e : Word} (hl : lsbs c = bitString (markerBytes s ++ be32 e)) :
    ∃ h, bodyOf .decode (s.start (encode .decode)) =
      decodeFromExt ((s.decoding hb .extlen e 0 [] []).moved rest (54 + c.length) [] h) := by
  obtain ⟨c1, c2, rfl, hl1, hl2⟩ := lsbs_split hl
  obtain ⟨h1, e1⟩ := decode_reaches_extlen (c := c1) (rest := asItems c2 ++ rest) hm (by simpa using hi) hl1
  obtain ⟨h2, e2⟩ := decodeExtLen_ok (X := s.decoding hb .marker 0 0 [] []) (rest := rest) (n := 54 + c1.length) (h := h1)
    decodeFromExt hl2
  have hlen : c2.length = 32 := by rw [← lsbs_length, hl2, bitString_length, be32_length]
  refine ⟨h2, e1.trans (e2.trans ?_)⟩
  rw [List.length_append, hlen, ← Nat.add_assoc]
  rfl

/-- DECODE with the frame up to the extension in the carrier reaches PAYLEN, the extension on EOUT (R206). -/
theorem decode_reaches_paylen {e : Word} {x : List Byte} (hl : lsbs c = bitString (markerBytes s ++ be32 e ++ x))
    (hx : x.length = e.toNat) (hf : s.eout.NoFails x.length) :
    ∃ h, bodyOf .decode (s.start (encode .decode)) =
      decodeFromPayLen ((s.decoding hb .ext e 0 x []).moved rest (54 + c.length) [] h) := by
  obtain ⟨c1, c2, rfl, hl1, hl2⟩ := lsbs_split hl
  obtain ⟨h1, e1⟩ := decode_reaches_ext (c := c1) (rest := asItems c2 ++ rest) hm (by simpa using hi) hl1
  obtain ⟨h2, e2⟩ := decodeExt_ok (X := s.decoding hb .extlen e 0 [] []) (rest := rest) (n := 54 + c1.length) (h := h1)
    decodeFromPayLen hx hl2 (decoding_ext_noFails (hx ▸ hf))
  have hlen : c2.length = 8 * e.toNat := by rw [← lsbs_length, hl2, bitString_length, hx]
  refine ⟨h2, e1.trans (e2.trans ?_)⟩
  rw [State.withSeq_decoding, State.sinkOut_ext_decoding, List.length_append, hlen, ← Nat.add_assoc]
  rfl

/-- DECODE with the frame up to the payload's length in the carrier reaches PAYLOAD (R207). -/
theorem decode_reaches_payload {e p : Word} {x : List Byte}
    (hl : lsbs c = bitString (markerBytes s ++ be32 e ++ x ++ be32 p)) (hx : x.length = e.toNat)
    (hf : s.eout.NoFails x.length) :
    ∃ h, bodyOf .decode (s.start (encode .decode)) =
      decodeFromPayload ((s.decoding hb .paylen e p x []).moved rest (54 + c.length) [] h) := by
  obtain ⟨c1, c2, rfl, hl1, hl2⟩ := lsbs_split hl
  obtain ⟨h1, e1⟩ := decode_reaches_paylen (c := c1) (rest := asItems c2 ++ rest) hm (by simpa using hi) hl1 hx hf
  obtain ⟨h2, e2⟩ := decodePayLen_ok (X := s.decoding hb .ext e 0 x []) (rest := rest) (n := 54 + c1.length) (h := h1)
    decodeFromPayload hl2
  have hlen : c2.length = 32 := by rw [← lsbs_length, hl2, bitString_length, be32_length]
  refine ⟨h2, e1.trans (e2.trans ?_)⟩
  rw [List.length_append, hlen, ← Nat.add_assoc]
  rfl

end decode

/-! ## The stop in each field -/

/-- A carrier that stops raises its error at CIN. -/
theorem CarrierStop.raise_eq {tail left : List Item} {k : ErrKind} (h : CarrierStop tail k left) :
    stopRaise tail = ⟨k, some .cin⟩ := by rw [stopRaise, h.facts.2.1]

section stops
variable {s : State} {hb : Vector Byte Config.hdrLen} {c d : List Byte} {tail left : List Item} {k : ErrKind}
  (hm : s.MarkerLenOk) (hp : ∀ p ∈ portsRequired .decode, s.attached p = true)

section raise
variable {p : Port} {q : Seq} {e l : Word} {x y : List Byte} {n : Nat} {h : Hidden}
include hm hp

/-- A DECODE whose body raises past HEADER. -/
theorem exec_decode_raises (hr : bodyOf .decode (s.start (encode .decode)) =
      .error ⟨k, some p⟩ ((s.decoding hb q e l x y).moved left n [] h)) :
    exec .decode s = .next (s.decodeFailed k p q hb e l n left x y) := by
  rw [exec_raises (i := .decode) (fun _ => hm) hp hr, raise_decoding]

end raise

variable (hi : s.cin.items = asItems (hb.toList ++ c ++ d) ++ tail)
include hm hp hi

section carrier
variable (hstop : CarrierStop tail k left)
include hstop

/-- A carrier that stops inside the marker: no compare is made (R203, R213). -/
theorem decode_marker_stop (hc : c = []) (hd : d.length < 8 * s.mlen.toNat) :
    exec .decode s = .next (s.decodeFailed k .cin .marker hb 0 0 (54 + d.length) left [] []) := by
  obtain ⟨hr, -, rfl⟩ := hstop.facts
  subst hc
  obtain ⟨h1, e1⟩ := decode_reaches_marker (rest := asItems d ++ tail) (by simpa using hi)
  obtain ⟨h2, e2⟩ := unpackMarker_stop (X := s.decoding hb .marker 0 0 [] []) (m := 54) (h := h1) hd hr
  rw [hstop.raise_eq] at e2
  exact exec_decode_raises hm hp (e1.trans ((setSeq_bind ..).trans (Engine.bind_error e2)))

/-- A carrier that stops inside the extension's length (R205). -/
theorem decode_extlen_stop (hl : lsbs c = bitString (markerBytes s)) (hd : d.length < 32) :
    exec .decode s = .next (s.decodeFailed k .cin .extlen hb 0 0 (54 + c.length + d.length) left [] []) := by
  obtain ⟨hr, -, rfl⟩ := hstop.facts
  obtain ⟨h1, e1⟩ := decode_reaches_extlen (rest := asItems d ++ tail) hm (by simpa using hi) hl
  obtain ⟨h2, e2⟩ := unpackBits_moved_stop (X := s.decoding hb .extlen 0 0 [] []) (m := 54 + c.length) (h := h1)
    (w := 32) (by omega) hd hr
  rw [hstop.raise_eq] at e2
  exact exec_decode_raises hm hp
    (e1.trans ((setSeq_bind ..).trans (Engine.bind_error (m := readExtLen) (Engine.bind_error e2))))

/-- A carrier that stops inside a byte of the extension (R206). -/
theorem decode_ext_carrier_stop {e : Word} {x : List Byte} (hl : lsbs c = bitString (markerBytes s ++ be32 e ++ x))
    (hf : s.eout.NoFails x.length) (hx : x.length < e.toNat) (hd : d.length < 8) :
    exec .decode s = .next (s.decodeFailed k .cin .ext hb e 0 (54 + c.length + d.length) left x []) := by
  obtain ⟨hr, -, rfl⟩ := hstop.facts
  obtain ⟨c1, c2, rfl, hl1, hl2⟩ := lsbs_split hl
  obtain ⟨h1, e1⟩ := decode_reaches_ext (c := c1) (rest := asItems (c2 ++ d) ++ tail) hm (by simpa using hi) hl1
  obtain ⟨h2, e2⟩ := unpackSink_carrier_stop (p := .eout) (X := s.decoding hb .ext e 0 [] []) (m := 54 + c1.length)
    (h := h1) hx hl2 hd hr (decoding_ext_noFails hf)
  rw [hstop.raise_eq, State.sinkOut_ext_decoding] at e2
  have e3 : readExt ((s.decoding hb .ext e 0 [] []).moved (asItems (c2 ++ d) ++ tail) _ [] h1) = _ := e2
  rw [List.length_append, ← Nat.add_assoc]
  exact exec_decode_raises hm hp (e1.trans ((setSeq_bind ..).trans (Engine.bind_error e3)))

/-- A carrier that stops inside the payload's length (R207). -/
theorem decode_paylen_stop {e : Word} {x : List Byte} (hl : lsbs c = bitString (markerBytes s ++ be32 e ++ x))
    (hf : s.eout.NoFails x.length) (hx : x.length = e.toNat) (hd : d.length < 32) :
    exec .decode s = .next (s.decodeFailed k .cin .paylen hb e 0 (54 + c.length + d.length) left x []) := by
  obtain ⟨hr, -, rfl⟩ := hstop.facts
  obtain ⟨h1, e1⟩ := decode_reaches_paylen (rest := asItems d ++ tail) hm (by simpa using hi) hl hx hf
  obtain ⟨h2, e2⟩ := unpackBits_moved_stop (X := s.decoding hb .paylen e 0 x []) (m := 54 + c.length) (h := h1)
    (w := 32) (by omega) hd hr
  rw [hstop.raise_eq] at e2
  exact exec_decode_raises hm hp
    (e1.trans ((setSeq_bind ..).trans (Engine.bind_error (m := readPayLen) (Engine.bind_error e2))))

/-- A carrier that stops inside a byte of the payload (R208). -/
theorem decode_payload_carrier_stop {e p : Word} {x y : List Byte}
    (hl : lsbs c = bitString (markerBytes s ++ be32 e ++ x ++ be32 p ++ y)) (hx : x.length = e.toNat)
    (hy : y.length < p.toNat) (hd : d.length < 8) (hf : s.eout.NoFails x.length) (hg : s.pout.NoFails y.length) :
    exec .decode s = .next (s.decodeFailed k .cin .payload hb e p (54 + c.length + d.length) left x y) := by
  obtain ⟨hr, -, rfl⟩ := hstop.facts
  obtain ⟨c1, c2, rfl, hl1, hl2⟩ := lsbs_split hl
  obtain ⟨h1, e1⟩ := decode_reaches_payload (c := c1) (rest := asItems (c2 ++ d) ++ tail) hm (by simpa using hi) hl1 hx hf
  obtain ⟨h2, e2⟩ := unpackSink_carrier_stop (p := .pout) (X := s.decoding hb .payload e p x []) (m := 54 + c1.length)
    (h := h1) hy hl2 hd hr (decoding_payload_noFails hg)
  rw [hstop.raise_eq, State.sinkOut_payload_decoding] at e2
  have e3 : readPayload ((s.decoding hb .payload e p x []).moved (asItems (c2 ++ d) ++ tail) _ [] h1) = _ := e2
  rw [List.length_append, ← Nat.add_assoc]
  exact exec_decode_raises hm hp (e1.trans ((setSeq_bind ..).trans e3))

end carrier

/-- A write of an extension byte that fails, the byte having been unpacked (R71, R206). -/
theorem decode_ext_write_stop {e : Word} {x : List Byte} {b : Byte}
    (hl : lsbs c = bitString (markerBytes s ++ be32 e ++ x ++ [b])) (hx : x.length < e.toNat)
    (hf : s.eout.NoFails x.length) (hn : x.length ∈ s.eout.fails) :
    exec .decode s = .next
      { s.decodeFailed .ioFailure .eout .ext hb e 0 (54 + c.length) (asItems d ++ tail) x [] with
        eout := { s.eout with data := s.eout.data ++ x, attempts := x.length + 1 } } := by
  rw [List.append_assoc _ x] at hl
  obtain ⟨c1, c2, rfl, hl1, hl2⟩ := lsbs_split hl
  obtain ⟨h1, e1⟩ := decode_reaches_ext (c := c1) (rest := asItems c2 ++ (asItems d ++ tail)) hm (by simpa using hi) hl1
  obtain ⟨h2, e2⟩ := unpackSink_write_stop (p := .eout) (X := s.decoding hb .ext e 0 [] []) (m := 54 + c1.length)
    (rest := asItems d ++ tail) (h := h1) hx hl2 (decoding_ext_noFails hf) (decoding_ext_fails hn)
  rw [State.sinkOut_ext_decoding] at e2
  have e3 : readExt ((s.decoding hb .ext e 0 [] []).moved (asItems c2 ++ (asItems d ++ tail)) _ [] h1) = _ := e2
  rw [exec_raises (i := .decode) (fun _ => hm) hp (e1.trans ((setSeq_bind ..).trans (Engine.bind_error e3))),
    State.raise_sinkMissed, raise_decoding, List.length_append, ← Nat.add_assoc]
  rfl

/-- A write of a payload byte that fails, the byte having been unpacked (R70, R208). -/
theorem decode_payload_write_stop {e p : Word} {x y : List Byte} {b : Byte}
    (hl : lsbs c = bitString (markerBytes s ++ be32 e ++ x ++ be32 p ++ y ++ [b])) (hx : x.length = e.toNat)
    (hy : y.length < p.toNat) (hf : s.eout.NoFails x.length) (hg : s.pout.NoFails y.length) (hn : y.length ∈ s.pout.fails) :
    exec .decode s = .next
      { s.decodeFailed .ioFailure .pout .payload hb e p (54 + c.length) (asItems d ++ tail) x y with
        pout := { s.pout with data := s.pout.data ++ y, attempts := y.length + 1 } } := by
  rw [List.append_assoc _ y] at hl
  obtain ⟨c1, c2, rfl, hl1, hl2⟩ := lsbs_split hl
  obtain ⟨h1, e1⟩ := decode_reaches_payload (c := c1) (rest := asItems c2 ++ (asItems d ++ tail)) hm (by simpa using hi)
    hl1 hx hf
  obtain ⟨h2, e2⟩ := unpackSink_write_stop (p := .pout) (X := s.decoding hb .payload e p x []) (m := 54 + c1.length)
    (rest := asItems d ++ tail) (h := h1) hy hl2 (decoding_payload_noFails hg) (decoding_payload_fails hn)
  rw [State.sinkOut_payload_decoding] at e2
  have e3 : readPayload ((s.decoding hb .payload e p x []).moved (asItems c2 ++ (asItems d ++ tail)) _ [] h1) = _ := e2
  rw [exec_raises (i := .decode) (fun _ => hm) hp (e1.trans ((setSeq_bind ..).trans e3)), State.raise_sinkMissed,
    raise_decoding, List.length_append, ← Nat.add_assoc]
  rfl

end stops

/-- A carrier that stops inside the header: HDR holds the bytes read by then (R112, R202). -/
theorem decode_header_stop {s : State} {bs : List Byte} {tail left : List Item} {k : ErrKind} (hm : s.MarkerLenOk)
    (hp : ∀ p ∈ portsRequired .decode, s.attached p = true) (hl : bs.length < 54) (hi : s.cin.items = asItems bs ++ tail)
    (hstop : CarrierStop tail k left) :
    ∃ g : Vector Byte 54, exec .decode s = .next (s.decodeFailed k .cin .header g 0 0 bs.length left [] []) ∧
      ∀ j, fileByte g j = if j < bs.length then (bs[j]?).getD 0 else fileByte s.hdr j := by
  obtain ⟨hr, rfl, rfl⟩ := hstop.facts
  obtain ⟨h, g, e, hg⟩ := readHeader_stop
    (s := ({ s.start (encode .decode) with rxElen := 0, rxPlen := 0 } : State).withSeq .header) hl hi hr
  have e' : bodyOf .decode (s.start (encode .decode)) = (do readHeader; decodeFromMarker : Engine Unit)
      (({ s.start (encode .decode) with rxElen := 0, rxPlen := 0 } : State).withSeq .header) := rfl
  refine ⟨g, exec_decode_raises (h := h) hm hp (e'.trans ((Engine.bind_error e).trans ?_)), hg⟩
  rw [State.moved, State.stegoOut_nil, State.decoding, State.sinkOut_nil, State.sinkOut_nil]
  rfl

/-- The ports of DECODE, attached. -/
theorem attached_decode {s : State} (h1 : s.cin.attached = true) (h2 : s.pout.attached = true)
    (h3 : s.eout.attached = true) : ∀ p ∈ portsRequired .decode, s.attached p = true := by
  simp [portsRequired, State.attached, h1, h2, h3]

/-- Settles O50: the stop of each field, in the order of the table of R211. -/
theorem decodeStopsWhereTheCarrierOrAnOutputStops : Obligations.DecodeStopsWhereTheCarrierOrAnOutputStops := by
  intro s h1 h2 h3 hm
  have hp := attached_decode h1 h2 h3
  refine ⟨fun bs tail left k hl hi hstop => ?_, fun hb c d tail hi => ⟨fun k left hstop =>
    ⟨decode_marker_stop hm hp hi hstop, decode_extlen_stop hm hp hi hstop, fun e x hl hf =>
      ⟨decode_ext_carrier_stop hm hp hi hstop hl hf, decode_paylen_stop hm hp hi hstop hl hf⟩,
      fun e p x y => decode_payload_carrier_stop hm hp hi hstop⟩,
    fun e x b => decode_ext_write_stop hm hp hi, fun e p x y b => decode_payload_write_stop hm hp hi⟩⟩
  obtain ⟨g, e, hg⟩ := decode_header_stop hm hp hl hi hstop
  exact ⟨_, e, rfl, fun j _ => hg j⟩

end Sys2Proof.Machine
end

section
/-! Proofs, the command word (R90 to R93, R102, R103): its two fields as numbers, which words the opcode map decodes, and
what the core does with a word that is no command (R95, R251). -/

namespace Sys2Proof

/-! ## The fields of a word -/

theorem opcodeField_toNat (w : Word) : (opcodeField w).toNat = w.toNat % 256 := by
  simp [opcodeField]

theorem rsvField_toNat (w : Word) : (rsvField w).toNat = w.toNat / 256 := by
  simp only [rsvField, BitVec.extractLsb'_toNat, Nat.shiftRight_eq_div_pow]
  omega

/-- A word is its RSV field before its OPCODE field (R90). -/
theorem rsvField_append_opcodeField (w : Word) : rsvField w ++ opcodeField w = w := by
  refine BitVec.eq_of_toNat_eq ?_
  rw [Machine.append_toNat, rsvField_toNat, opcodeField_toNat]
  omega

theorem rsvZero_iff {w : Word} : WellFormed.rsvZero w = true ↔ rsvField w = 0 := by
  rw [WellFormed.rsvZero, beq_iff_eq, ← rsvField_toNat]
  exact BitVec.toNat_inj (y := 0)

/-! ## The opcode map -/

/-- The opcodes of R92 are 1 to 13 in order. -/
theorem opcodeMap_opcodes : opcodeMap.map (·.1.toNat) = List.range' 1 13 := rfl

/-- Each row of the opcode map is the opcode of its command's word. -/
theorem encode_of_mem_opcodeMap : ∀ p ∈ opcodeMap, encode p.2 = (0 : BitVec 24) ++ p.1 := by decide

/-- An opcode is assigned exactly when the opcode map has a row for it (R92, R93). -/
theorem opcodeAssigned_iff {w : Word} :
    WellFormed.opcodeAssigned w = true ↔ ∃ i, opcodeMap.lookup (opcodeField w) = some i := by
  calc WellFormed.opcodeAssigned w = true
    _ ↔ (opcodeField w).toNat ∈ opcodeMap.map (·.1.toNat) := by
      rw [opcodeMap_opcodes, List.mem_range'_1, opcodeField_toNat, WellFormed.opcodeAssigned, Bool.and_eq_true,
        decide_eq_true_iff, decide_eq_true_iff]
      omega
    _ ↔ ∃ p ∈ opcodeMap, opcodeField w == p.1 := by
      simp only [List.mem_map, BitVec.toNat_inj, eq_comm (a := opcodeField w), beq_iff_eq]
    _ ↔ ∃ i, opcodeMap.lookup (opcodeField w) = some i := by
      rw [← List.lookup_isSome_iff, Option.isSome_iff_exists]

/-! ## The decoder -/

theorem decode_of_rsv {w : Word} (h : WellFormed.rsvZero w = false) : decode w = .error .rsvNonzero := by
  have hr : rsvField w ≠ 0 := fun e => by simp [rsvZero_iff.mpr e] at h
  rw [decode, if_pos hr]

theorem decode_of_reserved {w : Word} (h : WellFormed.rsvZero w = true) (h' : WellFormed.opcodeAssigned w = false) :
    decode w = .error .reservedOpcode := by
  have hn : opcodeMap.lookup (opcodeField w) = none := Option.eq_none_iff_forall_ne_some.mpr fun i e => by
    simp [opcodeAssigned_iff.mpr ⟨i, e⟩] at h'
  rw [decode, if_neg (not_not_intro (rsvZero_iff.mp h)), hn]

theorem decode_of_lookup {w : Word} {i : Instr} (h : WellFormed.rsvZero w = true)
    (h' : opcodeMap.lookup (opcodeField w) = some i) : decode w = .ok i := by
  rw [decode, if_neg (not_not_intro (rsvZero_iff.mp h)), h']

/-- A word that decodes has a zero RSV field and an opcode of the map. -/
theorem fields_of_decode {w : Word} {i : Instr} (h : decode w = .ok i) :
    rsvField w = 0 ∧ opcodeMap.lookup (opcodeField w) = some i := by
  rw [decode] at h
  split at h
  · cases h
  next hr =>
    split at h
    next j hj =>
      cases h
      exact ⟨not_not.mp hr, hj⟩
    · cases h

/-- The word that decodes to a command is that command's word (R102). -/
theorem encode_of_decode {w : Word} {i : Instr} (h : decode w = .ok i) : encode i = w := by
  obtain ⟨hr, hl⟩ := fields_of_decode h
  obtain ⟨l₁, l₂, e, -⟩ := List.lookup_eq_some_iff.mp hl
  calc encode i
    _ = (0 : BitVec 24) ++ opcodeField w := encode_of_mem_opcodeMap (opcodeField w, i) (by simp [e])
    _ = rsvField w ++ opcodeField w := by rw [hr]
    _ = w := rsvField_append_opcodeField w

theorem exists_decode_of_commandWord {w : Word} (h : WellFormed.commandWord w = true) : ∃ i, decode w = .ok i := by
  obtain ⟨hr, ho⟩ := Bool.and_eq_true_iff.mp h
  obtain ⟨i, hi⟩ := opcodeAssigned_iff.mp ho
  exact ⟨i, decode_of_lookup hr hi⟩

/-- A word that breaks R91 or R93 is invalid. -/
theorem decode_invalid {w : Word} (h : WellFormed.rsvZero w = false ∨ WellFormed.opcodeAssigned w = false) :
    ∃ e, decode w = .error e := by
  cases hr : WellFormed.rsvZero w with
  | false => exact ⟨_, decode_of_rsv hr⟩
  | true => exact ⟨_, decode_of_reserved hr (h.resolve_left (by simp [hr]))⟩

/-- Settles O1: a word is the concatenation of its fields, and each row of the map gives its command's word. -/
theorem decodeAndEncodeAgree : Obligations.DecodeAndEncodeAgree :=
  ⟨fun i _ => Machine.decode_encode i, fun _ _ => encode_of_decode⟩

/-- Settles O2. -/
theorem everyWordDecodesOrIsInvalid : Obligations.EveryWordDecodesOrIsInvalid := by
  refine fun w => ⟨decode_of_rsv, decode_of_reserved, fun h => ?_⟩
  obtain ⟨i, hi⟩ := exists_decode_of_commandWord h
  exact ⟨i, hi, fun j hj => Except.ok.inj (hj.symm.trans hi)⟩

/-- Settles O3: the words are those of the encoder, and the last two break R93 and R91. -/
theorem commandWordsDecode : Obligations.CommandWordsDecode :=
  have row := Machine.decode_encode
  ⟨row .loadhdr, row .capest, row .chkcap, row .packb, row .packw, row .unpackb, row .unpackw, row .encode, row .decode,
    row .emithdr, row .copy, row .copyrest, row .skip, decode_of_reserved rfl rfl, decode_of_rsv rfl⟩

/-! ## An invalid word in a step -/

namespace Machine

/-- An invalid word does nothing but what the start of a command and the raise of InvalidArguments do (R95, R255). -/
theorem rejectCommand_eq_failed (v : Word) (s : State) :
    rejectCommand v s = s.failed v .invalidArguments none .validate := rfl

/-- What STATUS reads after a command that failed: INSUF, DONE and BUSY 0, FAIL 1, STATE 13, and what the raise recorded
(R24, R255). -/
theorem readOffset_status_failed (s : State) (v : Word) (k : ErrKind) (p : Option Port) (q : Seq) :
    (readOffset (s.failed v k p q) 0x004).toNat =
      (portIdOf p).toNat * 2 ^ 16 + (seqCode q).toNat * 2 ^ 12 + 0xD04 + (errCode k).toNat * 2 ^ 4 := by
  refine (statusWord_toNat (s.failed v k p q).status).trans ?_
  simp only [State.failed, Status.reset, Bool.toNat_true, Bool.toNat_false, show (13 : BitVec 4).toNat = 13 from rfl]
  omega

/-- Settles O5. -/
theorem invalidWordRaisesInvalidArguments : Obligations.InvalidWordRaisesInvalidArguments := by
  intro s v h1 h2 h3 h
  obtain ⟨e, he⟩ := decode_invalid h
  exact ⟨_, (step_invalid h1 h2 h3 he).trans (congrArg _ (rejectCommand_eq_failed v s.advance)), rfl,
    BitVec.eq_of_toNat_eq (readOffset_status_failed ..), rfl⟩

end Machine

end Sys2Proof
end

section
/-! Proofs, the required ports (R98): a command moves nothing on another port, and fails at the first one that is not
attached (R97, R252). -/

namespace Sys2Proof.Machine

/-! ## The moves on one port -/

section moves
variable {k : MoveKind} {s t : State}

theorem State.withIn_inPort_of_moveKind_ne (s : State) {p q : InId} (h : q.moveKind ≠ p.moveKind) (x : InPort) :
    (s.withIn q x).inPort p = s.inPort p :=
  s.withIn_inPort_ne (fun e => h (congrArg _ e.symm)) x

theorem State.withOut_outPort_of_moveKind_ne (s : State) {p q : OutId} (h : q.moveKind ≠ p.moveKind) (x : OutPort) :
    (s.withOut q x).outPort p = s.outPort p :=
  s.withOut_outPort_ne (fun e => h (congrArg _ e.symm)) x

/-- Only the moves of its own kind change an input port. -/
theorem Move.inPort_eq (m : Move k s t) {p : InId} (h : k ≠ p.moveKind) : t.inPort p = s.inPort p := by
  cases m with
  | carrier _ b rest => exact s.withIn_inPort_of_moveKind_ne (q := .cin) h { s.cin with items := rest }
  | carrierErr => exact s.withIn_inPort_of_moveKind_ne (q := .cin) h _
  | source => exact s.withIn_inPort_of_moveKind_ne h _
  | stego _ b => exact s.withOut_inPort .sout (s.sout.wrote b) p
  | stegoMiss => exact s.withOut_inPort ..
  | sink => exact s.withOut_inPort ..
  | sinkMiss => exact s.withOut_inPort ..
  | check => rw [State.capacityChecked_eq]; rfl
  | _ => rfl

/-- Only the moves of its own kind change an output port. -/
theorem Move.outPort_eq (m : Move k s t) {p : OutId} (h : k ≠ p.moveKind) : t.outPort p = s.outPort p := by
  cases m with
  | carrier _ b rest => exact s.withIn_outPort .cin { s.cin with items := rest } p
  | carrierErr => exact s.withIn_outPort ..
  | source => exact s.withIn_outPort ..
  | stego _ b => exact s.withOut_outPort_of_moveKind_ne (q := .sout) h (s.sout.wrote b)
  | stegoMiss => exact s.withOut_outPort_of_moveKind_ne (q := .sout) h _
  | sink => exact s.withOut_outPort_of_moveKind_ne h _
  | sinkMiss => exact s.withOut_outPort_of_moveKind_ne h _
  | check => rw [State.capacityChecked_eq]; rfl
  | _ => rfl

end moves

/-! ## The commands -/

/-- A command reads only input ports that it requires (R98). -/
theorem port_required_of_reads {i : Instr} {p : InId} (h : p.moveKind ∈ moveKinds i) : p.port ∈ portsRequired i := by
  revert h
  cases p <;> cases i <;> decide

/-- A command writes only output ports that it requires (R98). -/
theorem port_required_of_writes {i : Instr} {p : OutId} (h : p.moveKind ∈ moveKinds i) : p.port ∈ portsRequired i := by
  revert h
  cases p <;> cases i <;> decide

theorem exec_inPort_eq {i : Instr} {s t : State} {p : InId} (hp : p.port ∉ portsRequired i) (h : exec i s = .next t) :
    t.inPort p = s.inPort p :=
  exec_unchanged (·.inPort p)
    (fun _ hk _ _ m => m.inPort_eq fun e => hp (port_required_of_reads (e ▸ hk))) (fun _ => rfl) (fun _ _ => rfl) h

theorem exec_outPort_eq {i : Instr} {s t : State} {p : OutId} (hp : p.port ∉ portsRequired i) (h : exec i s = .next t) :
    t.outPort p = { s.outPort p with attempts := 0 } :=
  calc t.outPort p
    _ = (s.start (encode i)).outPort p := exec_unchanged (·.outPort p)
      (fun _ hk _ _ m => m.outPort_eq fun e => hp (port_required_of_writes (e ▸ hk))) (fun _ => rfl) (fun _ _ => rfl) h
    _ = { s.outPort p with attempts := 0 } := by cases p <;> rfl

/-- Settles O19: a command makes only moves of the ports that it requires. -/
theorem noTransferOutsideTheRequiredPorts : Obligations.NoTransferOutsideTheRequiredPorts := by
  refine ⟨⟨rfl, rfl, rfl, rfl, rfl, rfl, rfl, rfl, rfl, rfl, rfl, rfl, rfl⟩, fun i s t h =>
    ⟨fun p hp => exec_inPort_eq hp h, fun p hp => ?_⟩⟩
  rw [exec_outPort_eq hp h]
  exact ⟨rfl, rfl⟩

theorem State.start_attached (s : State) (v : Word) (p : Port) : (s.start v).attached p = s.attached p := by
  cases p <;> rfl

/-- Settles O23: validation stops at the port, and the raise there changes nothing more. -/
theorem unattachedPortRaisesUnopenableFile : Obligations.UnattachedPortRaisesUnopenableFile := by
  intro i s before after p hreq hbefore hp hm
  have hlen : checksMarkerLen i = true → markerLenOk (s.start (encode i)) = true := fun h =>
    markerLenOk_iff.2 (hm (by simpa [checksMarkerLen] using h))
  have hv : validate i (s.start (encode i)) = .error ⟨.unopenableFile, some p⟩ (s.start (encode i)) := by
    rw [validate_ports hlen, hreq]
    exact checkPorts_first (fun q hq => (s.start_attached _ q).trans (hbefore q hq)) ((s.start_attached _ p).trans hp)
  rw [exec_eq, runCommand_invalid hv]
  rfl

end Sys2Proof.Machine
end

section
/-! Proofs, the Capacity Estimator (R111, R117 to R121): a header that is read whole, the check of the capacity and its exact
boundary, and ENCODE up to CAPCHECK. -/

namespace Sys2Proof.Machine

/-! ## LOADHDR -/

/-- Settles O25: `readHeader_ok` in PRIM. -/
theorem loadhdrReadsTheHeader : Obligations.LoadhdrReadsTheHeader := by
  intro s hb rest ha hi
  obtain ⟨h, e⟩ := readHeader_ok (s := (s.start (encode .loadhdr)).withSeq .prim) hb hi
  rw [exec_completes (i := .loadhdr) (by simp) (attached_cin ha) e]
  simp [State.readTo, State.start]
  rfl

/-! ## The check of the capacity -/

/-- CHKCAP always completes; RESULT and INSUF tell whether the frame exceeds CAP (R117, R119). -/
theorem exec_chkcap (s : State) :
    exec .chkcap s = .next { s.completed .chkcap with
      result := if s.cap.toNat < frameBytes s then 0 else 1
      status := { (s.completed .chkcap).status with insuf := decide (s.cap.toNat < frameBytes s) } } := by
  have hi : insufficient ((s.start (encode .chkcap)).withSeq .prim) = decide (s.cap.toNat < frameBytes s) := rfl
  rw [exec_completes (i := .chkcap) (by simp) (by simp [portsRequired]) rfl, State.capacityChecked_eq, hi]
  simp only [decide_eq_true_eq]
  rfl

/-- Settles O28: the two outcomes of `exec_chkcap`. -/
theorem chkcapReportsWhetherTheFrameFits : Obligations.ChkcapReportsWhetherTheFrameFits := by
  refine fun s => ⟨fun h => ?_, fun h => ?_⟩
  · rw [exec_chkcap, if_neg (by omega), decide_eq_false (by omega)]
    rfl
  · rw [exec_chkcap, if_pos h, decide_eq_true h]

/-- Settles O29: CHKCAP compares S with the exact CAP that CAPEST left, and `8 * S > CAPB` is the same comparison by the
division of R114. -/
theorem capacityCheckIsBoundaryExact : Obligations.CapacityCheckIsBoundaryExact := by
  intro s t u ht hu
  obtain ⟨t', ht', hframe, hw, hh, hcap⟩ := capestComputesTheExactCapacity s
  obtain rfl : t' = t := by simpa [ht'] using ht
  have hS : frameBytes t' = frameBytes s := by rw [hframe]; rfl
  rw [exec_chkcap, hS] at hu
  obtain rfl := Host.Outcome.next.inj hu
  rw [hw, hh] at hcap
  refine ⟨decide_eq_true_iff, ⟨fun h0 => ?_, fun h => if_pos h⟩, by omega, fun h => if_neg (by omega)⟩
  by_contra h
  exact absurd ((if_neg h).symm.trans h0) (by decide)

/-! ## ENCODE up to CAPCHECK -/

/-- ENCODE with a whole header in the carrier reaches CAPCHECK (R172). -/
theorem encode_reaches_capcheck {s : State} {hb : Vector Byte Config.hdrLen} {rest : List Item}
    (hi : s.cin.items = asItems hb.toList ++ rest) :
    ∃ h, bodyOf .encode (s.start (encode .encode)) = (do capCheck; encodeTail : Engine Unit)
      ((((s.start (encode .encode)).withHdr hb).withSeq .capcheck).moved rest 54 [] h) := by
  obtain ⟨h, e⟩ := readHeader_ok (s := (s.start (encode .encode)).withSeq .header) hb hi
  refine ⟨h, (setSeq_bind ..).trans ((Engine.bind_ok e).trans ?_)⟩
  rw [setSeq_bind, State.moved, State.stegoOut_nil]
  rfl

/-- Settles O42: `capCheck_fail` with the header read and nothing written. -/
theorem encodeOverCapacityWritesNothing : Obligations.EncodeOverCapacityWritesNothing := by
  intro s hb rest h1 h2 h3 h4 hm hi hc
  obtain ⟨h, e⟩ := encode_reaches_capcheck hi
  have hfail := capCheck_fail (s := (((s.start (encode .encode)).withHdr hb).withSeq .capcheck).moved rest 54 [] h) hc
  rw [exec_raises (i := .encode) (fun _ => hm) (attached_encode h1 h2 h3 h4) (e.trans (Engine.bind_error hfail))]
  simp [State.moved, State.readTo, State.start]
  rfl

end Sys2Proof.Machine
end

section
/-! Proofs, the fields of the frame, each packed or stopped by the carrier or by a write to SOUT (R182, R257), and composed in
the order of R171. -/

namespace Sys2Proof.Machine

/-! ## A stop -/

/-- How a run over the carrier ends early: its error, the items left on CIN, how many bytes it has put on SOUT, and whether a
write was missed. -/
structure Stop where
  error : Raise
  left : List Item
  written : Nat
  missed : Bool

/-- What stops a run that moves the carrier bytes `c`, with `rest` behind them on CIN, to a port whose writes `fails` fail, the
first of them being write `a`: the carrier gives nothing more (R66), or the write of the last byte fails (R67). -/
inductive Stops (fails : List Nat) (a : Nat) (c : List Byte) (rest : List Item) : Stop → Prop where
  | carrier (hr : ∀ b l, rest ≠ .byte b :: l) (hf : ∀ k, k < c.length → a + k ∉ fails) :
      Stops fails a c rest ⟨stopRaise rest, rest.tail, c.length, false⟩
  | write {n : Nat} (hl : c.length = n + 1) (hf : ∀ k, k < n → a + k ∉ fails) (hn : a + n ∈ fails) :
      Stops fails a c rest ⟨⟨.ioFailure, some .sout⟩, rest, n, true⟩

/-- The same stop, its bytes counted from byte `n` on. -/
def Stop.after (z : Stop) (n : Nat) : Stop := { z with written := z.written - n }

/-- A running command, its last write to SOUT missed if `missed`. -/
def State.missedIf (X : State) (missed : Bool) : State := if missed then X.stegoMissed else X

section stop
variable {fails : List Nat} {a : Nat} {c d : List Byte} {rest : List Item} {z : Stop}

theorem Stops.written_le (h : Stops fails a c rest z) : z.written ≤ c.length := by
  cases h with
  | carrier => exact Nat.le_refl _
  | write hl => exact hl ▸ Nat.le_succ _

theorem Stops.le_written (h : Stops fails a c rest z) : c.length ≤ z.written + 1 := by
  cases h with
  | carrier => exact Nat.le_succ _
  | write hl => exact hl.le

theorem Stops.writes_ok (h : Stops fails a c rest z) : ∀ k, k < z.written → a + k ∉ fails := by
  cases h with
  | carrier _ hf => exact hf
  | write _ hf => exact hf

/-- A stop behind the first bytes is one of the run over the other bytes. -/
theorem Stops.append (h : Stops fails a (c ++ d) rest z) (hc : c.length ≤ z.written) :
    Stops fails (a + c.length) d rest (z.after c.length) := by
  cases h with
  | carrier hr hf =>
    rw [Stop.after, List.length_append, Nat.add_sub_cancel_left]
    exact .carrier hr fun k hk => Nat.add_assoc a _ k ▸ hf _ (by rw [List.length_append]; omega)
  | @write n hl hf hn =>
    have hc : c.length ≤ n := hc
    rw [List.length_append] at hl
    refine .write (n := n - c.length) (by omega) (fun k hk => Nat.add_assoc a _ k ▸ hf _ (by omega)) ?_
    rwa [Nat.add_assoc, Nat.add_sub_cancel' hc]

end stop

/-! ## The loops, stopped -/

section loops
variable {X : State} {c : List Byte} {rest : List Item} {m : Nat} {out : List Byte} {h : Hidden} {z : Stop}
  (hz : Stops X.sout.fails (X.sout.attempts + out.length) c rest z)

section bytes
variable {body : Nat → Engine Unit} {S : Nat → State} {bs : List Byte}
  (hbody : ∀ i (hi : i < bs.length) rest m out h, ∃ h',
    body i ((S i).moved rest m out h) = packBits bs[i] ((S (i + 1)).moved rest m out h'))
  (hS : ∀ i, (S i).sout = X.sout)
include hbody hS

/-- A loop that packs `bs`, one byte a turn, when nothing fails. -/
theorem packLoop_ok (hl : c.length = 8 * bs.length)
    (hf : ∀ k, k < c.length → X.sout.attempts + out.length + k ∉ X.sout.fails) :
    ∃ h', forUpTo bs.length body ((S 0).moved (asItems c ++ rest) m out h) =
      .ok () ((S bs.length).moved rest (m + c.length) (out ++ embed c (bitString bs)) h') := by
  obtain ⟨u, hu, h', rfl⟩ := forUpTo_ok (n := bs.length) (s := (S 0).moved (asItems c ++ rest) m out h) (body := body)
    (P := fun i t => ∃ h', t = (S i).moved (asItems (c.drop (8 * i)) ++ rest) (m + 8 * i)
      (out ++ embed (c.take (8 * i)) (bitString (bs.take i))) h')
    (fun j t hj ht => by
      obtain ⟨h1, rfl⟩ := ht
      obtain ⟨h2, e⟩ := packLoop_turn (cs := c) (rest := rest) (m := m) hbody hS hj (by omega)
        (fun k hk => hf _ (by omega)) h1
      exact ⟨_, e, h2, rfl⟩)
    ⟨h, by simp [embed]⟩
  refine ⟨h', ?_⟩
  rw [hu, ← hl, List.drop_length, List.take_length, List.take_length]
  rfl

include hz

/-- The same loop, stopped. -/
theorem packLoop_stops (hw : z.written < 8 * bs.length) :
    ∃ i h', forUpTo bs.length body ((S 0).moved (asItems c ++ rest) m out h) =
      .error z.error (((S i).moved z.left (m + c.length) (out ++ (embed c (bitString bs)).take z.written) h').missedIf
        z.missed) := by
  cases hz with
  | carrier hr hf =>
    obtain ⟨h', e⟩ := packLoop_carrier_stop (m := m) (h := h) hbody hS hw hr hf
    refine ⟨c.length / 8 + 1, h', e.trans ?_⟩
    rw [List.take_of_length_le (by simp)]
    rfl
  | write hl hf hn =>
    obtain ⟨h', e⟩ := packLoop_write_stop (rest := rest) (m := m) (h := h) hbody hS hw hl hf hn
    exact ⟨_, h', hl ▸ e⟩

end bytes

include hz

/-- One unit, stopped (R135). -/
theorem packBits_stops {w : Nat} (v : BitVec w) (hw : z.written < w) :
    ∃ h', packBits v (X.moved (asItems c ++ rest) m out h) =
      .error z.error ((X.moved z.left (m + c.length) (out ++ (embed c (bitsOf v)).take z.written) h').missedIf z.missed) := by
  cases hz with
  | carrier hr hf =>
    obtain ⟨h', e⟩ := packBits_moved_carrier_stop (m := m) (h := h) v hw hr hf
    refine ⟨h', e.trans ?_⟩
    rw [List.take_of_length_le (by simp)]
    rfl
  | write hl hf hn =>
    obtain ⟨h', e⟩ := packBits_moved_write_stop (rest := rest) (m := m) (h := h) v hw hl hf hn
    exact ⟨h', hl ▸ e⟩

/-- `CopyRest()` is stopped by an ERR item or a failed write, but not by the end of the carrier (R234). -/
theorem copyRest_stops (hk : z.error.kind ≠ .unexpectedEndOfCarrier) :
    copyRest (X.moved (asItems c ++ rest) m out h) =
      .error z.error ((X.moved z.left (m + c.length) (out ++ c.take z.written) h).missedIf z.missed) := by
  cases hz with
  | carrier hr hf =>
    obtain ⟨l, rfl⟩ : ∃ l, rest = .err :: l := by
      cases rest with
      | nil => exact absurd rfl hk
      | cons i l =>
        cases i with
        | byte b => exact absurd rfl (hr b l)
        | err => exact ⟨l, rfl⟩
    rw [copyRest_err (s := X.moved _ m out h) rfl hf, List.take_length]
    simp only [State.moved, State.withHidden_readTo, State.withHidden_stegoOut, State.stegoOut_readTo,
      State.readTo_readTo, State.stegoOut_stegoOut]
    rfl
  | @write n hl hf hn =>
    obtain ⟨c1, c2, rfl, rfl⟩ := split_length (l := c) (n := n) (by omega)
    obtain ⟨b, rfl⟩ := List.length_eq_one_iff.mp (show c2.length = 1 by rw [List.length_append] at hl; omega)
    have hi : (X.moved (asItems (c1 ++ [b]) ++ rest) m out h).cin.items = asItems c1 ++ .byte b :: rest := by
      simp [State.moved]
    rw [copyRest_write_stop hi hf hn, hl, List.take_left]
    simp only [State.moved, State.withHidden_readTo, State.withHidden_stegoOut, State.stegoOut_readTo,
      State.readTo_readTo, State.stegoOut_stegoOut]
    rfl

end loops

/-! ## The parts of ENCODE that pack -/

/-- A part of ENCODE past CAPCHECK that packs the bytes `bs` of the frame, which lie from carrier byte `o` behind the header on:
`P` takes a run over `X` to one over `Y`, and a stop in it is met in the sequencer state of R85. -/
structure Packs (s : State) (hb : Vector Byte Config.hdrLen) (P : Engine Unit) (X Y : State) (o : Nat)
    (bs : List Byte) : Prop where
  ok : ∀ (c : List Byte) (rest : List Item) (n : Nat) (out : List Byte) (h : Hidden), c.length = 8 * bs.length →
    (∀ k, k < c.length → out.length + k ∉ s.sout.fails) →
    ∃ h', P (X.moved (asItems c ++ rest) n out h) =
      .ok () (Y.moved rest (n + c.length) (out ++ embed c (bitString bs)) h')
  stop : ∀ (c : List Byte) (rest : List Item) (n : Nat) (out : List Byte) (h : Hidden) (z : Stop),
    Stops s.sout.fails out.length c rest z → z.written < 8 * bs.length →
    ∃ xs ys h', P (X.moved (asItems c ++ rest) n out h) =
      .error z.error (((s.encoding hb (encodeField s (o + z.written)) xs ys).moved z.left (n + c.length)
        (out ++ (embed c (bitString bs)).take z.written) h').missedIf z.missed)

section packs
variable {s : State} {hb : Vector Byte Config.hdrLen} {P Q : Engine Unit} {X Y Z : State} {o : Nat} {bs ds : List Byte}

/-- One part after the other. -/
theorem Packs.append (hP : Packs s hb P X Y o bs) (hQ : Packs s hb Q Y Z (o + 8 * bs.length) ds) :
    Packs s hb (do P; Q) X Z o (bs ++ ds) where
  ok c rest n out h hl hf := by
    rw [List.length_append] at hl
    obtain ⟨c1, c2, rfl, hl1⟩ := split_length (l := c) (n := 8 * bs.length) (by omega)
    rw [List.length_append] at hl hf
    obtain ⟨h1, e1⟩ := hP.ok c1 (asItems c2 ++ rest) n out h hl1 fun k hk => hf k (by omega)
    obtain ⟨h2, e2⟩ := hQ.ok c2 rest (n + c1.length) (out ++ embed c1 (bitString bs)) h1 (by omega) fun k hk => by
      rw [List.length_append, embed_bitString_length hl1, Nat.add_assoc]
      exact hf _ (by omega)
    refine ⟨h2, ?_⟩
    rw [asItems_append, List.append_assoc, Engine.bind_ok e1, e2, embed_bitString_append hl1, List.length_append,
      List.append_assoc, Nat.add_assoc]
  stop c rest n out h z hz hw := by
    rw [List.length_append] at hw
    have hle := hz.written_le
    have hge := hz.le_written
    by_cases hfirst : z.written < 8 * bs.length
    · obtain ⟨xs, ys, h', e⟩ := hP.stop c rest n out h z hz hfirst
      refine ⟨xs, ys, h', (Engine.bind_error e).trans ?_⟩
      rw [bitString_append, embed_append_of_le (by rw [bitString_length]; omega)]
    · obtain ⟨c1, c2, rfl, hl1⟩ := split_length (l := c) (n := 8 * bs.length) (by omega)
      obtain ⟨h1, e1⟩ := hP.ok c1 (asItems c2 ++ rest) n out h hl1 fun k hk => hz.writes_ok k (by omega)
      have hlen := embed_bitString_length hl1
      obtain ⟨xs, ys, h2, e2⟩ := hQ.stop c2 rest (n + c1.length) (out ++ embed c1 (bitString bs)) h1 (z.after c1.length)
        (by rw [List.length_append, hlen]; exact hz.append (by omega)) (by show z.written - c1.length < _; omega)
      refine ⟨xs, ys, h2, ?_⟩
      have hfield : o + 8 * bs.length + (z.after c1.length).written = o + z.written := by
        show o + 8 * bs.length + (z.written - c1.length) = _
        omega
      rw [asItems_append, List.append_assoc, Engine.bind_ok e1, e2, hfield, embed_bitString_append hl1,
        List.length_append, List.take_append, hlen, List.take_of_length_le (i := z.written) (by omega), List.append_assoc,
        Nat.add_assoc]
      rfl

/-- Only what `P` does to a run over `X` matters. -/
theorem Packs.congr (hP : Packs s hb P X Y o bs)
    (e : ∀ rest n out h, Q (X.moved rest n out h) = P (X.moved rest n out h)) : Packs s hb Q X Y o bs where
  ok c rest n out h hl hf := by rw [e]; exact hP.ok c rest n out h hl hf
  stop c rest n out h z hz hw := by rw [e]; exact hP.stop c rest n out h z hz hw

/-- The writes of ENCODE past CAPCHECK are counted from its start. -/
theorem encoding_attempts (q : Seq) (xs ys : List Item) (n : Nat) : (s.encoding hb q xs ys).sout.attempts + n = n :=
  Nat.zero_add n

/-- A field packed byte by byte, in the sequencer state `q`: after `i` bytes the state `S i`, moved on. -/
theorem packs_loop {q : Seq} {body : Nat → Engine Unit} {S : Nat → State}
    (hbody : ∀ i (hi : i < bs.length) rest m out h, ∃ h',
      body i ((S i).moved rest m out h) = packBits bs[i] ((S (i + 1)).moved rest m out h'))
    (hS : ∀ i, ∃ xs ys, S i = s.encoding hb q xs ys) (hX : X.withSeq q = S 0)
    (hq : ∀ k, k < 8 * bs.length → encodeField s (o + k) = q) :
    Packs s hb (do setSeq q; forUpTo bs.length body) X (S bs.length) o bs := by
  have hsout : ∀ i, (S i).sout = (s.encoding hb q [] []).sout := fun i => by
    obtain ⟨xs, ys, e⟩ := hS i
    rw [e]
    rfl
  have start : ∀ rest n out h, (do setSeq q; forUpTo bs.length body : Engine Unit) (X.moved rest n out h) =
      forUpTo bs.length body ((S 0).moved rest n out h) := fun rest n out h => by rw [← hX]; rfl
  refine ⟨fun c rest n out h hl hf => ?_, fun c rest n out h z hz hw => ?_⟩
  · rw [start]
    exact packLoop_ok hbody hsout hl (by rwa [encoding_attempts])
  · obtain ⟨i, h', e⟩ := packLoop_stops (m := n) (h := h) (by rwa [encoding_attempts]) hbody hsout hw
    obtain ⟨xs, ys, hi⟩ := hS i
    rw [start, e, hi, hq _ hw]
    exact ⟨xs, ys, h', rfl⟩

/-- A length field, its register chosen by `g`, in the sequencer state `q` (R176, R178). -/
theorem packs_word {q q' : Seq} {xs ys : List Item} (g : State → Word) (v : Word)
    (hg : ∀ rest n out h, g ((s.encoding hb q xs ys).moved rest n out h) = v)
    (hq : ∀ k, k < 32 → encodeField s (o + k) = q) :
    Packs s hb (do setSeq q; packInt32 (g (← get))) (s.encoding hb q' xs ys) (s.encoding hb q xs ys) o (be32 v) := by
  have start : ∀ rest n out h, (do setSeq q; packInt32 (g (← get)) : Engine Unit)
      ((s.encoding hb q' xs ys).moved rest n out h) = packBits v ((s.encoding hb q xs ys).moved rest n out h) :=
    fun rest n out h => by rw [← hg rest n out h]; rfl
  refine ⟨fun c rest n out h hl hf => ?_, fun c rest n out h z hz hw => ?_⟩
  · rw [start, bitString_be32, hl]
    exact packBits_moved_ok (X := s.encoding hb q xs ys) v hl (by rw [encoding_attempts]; exact fun k hk => hf k (hl ▸ hk))
  · obtain ⟨h', e⟩ := packBits_stops (X := s.encoding hb q xs ys) (m := n) (h := h) (by rwa [encoding_attempts]) v hw
    rw [start, bitString_be32, hq _ hw]
    exact ⟨xs, ys, h', e⟩

/-- A field packed from PIN or EIN, in the sequencer state `q` (R177, R179). -/
theorem packs_source {p : InId} (hp : p ≠ .cin) {q q' : Seq} {xs ys rest : List Item}
    (hi : ((s.encoding hb q xs ys).inPort p).items = asItems bs ++ rest)
    (hY : (s.encoding hb q xs ys).sourceTo p rest = Y)
    (hq : ∀ k, k < 8 * bs.length → encodeField s (o + k) = q) :
    Packs s hb (do setSeq q; forUpTo bs.length fun i => do modify (·.withIdx i); let b ← sourceRead p; packByte b)
      (s.encoding hb q' xs ys) Y o bs := by
  have h := packs_loop (X := s.encoding hb q' xs ys)
    (S := fun i => (s.encoding hb q xs ys).sourceTo p (asItems (bs.drop i) ++ rest)) (packSource_body hp)
    (fun i => by
      cases p with
      | cin => exact absurd rfl hp
      | pin => exact ⟨xs, asItems (bs.drop i) ++ rest, rfl⟩
      | ein => exact ⟨asItems (bs.drop i) ++ rest, ys, rfl⟩)
    (by show s.encoding hb q xs ys = _
        rw [List.drop_zero, ← hi, State.sourceTo_self]) hq
  simpa only [List.drop_length, asItems_nil, List.nil_append, hY] using h

end packs

/-! ## The frame -/

/-- The states of ENCODE from MARKER to PAYLOAD, in order (R171). -/
def encodeFields : Engine Unit := do
  (do setSeq .marker; packMarker)
  (do setSeq .extlen; packInt32 (← get).elen)
  (do setSeq .ext; packExt)
  (do setSeq .paylen; packInt32 (← get).plen)
  (do setSeq .payload; packPayload)

theorem encodeTail_eq :
    encodeTail = (do setSeq .hdrcopy; emitHeader; encodeFields; setSeq .trailer; copyRest : Engine Unit) := by
  simp only [encodeTail, encodeFields, bind_assoc]

section frame
variable {s : State} {hb : Vector Byte Config.hdrLen} {x y : List Byte} {xs ys : List Item}

/-- MARKER (R175). -/
theorem packs_marker (hm : s.MarkerLenOk) : Packs s hb (do setSeq .marker; packMarker) (s.encoding hb .hdrcopy xs ys)
    (s.encoding hb .marker xs ys) 0 (markerBytes s) := by
  have hml := markerBytes_length (markerLenOk_iff.2 hm)
  have h := packs_loop (bs := markerBytes s) (o := 0) (X := s.encoding hb .hdrcopy xs ys)
    (S := fun _ => s.encoding hb .marker xs ys) (packMarker_body (X := s.encoding hb .marker xs ys))
    (fun _ => ⟨xs, ys, rfl⟩) rfl fun k hk => by rw [encodeField, if_pos (by omega)]
  rw [hml] at h
  exact h.congr fun _ _ _ _ => rfl

/-- EXTLEN (R176). -/
theorem packs_extLen : Packs s hb (do setSeq .extlen; packInt32 (← get).elen) (s.encoding hb .marker xs ys)
    (s.encoding hb .extlen xs ys) (8 * s.mlen.toNat) (be32 s.elen) :=
  packs_word State.elen s.elen (fun _ _ _ _ => rfl) fun k hk => by rw [encodeField, if_neg (by omega), if_pos (by omega)]

/-- EXT (R177). -/
theorem packs_ext (hxi : s.ein.items = asItems x ++ xs) (hx : x.length = s.elen.toNat) :
    Packs s hb (do setSeq .ext; packExt) (s.encoding hb .extlen s.ein.items ys) (s.encoding hb .ext xs ys)
      (8 * s.mlen.toNat + 32) x := by
  have h := packs_source (s := s) (hb := hb) (p := .ein) (by decide) (q := .ext) (q' := .extlen) (xs := s.ein.items)
    (ys := ys) (rest := xs) (o := 8 * s.mlen.toNat + 32) hxi rfl fun k hk => by
      rw [encodeField, if_neg (by omega), if_neg (by omega), if_pos (by omega)]
  rw [hx] at h
  exact h.congr fun _ _ _ _ => rfl

/-- PAYLEN (R178). -/
theorem packs_payLen (hx : x.length = s.elen.toNat) :
    Packs s hb (do setSeq .paylen; packInt32 (← get).plen) (s.encoding hb .ext xs ys) (s.encoding hb .paylen xs ys)
      (8 * s.mlen.toNat + 32 + 8 * x.length) (be32 s.plen) :=
  packs_word State.plen s.plen (fun _ _ _ _ => rfl) fun k hk => by
    rw [encodeField, if_neg (by omega), if_neg (by omega), if_neg (by omega), if_pos (by omega)]

/-- PAYLOAD (R179). -/
theorem packs_payload (hx : x.length = s.elen.toNat) (hyi : s.pin.items = asItems y ++ ys) (hy : y.length = s.plen.toNat) :
    Packs s hb (do setSeq .payload; packPayload) (s.encoding hb .paylen xs s.pin.items) (s.encoding hb .payload xs ys)
      (8 * s.mlen.toNat + 32 + 8 * x.length + 32) y := by
  have h := packs_source (s := s) (hb := hb) (p := .pin) (by decide) (q := .payload) (q' := .paylen) (xs := xs)
    (ys := s.pin.items) (rest := ys) (o := 8 * s.mlen.toNat + 32 + 8 * x.length + 32) hyi rfl fun k hk => by
      rw [encodeField, if_neg (by omega), if_neg (by omega), if_neg (by omega), if_neg (by omega),
        if_pos (by rw [frameBytes]; omega)]
  rw [hy] at h
  exact h.congr fun _ _ _ _ => rfl

/-- The frame, packed from HDRCOPY on (R170, R175 to R179). -/
theorem packs_frame (hm : s.MarkerLenOk) (hxi : s.ein.items = asItems x ++ xs) (hx : x.length = s.elen.toNat)
    (hyi : s.pin.items = asItems y ++ ys) (hy : y.length = s.plen.toNat) :
    Packs s hb encodeFields (s.encoding hb .hdrcopy s.ein.items s.pin.items) (s.encoding hb .payload xs ys) 0
      (frame s x y) := by
  have h := (packs_marker (hb := hb) hm).append (by
    rw [markerBytes_length (markerLenOk_iff.2 hm), Nat.zero_add]
    exact packs_extLen.append ((packs_ext hxi hx).append ((packs_payLen hx).append (packs_payload hx hyi hy))))
  rw [frame]
  simp only [List.append_assoc]
  exact h

end frame

end Sys2Proof.Machine
end

section
/-! Proofs, ENCODE stopped by its carrier or by a write to SOUT, as a whole command (R181): the stego image up to the stop, and
what a stop in HEADER, in HDRCOPY and behind it leaves. -/

namespace Sys2Proof.Machine

/-! ## The stego image up to a byte -/

theorem frame_length {s : State} {x y : List Byte} (hm : s.MarkerLenOk) (hx : x.length = s.elen.toNat)
    (hy : y.length = s.plen.toNat) : (frame s x y).length = frameBytes s := by
  simp only [frame, List.length_append, be32_length, markerBytes_length (markerLenOk_iff.2 hm), hx, hy, frameBytes]
  omega

/-- The stego image of a carrier that begins with a header (R180). -/
theorem stegoOutput_header (hb : Vector Byte 54) (c f : List Byte) :
    stegoOutput (hb.toList ++ c) f =
      hb.toList ++ (embed (c.take (8 * f.length)) (bitString f) ++ c.drop (8 * f.length)) := by
  have h := hb.length_toList
  rw [stegoOutput, List.take_left' h, List.drop_left' h, List.append_assoc, ← List.drop_drop, List.drop_left' h]

theorem stegoOutput_header_length (hb : Vector Byte 54) (c f : List Byte) :
    (stegoOutput (hb.toList ++ c) f).length = 54 + c.length := by
  rw [stegoOutput_header]
  simp only [List.length_append, Vector.length_toList, embed_length, bitString_length, List.length_take, List.length_drop]
  omega

/-- The stego image up to byte `w` behind the header, which lies in the frame. -/
theorem stegoOutput_take_frame {hb : Vector Byte 54} {c f : List Byte} (w : Nat) (hc : c.length ≤ 8 * f.length) :
    (stegoOutput (hb.toList ++ c) f).take (54 + w) = hb.toList ++ (embed c (bitString f)).take w := by
  rw [stegoOutput_header, List.take_of_length_le hc, List.drop_of_length_le hc, List.append_nil]
  simpa using List.take_length_add_append (l₁ := hb.toList) w

/-- The stego image up to byte `w` behind the header, which lies in the trailer. -/
theorem stegoOutput_take_trailer {hb : Vector Byte 54} {c d f : List Byte} (w : Nat) (hc : c.length = 8 * f.length)
    (hw : c.length ≤ w) :
    (stegoOutput (hb.toList ++ (c ++ d)) f).take (54 + w) =
      hb.toList ++ embed c (bitString f) ++ d.take (w - c.length) := by
  obtain ⟨k, rfl⟩ := Nat.exists_eq_add_of_le hw
  have hlen : (hb.toList ++ embed c (bitString f)).length = 54 + c.length := packed_length hb hc
  rw [stegoOutput_header, List.take_left' hc, List.drop_left' hc, ← List.append_assoc, ← Nat.add_assoc, ← hlen,
    List.take_length_add_append, Nat.add_sub_cancel_left]

/-! ## The states of ENCODE, stopped -/

theorem encodeBody_eq_fields :
    encodeBody = (do
      setSeq .header; readHeader; setSeq .capcheck; capCheck; setSeq .hdrcopy; emitHeader
      encodeFields; setSeq .trailer; copyRest : Engine Unit) := by
  rw [encodeBody_eq, encodeTail_eq]

/-- Behind the frame lies the trailer (R85). -/
theorem encodeField_trailer {s : State} {k : Nat} (h : 8 * frameBytes s ≤ k) : encodeField s k = .trailer := by
  have hS : frameBytes s = s.plen.toNat + s.mlen.toNat + s.elen.toNat + 4 + 4 := rfl
  rw [encodeField, if_neg (by omega), if_neg (by omega), if_neg (by omega), if_neg (by omega), if_neg (by omega)]

section encode
variable {s : State} {hb : Vector Byte Config.hdrLen} {rest : List Item}

/-- ENCODE whose frame fits reaches HDRCOPY (R172, R173). -/
theorem encode_reaches_hdrcopy (hc : frameBytes s ≤ headerCapacity hb) (hi : s.cin.items = asItems hb.toList ++ rest) :
    ∃ h, bodyOf .encode (s.start (encode .encode)) =
      (do emitHeader; encodeFields; setSeq .trailer; copyRest : Engine Unit)
        ((s.encoding hb .hdrcopy s.ein.items s.pin.items).moved rest 54 [] h) := by
  obtain ⟨h, e⟩ := encode_reaches_capcheck hi
  have ok := capCheck_ok (s := (((s.start (encode .encode)).withHdr hb).withSeq .capcheck).moved rest 54 [] h) hc
  refine ⟨h, e.trans ((Engine.bind_ok ok).trans ?_)⟩
  rw [encodeTail_eq, setSeq_bind]
  rfl

/-- ENCODE whose write of header byte `n` fails (R174). -/
theorem encode_hdrcopy_stop (hc : frameBytes s ≤ headerCapacity hb) (hi : s.cin.items = asItems hb.toList ++ rest)
    {n : Nat} (hn : n < 54) (hf : s.sout.NoFails n) (hk : n ∈ s.sout.fails) :
    ∃ h, bodyOf .encode (s.start (encode .encode)) = .error ⟨.ioFailure, some .sout⟩
      ((s.encoding hb .hdrcopy s.ein.items s.pin.items).moved rest 54 (hb.toList.take n) h).stegoMissed := by
  obtain ⟨h1, e1⟩ := encode_reaches_hdrcopy hc hi
  obtain ⟨h2, e2⟩ := emitHeader_write_stop (X := s.encoding hb .hdrcopy s.ein.items s.pin.items) (rest := rest) (m := 54)
    (h := h1) hn hf.started (fails_started hk)
  exact ⟨h2, e1.trans (Engine.bind_error e2)⟩

/-- ENCODE stopped between MARKER and TRAILER: SOUT has the stego image up to there (R175 to R182). -/
theorem encode_stop {c x y : List Byte} {xs ys : List Item} {z : Stop} (hm : s.MarkerLenOk)
    (hc : frameBytes s ≤ headerCapacity hb) (hi : s.cin.items = asItems (hb.toList ++ c) ++ rest)
    (hxi : s.ein.items = asItems x ++ xs) (hx : x.length = s.elen.toNat) (hyi : s.pin.items = asItems y ++ ys)
    (hy : y.length = s.plen.toNat) (hf : s.sout.NoFails 54) (hz : Stops s.sout.fails 54 c rest z)
    (hk : z.error.kind = .unexpectedEndOfCarrier → z.written < 8 * frameBytes s) :
    ∃ xs' ys' h, bodyOf .encode (s.start (encode .encode)) = .error z.error
      (((s.encoding hb (encodeField s z.written) xs' ys').moved z.left (54 + c.length)
        ((stegoOutput (hb.toList ++ c) (frame s x y)).take (54 + z.written)) h).missedIf z.missed) := by
  have hle := hz.written_le
  have hge := hz.le_written
  have hlen := frame_length hm hx hy
  have packs := packs_frame (hb := hb) hm hxi hx hyi hy
  obtain ⟨h1, e1⟩ := headerStates_ok (s := s.start (encode .encode)) (rest := asItems c ++ rest)
    (do encodeFields; setSeq .trailer; copyRest) hb (by simpa using hi) hc (fun k hk => by simpa using hf k hk)
  rw [← encodeBody_eq_fields] at e1
  by_cases hw : z.written < 8 * frameBytes s
  · obtain ⟨xs', ys', h2, e2⟩ := packs.stop c rest 54 hb.toList h1 z (by rwa [Vector.length_toList]) (by rwa [hlen])
    refine ⟨xs', ys', h2, e1.trans ((Engine.bind_error e2).trans ?_)⟩
    rw [stegoOutput_take_frame _ (by omega), Nat.zero_add]
  · obtain ⟨c1, c2, rfl, hl1⟩ := split_length (l := c) (n := 8 * frameBytes s) (by omega)
    have hl1' : c1.length = 8 * (frame s x y).length := by rw [hlen, hl1]
    obtain ⟨h2, e2⟩ := packs.ok c1 (asItems c2 ++ rest) 54 hb.toList h1 hl1'
      (fun k hk => by rw [Vector.length_toList]; exact hz.writes_ok k (by omega))
    have e3 := copyRest_stops (X := s.encoding hb .trailer xs ys) (m := 54 + c1.length)
      (out := hb.toList ++ embed c1 (bitString (frame s x y))) (h := h2) (z := z.after c1.length)
      (by rw [encoding_attempts, packed_length hb hl1']; exact hz.append (by omega)) (fun e => hw (hk e))
    refine ⟨xs, ys, h2, e1.trans ?_⟩
    rw [asItems_append, List.append_assoc]
    refine (Engine.bind_ok e2).trans ((setSeq_bind ..).trans (e3.trans ?_))
    rw [encodeField_trailer (by omega), stegoOutput_take_trailer _ hl1' (by omega), List.length_append, ← Nat.add_assoc]
    rfl

end encode

/-! ## The command, stopped -/

/-- A raise leaves the ports as they are (R255), a missed write included. -/
theorem State.raise_missedIf (s : State) (b : Bool) (r : Raise) : (s.missedIf b).raise r = (s.raise r).missedIf b := by
  cases b <;> rfl

/-- What a missed write leaves: everything but the count of attempts. -/
theorem State.missedIf_eq (s : State) (b : Bool) :
    s.missedIf b = { s with sout := { s.sout with attempts := s.sout.attempts + b.toNat } } := by
  cases b <;> rfl

section exec
variable {s : State} (hm : s.MarkerLenOk) (hp : ∀ p ∈ portsRequired .encode, s.attached p = true)
include hm hp

/-- A carrier that stops inside the header: HDR holds the bytes read by then (R112, R172). -/
theorem exec_encode_header_stop {bs : List Byte} {tail left : List Item} {k : ErrKind} (hl : bs.length < 54)
    (hi : s.cin.items = asItems bs ++ tail) (hstop : CarrierStop tail k left) :
    ∃ t, exec .encode s = .next t ∧
      t = { s.failed (encode .encode) k (some .cin) .header with
        cin := { s.cin with items := left }, ccnt := BitVec.ofNat 64 bs.length, hdr := t.hdr } ∧
      ∀ j, j < 54 → fileByte t.hdr j = if j < bs.length then (bs[j]?).getD 0 else fileByte s.hdr j := by
  obtain ⟨hr, rfl, rfl⟩ := hstop.facts
  obtain ⟨h, g, e, hg⟩ := readHeader_stop (s := (s.start (encode .encode)).withSeq .header) hl hi hr
  refine ⟨_, exec_raises (i := .encode) (fun _ => hm) hp ((setSeq_bind ..).trans (Engine.bind_error e)), ?_, fun j _ => hg j⟩
  simp [State.readTo, State.start]
  rfl

variable {hb : Vector Byte Config.hdrLen} {rest : List Item} (hc : frameBytes s ≤ headerCapacity hb)
include hc

/-- A write of header byte `n` that fails (R174, R257). -/
theorem exec_encode_hdrcopy_stop (hi : s.cin.items = asItems hb.toList ++ rest) {n : Nat} (hn : n < 54)
    (hf : s.sout.NoFails n) (hk : n ∈ s.sout.fails) :
    exec .encode s = .next { s.failed (encode .encode) .ioFailure (some .sout) .hdrcopy with
      hdr := hb
      width := BitVec.ofNat 32 (hdrNumber hb 18), height := BitVec.ofNat 32 (hdrNumber hb 22)
      cap := BitVec.ofNat 64 (headerCapacity hb), result := 1
      ccnt := 54, ocnt := BitVec.ofNat 64 n, cin := { s.cin with items := rest }
      sout := { s.sout with data := s.sout.data ++ hb.toList.take n, attempts := n + 1 } } := by
  obtain ⟨h, e⟩ := encode_hdrcopy_stop hc hi hn hf hk
  have hlen : (hb.toList.take n).length = n := by rw [List.length_take, Vector.length_toList]; exact min_eq_left hn.le
  rw [exec_raises (i := .encode) (fun _ => hm) hp e]
  refine congrArg _ ((State.raise_sinkMissed _ .sout _).trans ?_)
  rw [raise_encoding, hlen]
  rfl

/-- What shows of an ENCODE stopped between MARKER and TRAILER (R181, R182, R257). -/
theorem exec_encode_stop {c x y : List Byte} {xs ys : List Item} {z : Stop}
    (hi : s.cin.items = asItems (hb.toList ++ c) ++ rest) (hxi : s.ein.items = asItems x ++ xs)
    (hx : x.length = s.elen.toNat) (hyi : s.pin.items = asItems y ++ ys) (hy : y.length = s.plen.toNat)
    (hf : s.sout.NoFails 54) (hz : Stops s.sout.fails 54 c rest z)
    (hk : z.error.kind = .unexpectedEndOfCarrier → z.written < 8 * frameBytes s) :
    ∃ t, exec .encode s = .next t ∧
      t.status = (s.failed (encode .encode) z.error.kind z.error.port (encodeField s z.written)).status ∧
      t.result = 1 ∧ t.cin.items = z.left ∧
      t.ccnt = BitVec.ofNat 64 (54 + c.length) ∧ t.ocnt = BitVec.ofNat 64 (54 + z.written) ∧
      t.sout.data = s.sout.data ++ (stegoOutput (hb.toList ++ c) (frame s x y)).take (54 + z.written) := by
  obtain ⟨xs', ys', h, e⟩ := encode_stop hm hc hi hxi hx hyi hy hf hz hk
  have hlen : ((stegoOutput (hb.toList ++ c) (frame s x y)).take (54 + z.written)).length = 54 + z.written := by
    rw [List.length_take, stegoOutput_header_length, min_eq_left (Nat.add_le_add_left hz.written_le 54)]
  refine ⟨_, exec_raises (i := .encode) (fun _ => hm) hp e, ?_⟩
  rw [State.raise_missedIf, raise_encoding, hlen, State.missedIf_eq]
  exact ⟨rfl, rfl, rfl, rfl, rfl, rfl⟩

end exec

/-- Settles O43: the stop in HEADER, in HDRCOPY, and, by `exec_encode_stop`, in the fields and the trailer. -/
theorem encodeStopsWhereTheCarrierOrTheOutputStops : Obligations.EncodeStopsWhereTheCarrierOrTheOutputStops := by
  intro s h1 h2 h3 h4 hm
  have hp := attached_encode h1 h2 h3 h4
  refine ⟨fun bs tail left k hl hi hstop => exec_encode_header_stop hm hp hl hi hstop, fun hb hc =>
    ⟨fun rest n hi hn hf hk => exec_encode_hdrcopy_stop hm hp hc hi hn hf hk,
      fun c x y rest xs ys hi hxi hx hyi hy => ⟨fun k left hstop hk hf => ?_, fun n hl hf hn => ?_⟩⟩⟩
  · obtain ⟨hr, -, rfl⟩ := hstop.facts
    have hz : Stops s.sout.fails 54 c rest _ := .carrier hr fun j hj => hf _ (Nat.add_lt_add_left hj 54)
    have h := exec_encode_stop hm hp hc hi hxi hx hyi hy (fun j hj => hf j (by omega)) hz
      (by rw [hstop.raise_eq]; exact hk)
    rw [hstop.raise_eq, List.take_of_length_le (stegoOutput_header_length hb c _).le] at h
    exact h
  · have hz : Stops s.sout.fails 54 c rest _ := .write hl (fun j hj => hf _ (Nat.add_lt_add_left hj 54)) hn
    have h := exec_encode_stop hm hp hc hi hxi hx hyi hy (fun j hj => hf j (by omega)) hz nofun
    rw [hl] at h
    exact h

end Sys2Proof.Machine
end

section
/-! Proofs, the Bit Packer: a whole unit packed as a command (R131 to R134), and a 32-bit value as its four bytes, failures
included (R136). What a part of a command shows does not depend on the hidden registers (R47), so a pack is the bits of its
unit handled one after the other, and the bits of a value are those of its four big-endian bytes (R74). -/

namespace Sys2Proof.Machine

/-! ## A unit packed as a command -/

/-- A command that packs one unit in PRIM, when its carrier bytes are there and its writes succeed (R132). -/
theorem exec_pack_ok {i : Instr} {w : Nat} {v : BitVec w} {s : State} {cs : List Byte} {rest : List Item}
    (hm : i = .encode ∨ i = .decode → s.MarkerLenOk) (hp : ∀ p ∈ portsRequired i, s.attached p = true)
    (hb : bodyOf i (s.start (encode i)) = packBits v ((s.start (encode i)).withSeq .prim)) (hl : cs.length = w)
    (hi : s.cin.items = asItems cs ++ rest) (hf : s.sout.NoFails w) :
    exec i s = .next { s.completed i with
      cin := { s.cin with items := rest }, ccnt := BitVec.ofNat 64 w, ocnt := BitVec.ofNat 64 w
      sout := { s.sout with data := s.sout.data ++ embed cs (bitsOf v), attempts := w } } := by
  obtain ⟨h, e⟩ := packBits_ok v (s := (s.start (encode i)).withSeq .prim) hl hi hf.started
  have hlen : (embed cs (bitsOf v)).length = w := by simp [hl]
  rw [exec_completes hm hp (hb.trans e), finish_moved, hlen]

/-- Settles O30: `exec_pack_ok` at the 8 bits of ARG[7:0]. -/
theorem packbEmbedsOneByte : Obligations.PackbEmbedsOneByte :=
  fun s _ _ h1 h2 hl hi hf => exec_pack_ok (i := .packb) (by simp) (attached_cin_sout h1 h2) (packb_body s) hl hi hf

/-- Settles O31: `exec_pack_ok` at the 32 bits of ARG. -/
theorem packwEmbedsOneWord : Obligations.PackwEmbedsOneWord :=
  fun s _ _ h1 h2 hl hi hf => exec_pack_ok (i := .packw) (by simp) (attached_cin_sout h1 h2) (packw_body s) hl hi hf

/-! ## What a part of a command shows -/

/-- States that differ in the hidden registers alone. -/
theorem State.eq_withHidden {t t' : State} (h : t.withHidden Hidden.reset = t'.withHidden Hidden.reset) :
    t = t'.withHidden t.hidden := by
  have e := congrArg (State.withHidden · t.hidden) h
  simpa using e

/-- `m` and `m'` show the same from states that differ in the hidden registers alone (R47). -/
def Engine.ShowsAs {α : Type} (m m' : Engine α) : Prop :=
  ∀ (s : State) (h : Hidden), shown (m (s.withHidden h)) = shown (m' s)

section shows
variable {α β : Type} {m m' : Engine α}

theorem Engine.ShowsAs.shown_eq (hm : m.ShowsAs m') (s : State) : shown (m s) = shown (m' s) := hm s s.hidden

theorem Engine.ShowsAs.pure (a : α) : Engine.ShowsAs (pure a) (pure a) := fun _ _ => rfl

/-- Parts that show the same, followed by parts that show the same. -/
theorem Engine.ShowsAs.bind {f f' : α → Engine β} (hm : m.ShowsAs m') (hf : ∀ a, (f a).ShowsAs (f' a)) :
    Engine.ShowsAs (m >>= f) (m' >>= f') := by
  intro s h
  have e := hm s h
  cases h1 : m (s.withHidden h) with
  | ok a t =>
    cases h2 : m' s with
    | ok a' t' =>
      rw [h1, h2] at e
      obtain ⟨rfl, ht⟩ := EStateM.Result.ok.inj e
      rw [Engine.bind_ok h1, Engine.bind_ok h2, State.eq_withHidden ht]
      exact hf a t' t.hidden
    | error r' t' => simp [h1, h2, shown] at e
  | error r t =>
    cases h2 : m' s with
    | ok a' t' => simp [h1, h2, shown] at e
    | error r' t' =>
      rw [h1, h2] at e
      obtain ⟨rfl, ht⟩ := EStateM.Result.error.inj e
      rw [Engine.bind_error h1, Engine.bind_error h2, State.eq_withHidden ht]
      rfl

/-- A write of the hidden register `bit` is not shown. -/
theorem Engine.ShowsAs.withBit (i : Nat) (hm : m.ShowsAs m') : Engine.ShowsAs (do modify (·.withBit i); m) m' :=
  fun s _ => hm s _

end shows

theorem carrierRead_showsAs : carrierRead.ShowsAs carrierRead := by
  intro s h
  obtain ⟨b, rest, hi, e⟩ | ⟨rest, hi, e⟩ | ⟨hi, e⟩ := carrierRead_cases s
  · rw [e, carrierRead_byte (s := s.withHidden h) hi]
    rfl
  · rw [e, carrierRead_err (s := s.withHidden h) hi]
    rfl
  · rw [e, carrierRead_eos (s := s.withHidden h) hi]
    rfl

theorem stegoWrite_showsAs (b : Byte) : (stegoWrite b).ShowsAs (stegoWrite b) := by
  intro s h
  obtain ⟨hf, e⟩ | ⟨hf, e⟩ := stegoWrite_cases b s
  · rw [e, stegoWrite_ok (s := s.withHidden h) b hf]
    rfl
  · rw [e, stegoWrite_fail (s := s.withHidden h) b hf]
    rfl

theorem packBit_showsAs (b : Bool) : (packBit b).ShowsAs (packBit b) :=
  carrierRead_showsAs.bind fun c => stegoWrite_showsAs (withLsb c b)

/-! ## A pack as the bits of its unit -/

/-- A loop that packs the bits `f i, f (i + 1), …` shows what packing the list of them shows. -/
theorem packLoop_showsAs (f : Nat → Bool) : ∀ n i : Nat,
    (forFrom (fun j => do modify (·.withBit j); packBit (f j)) n i).ShowsAs (forM ((List.range' i n).map f) packBit)
  | 0, _ => .pure ()
  | n + 1, i => ((packBit_showsAs (f i)).withBit i).bind fun _ => packLoop_showsAs f n (i + 1)

/-- The loop of R130 and R133 handles the bits of R73 one after the other. -/
theorem packBits_showsAs {w : Nat} (v : BitVec w) : (packBits v).ShowsAs (forM (bitsOf v) packBit) := by
  have h := packLoop_showsAs (msbFirst v) w 0
  rwa [← List.range_eq_range'] at h

/-- Bytes packed one after the other show what packing their bit string shows. -/
theorem packBytes_showsAs : ∀ bs : List Byte, Engine.ShowsAs (forM bs packByte) (forM (bitString bs) packBit)
  | [] => .pure ()
  | b :: bs => by
    have h := (packBits_showsAs b).bind fun _ => packBytes_showsAs bs
    rwa [← List.forM_append] at h

/-- Settles O38: both sides show what packing the 32 bits of the value shows, `bitString_be32`. -/
theorem packInt32IsFourPackBytes : Obligations.PackInt32IsFourPackBytes := by
  intro v s
  have word := (packBits_showsAs v).shown_eq s
  have bytes := (packBytes_showsAs (be32 v)).shown_eq s
  rw [bitString_be32] at bytes
  simp only [be32, List.forM_cons, List.forM_nil, bind_pure_unit] at bytes
  exact word.trans bytes.symm

end Sys2Proof.Machine
end

section
/-! Proofs, the Bit Unpacker: a whole unit unpacked as a command (R150 to R154), the unpacker and the packer as inverses of
each other (R152), and a 32-bit value as its four bytes, failures included (R155). A unit of `m + n` bits is its first `m`
bits and then its last `n`, wherever the carrier stops, so the 32 bits are cut byte by byte. -/

namespace Sys2Proof.Machine

/-! ## Numbers and the bits that spell them -/

/-- Bits appended shift the number they are appended to (R73). -/
theorem numberOf_append_bits (a b : List Bool) : numberOf (a ++ b) = numberOf a * 2 ^ b.length + numberOf b := by
  induction b using List.reverseRecOn with
  | nil => simp
  | append_singleton b x ih =>
    rw [← List.append_assoc, numberOf_append, numberOf_append, ih, List.length_append, List.length_singleton, Nat.pow_succ]
    ring

/-- Bit strings of one length that spell the same number are the same. -/
theorem numberOf_injective_of_length {a b : List Bool} (hl : a.length = b.length) (h : numberOf a = numberOf b) : a = b := by
  induction a using List.reverseRecOn generalizing b with
  | nil => exact (List.eq_nil_of_length_eq_zero hl.symm).symm
  | append_singleton a x ih =>
    obtain rfl | ⟨b, y, rfl⟩ := b.eq_nil_or_concat
    · simp at hl
    · rw [List.concat_eq_append] at h hl ⊢
      rw [numberOf_append, numberOf_append] at h
      have hx := Bool.toNat_le x
      have hy := Bool.toNat_le y
      have hbit : ∀ p q : Bool, p.toNat = q.toNat → p = q := by decide
      rw [ih (by simpa using hl) (by omega), hbit x y (by omega)]

/-- The bits of the number that `w` bits spell are those bits (R73). -/
theorem bitsOf_ofNat_numberOf {w : Nat} {bits : List Bool} (hl : bits.length = w) :
    bitsOf (BitVec.ofNat w (numberOf bits)) = bits := by
  subst hl
  refine numberOf_injective_of_length (bitsOf_length _) ?_
  rw [numberOf_bitsOf, BitVec.toNat_ofNat, Nat.mod_eq_of_lt (numberOf_lt bits)]

/-- The LSBs of stego bytes are the payload bits (R132). -/
theorem stegoByte_lsb (c : Byte) (b : Bool) : (stegoByte c b)[0] = b := by
  revert c b
  decide

/-- A byte that is given its own LSB stays as it is (R75). -/
theorem stegoByte_own_lsb (b : Byte) : stegoByte b b[0] = b := by
  revert b
  decide

theorem lsbs_embed {cs : List Byte} {bits : List Bool} (hl : cs.length = bits.length) : lsbs (embed cs bits) = bits := by
  refine List.ext_getElem (by simp [hl]) fun k _ _ => ?_
  simp [lsbs, embed, stegoByte_lsb]

theorem embed_lsbs (cs : List Byte) : embed cs (lsbs cs) = cs := by
  refine List.ext_getElem (by simp) fun k _ _ => ?_
  simp [lsbs, embed, stegoByte_own_lsb]

/-- The number that eight bits spell, as a byte and as a word (R150, R151). -/
theorem setWidth_ofNat_numberOf {bits : List Bool} (hl : bits.length = 8) :
    (BitVec.ofNat 8 (numberOf bits)).setWidth 32 = BitVec.ofNat 32 (numberOf bits) := by
  have hn := numberOf_lt bits
  rw [hl] at hn
  apply BitVec.eq_of_toNat_eq
  simp
  omega

/-! ## A unit unpacked as a command -/

/-- A command that only reads the carrier in PRIM and completes with `v` in RESULT. -/
theorem exec_completes_result {i : Instr} {s : State} {rest : List Item} {n : Nat} {h : Hidden} {v : Word}
    (hm : i = .encode ∨ i = .decode → s.MarkerLenOk) (hp : ∀ p ∈ portsRequired i, s.attached p = true)
    (hb : bodyOf i (s.start (encode i)) =
      .ok () { (((s.start (encode i)).withSeq .prim).readTo rest n).withHidden h with result := v }) :
    exec i s = .next { s.completed i with
      cin := { s.cin with items := rest }, ccnt := BitVec.ofNat 64 n, result := v } :=
  (exec_completes hm hp hb).trans
    (congrArg (fun t : State => Host.Outcome.next { t with result := v }) (finish_readTo s i rest n h .prim))

section unpack
variable {s : State} {cs : List Byte} {rest : List Item}

/-- The body of UNPACKB over a carrier that holds out (R150, R151). -/
theorem unpackb_body (hl : cs.length = 8) (hi : s.cin.items = asItems cs ++ rest) :
    ∃ h, bodyOf .unpackb (s.start (encode .unpackb)) =
      .ok () { (((s.start (encode .unpackb)).withSeq .prim).readTo rest 8).withHidden h with
        result := BitVec.ofNat 32 (numberOf (lsbs cs)) } := by
  have hb : (lsbs cs).length = 8 := by rw [lsbs_length, hl]
  obtain ⟨h, e, -⟩ := unpackByte_ok (s := (s.start (encode .unpackb)).withSeq .prim) (bitsOf_ofNat_numberOf hb).symm hi
  refine ⟨h, (setSeq_bind ..).trans ((Engine.bind_ok e).trans ?_)⟩
  rw [Engine.modify_apply, setWidth_ofNat_numberOf hb]

/-- The body of UNPACKW over a carrier that holds out (R153, R154). -/
theorem unpackw_body (hl : cs.length = 32) (hi : s.cin.items = asItems cs ++ rest) :
    ∃ h, bodyOf .unpackw (s.start (encode .unpackw)) =
      .ok () { (((s.start (encode .unpackw)).withSeq .prim).readTo rest 32).withHidden h with
        result := BitVec.ofNat 32 (numberOf (lsbs cs)) } := by
  obtain ⟨h, e, -⟩ := unpackBits_ok (by omega) (s := (s.start (encode .unpackw)).withSeq .prim) hl hi
  exact ⟨h, (setSeq_bind ..).trans (Engine.bind_ok e)⟩

end unpack

/-- Settles O34: RESULT is written once the body has read its 8 bits, `unpackb_body`. -/
theorem unpackbReadsOneByte : Obligations.UnpackbReadsOneByte := by
  intro s cs rest ha hl hi
  obtain ⟨h, e⟩ := unpackb_body hl hi
  exact exec_completes_result (i := .unpackb) (by simp) (attached_cin ha) e

/-- Settles O35: RESULT is written once the body has read its 32 bits, `unpackw_body`. -/
theorem unpackwReadsOneWord : Obligations.UnpackwReadsOneWord := by
  intro s cs rest ha hl hi
  obtain ⟨h, e⟩ := unpackw_body hl hi
  exact exec_completes_result (i := .unpackw) (by simp) (attached_cin ha) e

/-! ## Unpacking after packing, and packing after unpacking -/

/-- A command that ended with DONE = 1 completed its body (R95, R255). -/
theorem exec_done {i : Instr} {s t : State} (h : exec i s = .next t) (hd : t.status.done = true) :
    ∃ u, bodyOf i (s.start (encode i)) = .ok () u ∧ t = u.finish := by
  obtain ⟨r, rfl⟩ | rfl := exec_cases h
  · cases hd
  · cases hb : bodyOf i (s.start (encode i)) with
    | ok a u => exact ⟨u, rfl, rfl⟩
    | error r u =>
      rw [hb] at hd
      cases hd

/-- The LSBs of what a completed pack put on SOUT are the bits of its unit (R132). -/
theorem lsbs_of_pack_done {i : Instr} {w : Nat} {v : BitVec w} {s t : State} {out : List Byte}
    (hb : bodyOf i (s.start (encode i)) = packBits v ((s.start (encode i)).withSeq .prim)) (h : exec i s = .next t)
    (hd : t.status.done = true) (ho : t.sout.data = s.sout.data ++ out) : lsbs out = bitsOf v := by
  obtain ⟨u, hu, rfl⟩ := exec_done h hd
  obtain ⟨cs, rest, g, hl, -, -, rfl⟩ := packBits_inv (hb.symm.trans hu)
  have hout : embed cs (bitsOf v) = out := List.append_cancel_left ho
  rw [← hout, lsbs_embed (by simpa using hl)]

/-- Settles O37: the LSBs of the stego bytes are the bits of the unit, and `embed` with a carrier's own LSBs gives the
carrier back. -/
theorem unpackInvertsPack : Obligations.UnpackInvertsPack := by
  refine ⟨fun s t u out rest h hd ho ha hi => ?_, fun s t u out rest h hd ho ha hi => ?_,
    fun s t u cs rest hi hl h hd harg ha1 ha2 hiu hf => ?_⟩
  · have hb : lsbs out = bitsOf (s.arg.setWidth 8 : Byte) := lsbs_of_pack_done (packb_body s) h hd ho
    have hl : out.length = 8 := by rw [← lsbs_length, hb, bitsOf_length]
    refine ⟨_, unpackbReadsOneByte u out rest ha hl hi, rfl, ?_⟩
    rw [hb, numberOf_bitsOf]
    simp
    omega
  · have hb : lsbs out = bitsOf s.arg := lsbs_of_pack_done (packw_body s) h hd ho
    have hl : out.length = 32 := by rw [← lsbs_length, hb, bitsOf_length]
    refine ⟨_, unpackwReadsOneWord u out rest ha hl hi, rfl, ?_⟩
    rw [hb, numberOf_bitsOf, BitVec.ofNat_toNat, BitVec.setWidth_eq]
  · obtain ⟨x, hx, rfl⟩ := exec_done h hd
    obtain ⟨g, e⟩ := unpackb_body hl hi
    obtain ⟨-, rfl⟩ := EStateM.Result.ok.inj (e.symm.trans hx)
    have hv : u.arg.setWidth 8 = BitVec.ofNat 8 (numberOf (lsbs cs)) := by
      rw [harg]
      apply BitVec.eq_of_toNat_eq
      simp [State.finish]
    refine ⟨_, packbEmbedsOneByte u cs [] ha1 ha2 hl (by simpa using hiu) hf, rfl, ?_⟩
    rw [hv, bitsOf_ofNat_numberOf (by simpa using hl), embed_lsbs]

/-! ## A value as its bytes -/

theorem Engine.ShowsAs.trans {α : Type} {m m' m'' : Engine α} (h : m.ShowsAs m') (h' : m'.ShowsAs m'') : m.ShowsAs m'' :=
  fun s g => (h s g).trans (h'.shown_eq s)

theorem lsbs_append (c d : List Byte) : lsbs (c ++ d) = lsbs c ++ lsbs d := List.map_append

/-- The number that the LSBs of `c` and then `d` spell, in the 32-bit accumulator (R153, R155). -/
theorem ofNat_numberOf_lsbs_append {c d : List Byte} (h : c.length + d.length ≤ 32) :
    BitVec.ofNat 32 (numberOf (lsbs (c ++ d))) =
      (BitVec.ofNat 32 (numberOf (lsbs c)) <<< d.length ||| BitVec.ofNat 32 (numberOf (lsbs d)) : Word) := by
  have hd : numberOf (lsbs d) < 2 ^ d.length := by simpa using numberOf_lt (lsbs d)
  have hsum : numberOf (lsbs (c ++ d)) < 2 ^ 32 :=
    (numberOf_lt _).trans_le (Nat.pow_le_pow_right (by omega) (by simpa using h))
  rw [lsbs_append, numberOf_append_bits, lsbs_length] at hsum ⊢
  have hc : numberOf (lsbs c) ≤ numberOf (lsbs c) * 2 ^ d.length := Nat.le_mul_of_pos_right _ (Nat.two_pow_pos _)
  apply BitVec.eq_of_toNat_eq
  simp only [BitVec.toNat_or, BitVec.toNat_shiftLeft, BitVec.toNat_ofNat]
  rw [Nat.mod_eq_of_lt hsum, Nat.mod_eq_of_lt (a := numberOf (lsbs c)) (by omega),
    Nat.mod_eq_of_lt (a := numberOf (lsbs d)) (by omega), Nat.mod_eq_of_lt (by rw [Nat.shiftLeft_eq]; omega),
    ← Nat.shiftLeft_add_eq_or_of_lt hd, Nat.shiftLeft_eq]

/-- `m + n` bits are unpacked as the first `m` and then the last `n`, the point of failure included. -/
theorem unpackBits_add_showsAs {m n : Nat} (hw : m + n ≤ 32) :
    (unpackBits (m + n)).ShowsAs (do
      let a ← unpackBits m
      let b ← unpackBits n
      pure (a <<< n ||| b)) := by
  intro s g
  obtain ⟨c, rest, hc, hi⟩ | ⟨c, tail, hc, hi, hr⟩ := items_split m s.cin.items
  · obtain ⟨g1, e1, -⟩ := unpackBits_ok (by omega) hc hi
    obtain ⟨d, rest, hd, rfl⟩ | ⟨d, tail, hd, rfl, hr⟩ := items_split n rest
    · obtain ⟨g2, e2, -⟩ := unpackBits_ok (w := n) (by omega)
        (s := (s.readTo (asItems d ++ rest) m).withHidden g1) hd rfl
      obtain ⟨g3, e3, -⟩ := unpackBits_ok (w := m + n) hw (s := s.withHidden g) (cs := c ++ d) (rest := rest)
        (by simp [hc, hd]) (by simp [hi])
      rw [e3, Engine.bind_ok e1, Engine.bind_ok e2, ofNat_numberOf_lsbs_append (by omega), hd]
      simp
      rfl
    · obtain ⟨g2, e2⟩ := unpackBits_stop (w := n) (by omega)
        (s := (s.readTo (asItems d ++ tail) m).withHidden g1) hd rfl hr
      obtain ⟨g3, e3⟩ := unpackBits_stop (w := m + n) hw (s := s.withHidden g) (cs := c ++ d) (rest := tail)
        (by simp; omega) (by simp [hi]) hr
      rw [e3, Engine.bind_ok e1, Engine.bind_error e2]
      simp [hc]
      rfl
  · obtain ⟨g1, e1⟩ := unpackBits_stop (w := m) (by omega) hc hi hr
    obtain ⟨g3, e3⟩ := unpackBits_stop (w := m + n) hw (s := s.withHidden g) (by omega) hi hr
    rw [e3, Engine.bind_error e1]
    rfl

/-- Eight bits in the accumulator are the byte that `UnpackByte()` answers (R150). -/
theorem unpackBits_eight_showsAs : (unpackBits 8).ShowsAs (do let b ← unpackByte; pure (b.setWidth 32)) := by
  intro s g
  obtain ⟨c, rest, hc, hi⟩ | ⟨c, tail, hc, hi, hr⟩ := items_split 8 s.cin.items
  · have hb : (lsbs c).length = 8 := by rw [lsbs_length, hc]
    obtain ⟨g1, e1, -⟩ := unpackBits_ok (w := 8) (by omega) (s := s.withHidden g) hc hi
    obtain ⟨g2, e2, -⟩ := unpackByte_ok (bitsOf_ofNat_numberOf hb).symm hi
    rw [e1, Engine.bind_ok e2, setWidth_ofNat_numberOf hb]
    rfl
  · obtain ⟨g1, e1⟩ := unpackBits_stop (w := 8) (by omega) (s := s.withHidden g) hc hi hr
    obtain ⟨g2, e2⟩ := unpackBits_stop (w := 8) (by omega) hc hi hr
    rw [e1, Engine.bind_error (m := unpackByte) (Engine.bind_error e2)]
    rfl

/-- A byte and then the rest of the value (R155). -/
theorem unpackBits_byte_showsAs {n : Nat} {m : Engine Word} (hw : 8 + n ≤ 32) (hm : (unpackBits n).ShowsAs m) :
    (unpackBits (8 + n)).ShowsAs (do
      let b ← unpackByte
      let v ← m
      pure (b.setWidth 32 <<< n ||| v)) := by
  have h := (unpackBits_add_showsAs hw).trans (unpackBits_eight_showsAs.bind fun b => hm.bind fun v => .pure (b <<< n ||| v))
  simpa only [bind_assoc, pure_bind] using h

/-- Settles O39: the 32 bits are cut byte by byte. -/
theorem unpackInt32IsFourUnpackBytes : Obligations.UnpackInt32IsFourUnpackBytes := by
  intro s
  have two := unpackBits_byte_showsAs (by omega) unpackBits_eight_showsAs
  have four := unpackBits_byte_showsAs (by omega) (unpackBits_byte_showsAs (by omega) two)
  have h := four.shown_eq s
  simp only [bind_assoc, pure_bind, ← BitVec.or_assoc] at h
  exact h

end Sys2Proof.Machine
end

section
/-! Proofs, ENCODE completed: what a run that nothing stops leaves (R171 to R180), and what a completed ENCODE must have
found. -/

namespace Sys2Proof.Machine

/-! ## The stego image -/

/-- The stego image of a header, the carrier bytes of the frame and a trailer (R180). -/
theorem stegoOutput_parts (hb : Vector Byte 54) {c f : List Byte} (d : List Byte) (hc : c.length = 8 * f.length) :
    stegoOutput (hb.toList ++ (c ++ d)) f = hb.toList ++ embed c (bitString f) ++ d := by
  rw [stegoOutput_header, List.take_left' hc, List.drop_left' hc, List.append_assoc]

/-! ## The states of ENCODE, run to the end -/

/-- ENCODE over a carrier that holds the frame, with no failing write, has put the stego image on SOUT at the end of TRAILER
(R172 to R180). -/
theorem encode_ok {s : State} {hb : Vector Byte Config.hdrLen} {c x y : List Byte} {xs ys : List Item} (hm : s.MarkerLenOk)
    (hi : s.cin.items = asItems (hb.toList ++ c)) (hxi : s.ein.items = asItems x ++ xs) (hx : x.length = s.elen.toNat)
    (hyi : s.pin.items = asItems y ++ ys) (hy : y.length = s.plen.toNat) (hc : frameBytes s ≤ headerCapacity hb)
    (hl : 8 * frameBytes s ≤ c.length) (hf : s.sout.NoFails (54 + c.length)) :
    ∃ h, bodyOf .encode (s.start (encode .encode)) =
      .ok () ((s.encoding hb .trailer xs ys).moved [] (54 + c.length) (stegoOutput (hb.toList ++ c) (frame s x y)) h) := by
  have hlen := frame_length hm hx hy
  have h54 : hb.toList.length = 54 := hb.length_toList
  obtain ⟨c1, c2, rfl, hl1⟩ := split_length hl
  rw [← hlen] at hl1
  rw [List.length_append] at hf
  obtain ⟨h1, e1⟩ := headerStates_ok (s := s.start (encode .encode)) (rest := asItems c1 ++ asItems c2)
    (do encodeFields; setSeq .trailer; copyRest) hb (by simpa using hi) hc
    (fun k hk => by simpa using hf k (by omega))
  rw [← encodeBody_eq_fields] at e1
  obtain ⟨h2, e2⟩ := (packs_frame hm hxi hx hyi hy).ok c1 (asItems c2) 54 hb.toList h1 hl1
    (fun k hk => by rw [h54]; exact hf _ (by omega))
  have e3 := trailerState_ok (X := s.encoding hb .payload xs ys) (n := 54 + c1.length)
    (out := hb.toList ++ embed c1 (bitString (frame s x y))) (h := h2) (c := c2)
    (encoding_noFails (n := 54 + (c1.length + c2.length)) hf (packed_length hb hl1) (by omega))
  refine ⟨h2, e1.trans ((Engine.bind_ok e2).trans (e3.trans ?_))⟩
  rw [stegoOutput_parts hb c2 hl1, List.length_append, ← Nat.add_assoc]
  rfl

/-- Completion of ENCODE past CAPCHECK. -/
theorem finish_encoding (s : State) (hb : Vector Byte Config.hdrLen) (q : Seq) (xs ys rest : List Item) (n : Nat)
    (out : List Byte) (h : Hidden) :
    ((s.encoding hb q xs ys).moved rest n out h).finish =
      { s.completed .encode with
        hdr := hb
        width := BitVec.ofNat 32 (hdrNumber hb 18), height := BitVec.ofNat 32 (hdrNumber hb 22)
        cap := BitVec.ofNat 64 (headerCapacity hb), result := 1
        ccnt := BitVec.ofNat 64 n, ocnt := BitVec.ofNat 64 out.length
        cin := { s.cin with items := rest }, ein := { s.ein with items := xs }, pin := { s.pin with items := ys }
        sout := { s.sout with data := s.sout.data ++ out, attempts := out.length } } := by
  have e : ((s.encoding hb q xs ys).moved rest n out h).finish =
      { (((((s.start (encode .encode)).withSeq q).readTo rest n).stegoOut out).withHidden h).finish with
        hdr := hb
        width := BitVec.ofNat 32 (hdrNumber hb 18), height := BitVec.ofNat 32 (hdrNumber hb 22)
        cap := BitVec.ofNat 64 (headerCapacity hb), result := 1
        ein := { s.ein with items := xs }, pin := { s.pin with items := ys } } := rfl
  rw [e, finish_moved]

/-- Settles O40: the body is `encode_ok`, and the stego image is as long as the carrier. -/
theorem encodeWritesTheStegoImage : Obligations.EncodeWritesTheStegoImage := by
  intro s hb c x y xs ys h1 h2 h3 h4 hm hi hxi hx hyi hy hc hl hf
  obtain ⟨h, e⟩ := encode_ok hm hi hxi hx hyi hy hc hl hf
  refine ⟨frame_length hm hx hy, ?_⟩
  rw [exec_completes (i := .encode) (fun _ => hm) (attached_encode h1 h2 h3 h4) e, finish_encoding,
    stegoOutput_header_length]

/-! ## What a completed ENCODE did -/

theorem asItems_injective : Function.Injective asItems := List.map_injective_iff.2 fun _ _ => Item.byte.inj

/-- The fields of the frame, completed: the extension and the payload were there, and so was a carrier byte for every bit
of the frame (R175 to R179). -/
theorem encodeFields_inv {s t : State} {hb : Vector Byte Config.hdrLen} {R : List Item} {n : Nat} {out : List Byte}
    {h : Hidden} {k : Engine Unit} (hm : s.MarkerLenOk)
    (e : (do encodeFields; k : Engine Unit) ((s.encoding hb .hdrcopy s.ein.items s.pin.items).moved R n out h) = .ok () t) :
    ∃ x y xs ys c rest h', s.ein.items = asItems x ++ xs ∧ x.length = s.elen.toNat ∧ s.pin.items = asItems y ++ ys ∧
      y.length = s.plen.toNat ∧ R = asItems c ++ rest ∧ c.length = 8 * (frame s x y).length ∧
      k ((s.encoding hb .payload xs ys).moved rest (n + c.length) (out ++ embed c (bitString (frame s x y))) h') =
        .ok () t := by
  have hml := markerBytes_length (markerLenOk_iff.2 hm)
  simp only [encodeFields, bind_assoc] at e
  obtain ⟨c1, _, h1, hl1, rfl, -, e⟩ :=
    markerState_inv (X := s.encoding hb .hdrcopy s.ein.items s.pin.items) (markerLenOk_iff.2 hm) e
  obtain ⟨c2, _, h2, hl2, rfl, -, e⟩ := lengthState_inv .extlen State.elen (fun _ => rfl) e
  obtain ⟨x, xs, c3, _, h3, hx, hxi, hl3, rfl, -, e⟩ := extState_inv e
  obtain ⟨c4, _, h4, hl4, rfl, -, e⟩ := lengthState_inv .paylen State.plen (fun _ => rfl) e
  obtain ⟨y, ys, c5, rest, h5, hy, hyi, hl5, rfl, -, e⟩ := payloadState_inv e
  have hb1 : c1.length = 8 * (markerBytes s).length := hml ▸ hl1
  have hb3 : c3.length = 8 * x.length := hx ▸ hl3
  have hb5 : c5.length = 8 * y.length := hy ▸ hl5
  refine ⟨x, y, xs, ys, c1 ++ (c2 ++ (c3 ++ (c4 ++ c5))), rest, h5, hxi, hx, hyi, hy, by simp, ?_, ?_⟩
  · simp [frame]; omega
  · have hframe : embed (c1 ++ (c2 ++ (c3 ++ (c4 ++ c5)))) (bitString (frame s x y)) =
        embed c1 (bitString (markerBytes s)) ++ (embed c2 (bitString (be32 s.elen)) ++
          (embed c3 (bitString x) ++ (embed c4 (bitString (be32 s.plen)) ++ embed c5 (bitString y)))) := by
      simp only [frame, List.append_assoc]
      rw [embed_bitString_append hb1, embed_bitString_append (by simpa using hl2), embed_bitString_append hb3,
        embed_bitString_append (by simpa using hl4)]
    rw [hframe]
    simp only [List.length_append, hl1, hl2, hl3, hl4, hl5, ← List.append_assoc, ← Nat.add_assoc]
    exact e

/-- ENCODE that reaches DONE had an MLEN in range (R97). -/
theorem markerLenOk_of_done {s t : State} (h : exec .encode s = .next t) (hd : t.status.done = true) : s.MarkerLenOk := by
  by_contra hm
  rw [markerLengthOutOfRangeRaisesInvalidArguments .encode s (.inl rfl) (by rw [State.MarkerLenOk] at hm; omega)] at h
  cases h
  cases hd

/-- A body of ENCODE that completed found the carrier, the extension and the payload that `encode_ok` asks for, and left the
state it gives. -/
theorem encode_inv {s u : State} (hm : s.MarkerLenOk) (e : bodyOf .encode (s.start (encode .encode)) = .ok () u) :
    ∃ (hb : Vector Byte Config.hdrLen) (c x y : List Byte) (xs ys : List Item) (h : Hidden),
      s.cin.items = asItems (hb.toList ++ c) ∧ s.ein.items = asItems x ++ xs ∧ x.length = s.elen.toNat ∧
      s.pin.items = asItems y ++ ys ∧ y.length = s.plen.toNat ∧ 8 * (frame s x y).length ≤ c.length ∧
      u = (s.encoding hb .trailer xs ys).moved [] (54 + c.length) (stegoOutput (hb.toList ++ c) (frame s x y)) h := by
  obtain ⟨hb, _, _, hi, -, -, e⟩ := headerStates_inv (k := do encodeFields; setSeq .trailer; copyRest)
    ((congrFun encodeBody_eq_fields _).symm.trans e)
  obtain ⟨x, y, xs, ys, c1, _, h, hxi, hx, hyi, hy, rfl, hl1, e⟩ := encodeFields_inv hm e
  obtain ⟨c2, rfl, -, rfl⟩ := trailerState_inv e
  refine ⟨hb, c1 ++ c2, x, y, xs, ys, h, by simpa using hi, hxi, hx, hyi, hy, by simp [hl1], ?_⟩
  rw [stegoOutput_parts hb c2 hl1, List.length_append, ← Nat.add_assoc]
  rfl

/-- Settles O41: `encode_inv`, and the end of the command. -/
theorem encodeDoneWroteTheStegoImage : Obligations.EncodeDoneWroteTheStegoImage := by
  intro s t c hi ht hd
  obtain ⟨u, e, rfl⟩ := exec_done ht hd
  obtain ⟨hb, c', x, y, xs, ys, h, hi', hxi, hx, hyi, hy, hl, rfl⟩ := encode_inv (markerLenOk_of_done ht hd) e
  obtain rfl : c = hb.toList ++ c' := asItems_injective (hi.symm.trans hi')
  have hlen : (hb.toList ++ c').length = 54 + c'.length := by simp [Config.hdrLen]
  have hout := stegoOutput_header_length hb c' (frame s x y)
  rw [finish_encoding, hlen]
  exact ⟨x, y, hxi, hx, hyi, hy, by omega, rfl, hout, rfl, congrArg (BitVec.ofNat 64) hout⟩

end Sys2Proof.Machine
end

section
/-! Proofs, ENCODE and the sequence of primitive commands of R184: both take the host from the same items to a machine that shows
the same (`State.Shows`), the sequence command by command. -/

namespace Sys2Proof.Machine

/-! ## Actions of the host -/

theorem runActions_cons {c : HostStmt} {s t : State} (h : hostAct c s = .next t) (l : List HostStmt) :
    runActions (c :: l) s = runActions l t := by
  rw [runActions, h]

theorem runActions_append {l : List HostStmt} {s t : State} (h : runActions l s = some t) (l' : List HostStmt) :
    runActions (l ++ l') s = runActions l' t := by
  induction l generalizing s with
  | nil => exact congrArg _ (Option.some.inj h)
  | cons c l ih =>
    cases hc : hostAct c s with
    | next u =>
      rw [runActions_cons hc] at h
      rw [List.cons_append, runActions_cons hc, ih h]
    | fault r => simp [runActions, hc] at h
    | refused r => simp [runActions, hc] at h

/-- `wr ARG, v` while BUSY = 0 (R22). -/
theorem hostAct_wr_arg {s : State} (hb : s.status.busy = false) (v : Word) :
    hostAct (asmWr 0x008 v) s = .next { s with arg := v } := by
  have h := hostWrite_reg (off := 0x008) (r := .arg) v s rfl rfl (by decide)
  rwa [hb] at h

/-- A command of the host's program that does not fail (R95, R100): the host judges no output by it (R260). -/
theorem hostAct_command {i : Instr} {s t : State} (hb : s.status.busy = false) (he : exec i s = .next t)
    (hf : t.status.fail = false) : hostAct (asmCommand i) s = .next t := by
  obtain ⟨-, -, -, -, -, -, hh⟩ := commandsKeepTheirOperands i s t he
  have h : hostAct (asmCommand i) s = writeCmd (encode i) s := hostWrite_cmd (encode i) s rfl rfl
  rw [h, writeCmd, hb, decode_encode]
  exact (runJudged_eq he).trans (congrArg _ (State.judged_of_done hf hh))

/-! ## The primitive commands, completed -/

/-- CAPEST (R113, R114). -/
theorem exec_capest (s : State) :
    exec .capest s = .next { s.completed .capest with
      width := BitVec.ofNat 32 (hdrNumber s.hdr 18), height := BitVec.ofNat 32 (hdrNumber s.hdr 22)
      cap := BitVec.ofNat 64 (headerCapacity s.hdr) } := by
  rw [exec_completes (i := .capest) (by simp) (by simp [portsRequired]) rfl, estimated_eq]
  rfl

/-- The state after a command that completed, having taken `n` bytes from CIN with `rest` left, and put `out` on SOUT. -/
def State.completedMove (s : State) (i : Instr) (rest : List Item) (n : Nat) (out : List Byte) : State :=
  { s.completed i with
    cin := { s.cin with items := rest }, ccnt := BitVec.ofNat 64 n, ocnt := BitVec.ofNat 64 out.length
    sout := { s.sout with data := s.sout.data ++ out, attempts := out.length } }

/-- A command that moves bytes in PRIM and completes. -/
theorem exec_completes_moved {i : Instr} {s : State} {rest : List Item} {n : Nat} {out : List Byte} {h : Hidden}
    (hm : i = .encode ∨ i = .decode → s.MarkerLenOk) (hp : ∀ p ∈ portsRequired i, s.attached p = true)
    (hb : bodyOf i (s.start (encode i)) = .ok () (((s.start (encode i)).withSeq .prim).moved rest n out h)) :
    exec i s = .next (s.completedMove i rest n out) :=
  (exec_completes hm hp hb).trans (congrArg _ (finish_moved s i rest n out h .prim))

/-! ## Between two commands -/

/-- What the machine `t` shows when its last command is DONE: the items `rest` on CIN, `out` on SOUT behind what `X` has there,
and the header, the capacity and RESULT of `X`. -/
structure State.Shows (X : State) (rest : List Item) (out : List Byte) (t : State) : Prop where
  status : t.status = { Status.reset with done := true, state := 12 }
  attached : t.cin.attached = true ∧ t.sout.attached = true
  fails : t.sout.fails = []
  items : t.cin.items = rest
  data : t.sout.data = X.sout.data ++ out
  hdr : t.hdr = X.hdr
  width : t.width = X.width
  height : t.height = X.height
  cap : t.cap = X.cap
  result : t.result = X.result

section shows
variable {X t : State} {rest : List Item} {out : List Byte}

theorem State.Shows.idle (ht : X.Shows rest out t) : t.status.busy = false := by rw [ht.status]; rfl

theorem State.Shows.withArg (ht : X.Shows rest out t) (a : Word) : X.Shows rest out { t with arg := a } where
  __ := ht

/-- A command that moves bytes from CIN and to SOUT, as an action of the host. -/
theorem State.Shows.command {i : Instr} {n : Nat} {rest' : List Item} {out' : List Byte} (ht : X.Shows rest out t)
    (he : exec i t = .next (t.completedMove i rest' n out')) :
    ∃ u, runActions [asmCommand i] t = some u ∧ X.Shows rest' (out ++ out') u := by
  refine ⟨_, runActions_cons (hostAct_command ht.idle he rfl) [], ?_⟩
  exact { ht with status := rfl, items := rfl, data := by rw [← List.append_assoc, ← ht.data]; rfl }

/-- EMITHDR reads no carrier byte (R230). -/
theorem State.Shows.emithdr (ht : X.Shows rest out t) :
    ∃ u, runActions [asmCommand .emithdr] t = some u ∧ X.Shows rest (out ++ X.hdr.toList) u := by
  obtain ⟨h, e⟩ := emitHeader_ok (s := (t.start (encode .emithdr)).withSeq .prim) (by simp [ht.fails])
  have he : exec .emithdr t = .next (t.completedMove .emithdr t.cin.items 0 t.hdr.toList) :=
    exec_completes_moved (by simp) (by simpa [portsRequired, State.attached] using ht.attached.2) e
  rw [ht.items, ht.hdr] at he
  exact ht.command he

/-- COPYREST over a carrier of bytes (R234). -/
theorem State.Shows.copyrest {c : List Byte} (ht : X.Shows (asItems c) out t) :
    ∃ u, runActions [asmCommand .copyrest] t = some u ∧ X.Shows [] (out ++ c) u := by
  have e := copyRest_ok (s := (t.start (encode .copyrest)).withSeq .prim) ht.items (by simp [ht.fails])
  exact ht.command (exec_completes_moved (by simp) (attached_cin_sout ht.attached.1 ht.attached.2) e)

/-- ARG written, and then one unit packed (R101, R131, R134). -/
theorem State.Shows.pack {i : Instr} {w : Nat} {v : BitVec w} {a : Word} {cs : List Byte}
    (ht : X.Shows (asItems cs ++ rest) out t) (hl : cs.length = w) (hp : portsRequired i = [.cin, .sout])
    (hb : ∀ s : State, s.arg = a → bodyOf i (s.start (encode i)) = packBits v ((s.start (encode i)).withSeq .prim)) :
    ∃ u, runActions [asmWr 0x008 a, asmCommand i] t = some u ∧ X.Shows rest (out ++ embed cs (bitsOf v)) u := by
  have ha := ht.withArg a
  have hm : i = .encode ∨ i = .decode → ({ t with arg := a } : State).MarkerLenOk := by rintro (rfl | rfl) <;> cases hp
  obtain ⟨h, e⟩ := packBits_ok v (s := (({ t with arg := a } : State).start (encode i)).withSeq .prim) hl ha.items
    (by simp [ht.fails])
  rw [runActions_cons (hostAct_wr_arg ht.idle a)]
  exact ha.command (exec_completes_moved hm (hp ▸ attached_cin_sout ha.attached.1 ha.attached.2) ((hb _ rfl).trans e))

end shows

/-! ## The sequence -/

/-- The actions `l` pack the bytes `bs` from any state that shows `X`, over carrier bytes that are there. -/
def State.ActionsPack (X : State) (l : List HostStmt) (bs : List Byte) : Prop :=
  ∀ (cs : List Byte) (rest : List Item) (out : List Byte) (t : State), cs.length = 8 * bs.length →
    X.Shows (asItems cs ++ rest) out t →
    ∃ u, runActions l t = some u ∧ X.Shows rest (out ++ embed cs (bitString bs)) u

section pack
variable {X : State} {l l' : List HostStmt} {bs bs' : List Byte}

theorem State.ActionsPack.append (h : X.ActionsPack l bs) (h' : X.ActionsPack l' bs') :
    X.ActionsPack (l ++ l') (bs ++ bs') := by
  intro cs rest out t hl ht
  rw [List.length_append] at hl
  obtain ⟨c1, c2, rfl, hl1⟩ := split_length (l := cs) (n := 8 * bs.length) (by omega)
  rw [List.length_append] at hl
  rw [asItems_append, List.append_assoc] at ht
  obtain ⟨u, hu, hsu⟩ := h c1 _ out t hl1 ht
  obtain ⟨v, hv, hsv⟩ := h' c2 rest _ u (by omega) hsu
  refine ⟨v, (runActions_append hu l').trans hv, ?_⟩
  rwa [embed_bitString_append hl1, ← List.append_assoc]

/-- `PACKB imm8` (R101, R131). -/
theorem actionsPack_packb (b : Byte) : X.ActionsPack (asmPackb b) [b] := by
  intro cs rest out t hl ht
  rw [bitString_singleton]
  exact ht.pack hl rfl fun s hs => by
    rw [packb_body, hs, BitVec.setWidth_setWidth_of_le _ (by omega), BitVec.setWidth_eq]

/-- `PACKW imm32` (R101, R134). -/
theorem actionsPack_packw (v : Word) : X.ActionsPack (asmPackw v) (be32 v) := by
  intro cs rest out t hl ht
  rw [bitString_be32]
  exact ht.pack hl rfl fun s hs => by rw [packw_body, hs]

/-- A byte string, byte by byte. -/
theorem actionsPack_bytes : ∀ bs : List Byte, X.ActionsPack (bs.flatMap asmPackb) bs
  | [] => fun cs rest out t hl ht => by
    obtain rfl := List.length_eq_zero_iff.mp hl
    exact ⟨t, rfl, by simpa [embed] using ht⟩
  | b :: bs => (actionsPack_packb b).append (actionsPack_bytes bs)

end pack

/-- The part of the sequence of R184 that packs the frame. -/
theorem actionsPack_frame (X s : State) (x y : List Byte) :
    X.ActionsPack ((markerBytes s).flatMap asmPackb ++ asmPackw s.elen ++ x.flatMap asmPackb ++ asmPackw s.plen ++
      y.flatMap asmPackb) (frame s x y) :=
  ((((actionsPack_bytes _).append (actionsPack_packw _)).append (actionsPack_bytes x)).append
    (actionsPack_packw _)).append (actionsPack_bytes y)

section encode
variable {s : State} {hb : Vector Byte Config.hdrLen}

/-- LOADHDR, CAPEST and CHKCAP leave what HEADER and CAPCHECK of ENCODE leave (R172, R173). -/
theorem primitive_check {rest : List Item} (hbusy : s.status.busy = false) (h1 : s.cin.attached = true)
    (h2 : s.sout.attached = true) (hf : s.sout.fails = []) (hi : s.cin.items = asItems hb.toList ++ rest)
    (hc : frameBytes s ≤ headerCapacity hb) :
    ∃ t, runActions [asmCommand .loadhdr, asmCommand .capest, asmCommand .chkcap] s = some t ∧
      (s.withHdr hb).checked.Shows rest [] t := by
  have e1 := loadhdrReadsTheHeader s hb rest h1 hi
  have e2 := exec_capest { s.completed .loadhdr with hdr := hb, cin := { s.cin with items := rest }, ccnt := 54 }
  have hcap : (BitVec.ofNat 64 (headerCapacity hb)).toNat = headerCapacity hb :=
    Nat.mod_eq_of_lt ((headerCapacity_lt hb).trans (by decide))
  refine ⟨_, (runActions_cons (hostAct_command hbusy e1 rfl) _).trans
    ((runActions_cons (hostAct_command rfl e2 rfl) _).trans
      (runActions_cons (hostAct_command rfl ((chkcapReportsWhetherTheFrameFits _).1 ?_) rfl) [])), ?_⟩
  · exact hc.trans_eq hcap.symm
  · exact ⟨rfl, ⟨h1, h2⟩, hf, rfl, (List.append_nil _).symm, rfl, rfl, rfl, rfl, rfl⟩

/-- The whole sequence of R184. -/
theorem primitiveEncode_shows {c x y : List Byte} (hbusy : s.status.busy = false) (h1 : s.cin.attached = true)
    (h2 : s.sout.attached = true) (hf : s.sout.fails = []) (hi : s.cin.items = asItems (hb.toList ++ c))
    (hc : frameBytes s ≤ headerCapacity hb) (hl : 8 * (frame s x y).length ≤ c.length) :
    ∃ u, runActions (primitiveEncode s x y) s = some u ∧
      (s.withHdr hb).checked.Shows [] (stegoOutput (hb.toList ++ c) (frame s x y)) u := by
  obtain ⟨c1, c2, rfl, hl1⟩ := split_length hl
  rw [asItems_append, asItems_append] at hi
  obtain ⟨t1, e1, ht1⟩ := primitive_check hbusy h1 h2 hf hi hc
  obtain ⟨t2, e2, ht2⟩ := ht1.emithdr
  obtain ⟨t3, e3, ht3⟩ := actionsPack_frame _ s x y c1 _ _ t2 hl1 ht2
  obtain ⟨u, e4, hu⟩ := ht3.copyrest
  refine ⟨u, ?_, by rw [stegoOutput_parts hb c2 hl1]; exact hu⟩
  have e := (runActions_append e1 _).trans ((runActions_append e2 _).trans ((runActions_append e3 _).trans e4))
  simpa only [primitiveEncode, List.append_assoc, List.cons_append, List.nil_append] using e

/-- ENCODE whose frame fits shows what its own writes and CAPCHECK leave. -/
theorem encode_shows {c x y : List Byte} {xs ys : List Item} (h1 : s.cin.attached = true)
    (h2 : s.sout.attached = true) (h3 : s.pin.attached = true) (h4 : s.ein.attached = true) (hm : s.MarkerLenOk)
    (hi : s.cin.items = asItems (hb.toList ++ c)) (hxi : s.ein.items = asItems x ++ xs) (hx : x.length = s.elen.toNat)
    (hyi : s.pin.items = asItems y ++ ys) (hy : y.length = s.plen.toNat) (hc : frameBytes s ≤ headerCapacity hb)
    (hl : 8 * frameBytes s ≤ c.length) (hf : s.sout.fails = []) :
    ∃ t, exec .encode s = .next t ∧
      (s.withHdr hb).checked.Shows [] (stegoOutput (hb.toList ++ c) (frame s x y)) t := by
  obtain ⟨-, e⟩ := encodeWritesTheStegoImage s hb c x y xs ys h1 h2 h3 h4 hm hi hxi hx hyi hy hc hl
    fun k _ => by simp [hf]
  exact ⟨_, e, rfl, ⟨h1, h2⟩, hf, rfl, rfl, rfl, rfl, rfl, rfl, rfl⟩

end encode

/-- Settles O46: ENCODE and the sequence both show the header, what CAPCHECK leaves, and the stego image. -/
theorem encodeEqualsThePrimitiveSequence : Obligations.EncodeEqualsThePrimitiveSequence := by
  intro s hb c x y xs ys hbusy h1 h2 h3 h4 hm hi hxi hx hyi hy hc hl hf
  obtain ⟨t, et, ht⟩ := encode_shows h1 h2 h3 h4 hm hi hxi hx hyi hy hc hl hf
  obtain ⟨u, eu, hu⟩ := primitiveEncode_shows (x := x) (y := y) hbusy h1 h2 hf hi hc (by rwa [frame_length hm hx hy])
  exact ⟨t, u, et, eu, by rw [ht.status], by rw [hu.status], hu.data.trans ht.data.symm, hu.items.trans ht.items.symm,
    hu.hdr.trans ht.hdr.symm, hu.width.trans ht.width.symm, hu.height.trans ht.height.symm, hu.cap.trans ht.cap.symm,
    hu.result.trans ht.result.symm, by rw [hu.status, ht.status]⟩

end Sys2Proof.Machine
end

section
/-! Proofs, DECODE completed, DECODE over another marker, and the round trip of ENCODE and DECODE (R201 to R210). A DECODE
that fails before EXTLEN has made no move of a kind that writes EOUT or POUT, and one that fails from EXTLEN on fails with
a state above MARKER in FAILSTATE. -/

namespace Sys2Proof.Machine

/-! ## DECODE completed -/

/-- Completion of DECODE past HEADER. -/
theorem finish_decoding (s : State) (hb : Vector Byte Config.hdrLen) (q : Seq) (e l : Word) (x y : List Byte)
    (rest : List Item) (n : Nat) (h : Hidden) :
    ((s.decoding hb q e l x y).moved rest n [] h).finish =
      { s.completed .decode with
        hdr := hb, rxElen := e, rxPlen := l, ccnt := BitVec.ofNat 64 n, cin := { s.cin with items := rest }
        eout := { s.eout with data := s.eout.data ++ x, attempts := x.length }
        pout := { s.pout with data := s.pout.data ++ y, attempts := y.length } } := by
  have eq : ((s.decoding hb q e l x y).moved rest n [] h).finish =
      { ((((s.start (encode .decode)).withSeq q).readTo rest n).withHidden h).finish with
        hdr := hb, rxElen := e, rxPlen := l
        eout := { s.eout with data := s.eout.data ++ x, attempts := 0 + x.length }
        pout := { s.pout with data := s.pout.data ++ y, attempts := 0 + y.length } } := by
    rw [State.moved, State.stegoOut_nil]
    rfl
  rw [eq, finish_readTo, Nat.zero_add, Nat.zero_add]

/-- DECODE over a carrier that spells the whole frame, with no failing write, has put the payload on POUT at the end of
PAYLOAD (R208). -/
theorem decode_ok {s : State} {hb : Vector Byte Config.hdrLen} {c x y : List Byte} {e p : Word} {rest : List Item}
    (hm : s.MarkerLenOk) (hi : s.cin.items = asItems (hb.toList ++ c) ++ rest)
    (hl : lsbs c = bitString (markerBytes s ++ be32 e ++ x ++ be32 p ++ y)) (hx : x.length = e.toNat)
    (hy : y.length = p.toNat) (hf : s.eout.NoFails x.length) (hg : s.pout.NoFails y.length) :
    ∃ h, bodyOf .decode (s.start (encode .decode)) =
      .ok () ((s.decoding hb .payload e p x y).moved rest (54 + c.length) [] h) := by
  obtain ⟨c1, c2, rfl, hl1, hl2⟩ := lsbs_split hl
  obtain ⟨h1, e1⟩ := decode_reaches_payload (c := c1) (rest := asItems c2 ++ rest) hm (by simpa using hi) hl1 hx hf
  obtain ⟨h2, e2⟩ := decodePayload_ok (X := s.decoding hb .paylen e p x []) (rest := rest) (n := 54 + c1.length) (h := h1)
    hy hl2 (decoding_payload_noFails (hy ▸ hg))
  have hlen : c2.length = 8 * p.toNat := by rw [← lsbs_length, hl2, bitString_length, hy]
  refine ⟨h2, e1.trans (e2.trans ?_)⟩
  rw [State.withSeq_decoding, State.sinkOut_payload_decoding, List.length_append, hlen, ← Nat.add_assoc]
  rfl

/-- Settles O47: the body is `decode_ok`, and the command ends as `finish_decoding` says. -/
theorem decodeExtractsTheFrame : Obligations.DecodeExtractsTheFrame := by
  intro s hb c x y e p rest h1 h2 h3 hm hi hl hx hy hf hg
  obtain ⟨h, eb⟩ := decode_ok hm hi hl hx hy hf hg
  rw [exec_completes (i := .decode) (fun _ => hm) (attached_decode h1 h2 h3) eb, finish_decoding]

/-! ## Another marker -/

/-- An error of DECODE with nothing put on EOUT and POUT, as the frame of a failed command (R204). -/
theorem decodeFailed_nil (s : State) (k : ErrKind) (p : Port) (q : Seq) (hb : Vector Byte 54) (e l : Word) (n : Nat)
    (left : List Item) :
    s.decodeFailed k p q hb e l n left [] [] =
      { s.failed (encode .decode) k (some p) q with
        hdr := hb, rxElen := e, rxPlen := l, ccnt := BitVec.ofNat 64 n, cin := { s.cin with items := left } } := by
  simp only [State.decodeFailed, List.append_nil]
  rfl

/-- Settles O48: MARKER reads all MLEN bytes before it compares (`decodeMarker_mismatch`), and nothing is written by then. -/
theorem decodeMarkerMismatch : Obligations.DecodeMarkerMismatch := by
  intro s hb c ms rest h1 h2 h3 hm hi hl hms hne
  obtain ⟨g1, e1⟩ := decode_reaches_marker (rest := asItems c ++ rest) (by simpa using hi)
  obtain ⟨g2, e2⟩ := decodeMarker_mismatch (X := s.decoding hb .header 0 0 [] []) (rest := rest) (n := 54) (h := g1)
    decodeFromExtLen (markerLenOk_iff.2 hm) hms hl hne
  rw [exec_decode_raises (q := .marker) hm (attached_decode h1 h2 h3) (e1.trans e2), decodeFailed_nil]
  rfl

/-! ## DECODE before EXTLEN -/

/-- The states of DECODE up to MARKER, in order (R201), the clear of R95 first. -/
def decodeToMarker : Engine Unit := do
  clearDecoded
  setSeq .header
  readHeader
  setSeq .marker
  unpackMarker
  compareMarker

theorem decodeBody_eq_toMarker : decodeBody = (do decodeToMarker; decodeFromExtLen : Engine Unit) := by
  rw [decodeBody_eq_fromMarker]
  simp only [decodeToMarker, decodeFromMarker, bind_assoc]

/-- The kinds of move of DECODE up to MARKER: none of them writes a port. -/
def toMarkerKinds : List MoveKind := [.seq, .hidden, .carrier, .hdr, .decoded]

theorem within_decodeToMarker : Engine.Within toMarkerKinds decodeToMarker := by
  have idx : ∀ i : Nat, Engine.Within toMarkerKinds (modify (·.withIdx i) : Engine PUnit) :=
    fun i => Within.update (k := .hidden) (by decide) fun s => .hidden s _
  have unpack : Engine.Within toMarkerKinds unpackMarker :=
    Within.bind Within.get fun _ => Within.forUpTo _ fun i => Within.bind (idx i) fun _ =>
      Within.bind (within_unpackByte (by decide) (by decide)) fun _ =>
      Within.update (k := .hidden) (by decide) fun s => .hidden s _
  have compare : Engine.Within toMarkerKinds compareMarker :=
    Within.bind Within.get fun _ => Within.forUpTo _ fun i => Within.bind (idx i) fun _ =>
      Within.bind Within.get fun _ => Within.ite (Within.raise _ _) (Within.pure _)
  exact Within.bind (Within.update (k := .decoded) (by decide) fun s => .decoded s 0 0) fun _ =>
    Within.bind (within_seq (by decide) (by decide)) fun _ =>
    Within.bind (within_readHeader (by decide) (by decide) (by decide)) fun _ =>
    Within.bind (within_seq (by decide) (by decide)) fun _ => Within.bind unpack fun _ => compare

/-- An output port that no allowed move writes is unchanged along a path. -/
theorem Path.outPort_eq {ks : List MoveKind} {s t : State} {p : OutId} (h : Path ks s t) (hp : p.moveKind ∉ ks) :
    t.outPort p = s.outPort p :=
  h.unchanged (·.outPort p) fun _ hk _ _ m => m.outPort_eq fun e => hp (e ▸ hk)

/-! ## DECODE from EXTLEN on -/

/-- Only `state <- S` changes STATUS.STATE while a command runs (R28). -/
theorem Move.state_eq {k : MoveKind} {s t : State} (m : Move k s t) (h : k ≠ .seq) : t.status.state = s.status.state := by
  cases m with
  | seq => exact absurd rfl h
  | check => rw [State.capacityChecked_eq]
  | _ => simp [-State.withHdrByte_eq]

/-- A part of a command that raises only in states behind MARKER. -/
def Engine.RaisesPastMarker (m : Engine Unit) : Prop := ∀ s r t, m s = .error r t → 5 < t.status.state.toNat

/-- A part that enters a state behind MARKER, and stays in it up to a part that raises only there. -/
theorem Engine.RaisesPastMarker.enter {ks : List MoveKind} {q : Seq} {m k : Engine Unit} (hq : 5 < (seqCode q).toNat)
    (hs : MoveKind.seq ∉ ks) (hm : Engine.Within ks m) (hk : k.RaisesPastMarker) :
    Engine.RaisesPastMarker (do setSeq q; m; k) := by
  intro s r t h
  rw [setSeq_bind] at h
  obtain h | ⟨_, u, -, h⟩ := Engine.bind_eq_error_iff.mp h
  · have e : t.status.state = seqCode q :=
      ((hm (s.withSeq q)).2 r t h).unchanged (·.status.state) fun _ hk _ _ m => m.state_eq fun e => hs (e ▸ hk)
    rwa [e]
  · exact hk u r t h

/-- The kinds of move inside one state of DECODE behind MARKER. -/
def fieldKinds : List MoveKind := [.hidden, .carrier, .decoded, .pout, .eout]

theorem within_readLength (f : Word → State → State) (hf : ∀ v s, Move .decoded s (f v s)) :
    Engine.Within fieldKinds (do let v ← unpackInt32; modify (f v) : Engine Unit) :=
  Within.bind (within_unpackBits 32 (by decide) (by decide)) fun v => Within.update (k := .decoded) (by decide) (hf v)

/-- The loop of EXT and of PAYLOAD (R206, R208). -/
theorem within_unpackSink {p : OutId} (hp : p ≠ .sout) (hk : p.moveKind ∈ fieldKinds) (n : Nat) :
    Engine.Within fieldKinds (forUpTo n fun i => do modify (·.withIdx i); let b ← unpackByte; sinkWrite p b) :=
  Within.forUpTo n fun _ => Within.bind (Within.update (k := .hidden) (by decide) fun s => .hidden s _) fun _ =>
    Within.bind (within_unpackByte (by decide) (by decide)) fun b => within_sinkWrite hp hk b

theorem decodeFromExtLen_raisesPastMarker : decodeFromExtLen.RaisesPastMarker := by
  have extLen : Engine.Within fieldKinds readExtLen := within_readLength _ fun v s => .decoded s v s.rxPlen
  have payLen : Engine.Within fieldKinds readPayLen := within_readLength _ fun v s => .decoded s s.rxElen v
  have ext : Engine.Within fieldKinds readExt :=
    Within.bind Within.get fun _ => within_unpackSink (p := .eout) (by decide) (by decide) _
  have payload : Engine.Within fieldKinds readPayload :=
    Within.bind Within.get fun _ => within_unpackSink (p := .pout) (by decide) (by decide) _
  have last : Engine.RaisesPastMarker (pure ()) := fun _ _ _ h => nomatch h
  have fromPayload : decodeFromPayload.RaisesPastMarker := by
    simpa only [decodeFromPayload, bind_pure_unit] using
      Engine.RaisesPastMarker.enter (q := .payload) (by decide) (by decide) payload last
  exact .enter (by decide) (by decide) extLen (.enter (by decide) (by decide) ext
    (.enter (by decide) (by decide) payLen fromPayload))

/-- A command that ended with FAIL = 1 failed validation with nothing done, or its body raised (R95, R255). -/
theorem exec_fail {i : Instr} {s t : State} (h : exec i s = .next t) (hf : t.status.fail = true) :
    (∃ r, t = (s.start (encode i)).raise r) ∨ ∃ r u, bodyOf i (s.start (encode i)) = .error r u ∧ t = u.raise r := by
  obtain ⟨r, rfl⟩ | rfl := exec_cases h
  · exact .inl ⟨r, rfl⟩
  · cases hb : bodyOf i (s.start (encode i)) with
    | error r u => exact .inr ⟨r, u, rfl, rfl⟩
    | ok a u =>
      rw [hb] at h hf
      obtain ⟨-, hq | ⟨-, hn, -⟩ | ⟨hd, -⟩⟩ := (exec_status h).1
      · rw [hq] at hf; cases hf
      · rw [hn] at hf; cases hf
      · cases hd

/-- Settles O49: up to MARKER no move writes EOUT or POUT, and an error behind MARKER has a FAILSTATE above 5. -/
theorem decodeWritesNothingBeforeTheMarkerMatched : Obligations.DecodeWritesNothingBeforeTheMarkerMatched := by
  intro s t h hf hq
  obtain ⟨r, rfl⟩ | ⟨r, u, hb, rfl⟩ := exec_fail h hf
  · exact ⟨rfl, rfl⟩
  · have hb' : (do decodeToMarker; decodeFromExtLen : Engine Unit) (s.start (encode .decode)) = .error r u :=
      (congrFun decodeBody_eq_toMarker _).symm.trans hb
    obtain he | ⟨_, v, -, he⟩ := Engine.bind_eq_error_iff.mp hb'
    · have keeps (p : OutId) (hp : p.moveKind ∉ toMarkerKinds) :
          (u.outPort p).data = ((s.start (encode .decode)).outPort p).data :=
        congrArg OutPort.data (((within_decodeToMarker _).2 r u he).outPort_eq hp)
      exact ⟨keeps .pout (by decide), keeps .eout (by decide)⟩
    · exact absurd (decodeFromExtLen_raisesPastMarker v r u he) (Nat.not_lt.mpr hq)

/-! ## The round trip -/

/-- Settles O51: the stego image spells the frame behind the header (`encode_inv`, `lsbs_embed`), so O47 applies to it. -/
theorem decodeRecoversWhatEncodeEmbedded : Obligations.DecodeRecoversWhatEncodeEmbedded := by
  intro s t u c o _ ht hd ho hmlen hmarker h1 h2 h3 hi hf hg
  have hm := markerLenOk_of_done ht hd
  obtain ⟨w, e, rfl⟩ := exec_done ht hd
  obtain ⟨hb, c', x, y, xs, ys, h, -, hxi, hx, hyi, hy, hl, rfl⟩ := encode_inv hm e
  rw [finish_encoding] at ho ⊢
  obtain ⟨c1, c2, rfl, hl1⟩ := split_length hl
  obtain rfl : stegoOutput (hb.toList ++ (c1 ++ c2)) (frame s x y) = o := List.append_cancel_left ho
  rw [stegoOutput_parts hb c2 hl1, asItems_append] at hi
  have hmu : u.MarkerLenOk := by rwa [State.MarkerLenOk, hmlen]
  have hmb : markerBytes u = markerBytes s := by rw [markerBytes, markerBytes, hmlen, hmarker]
  have hspell : lsbs (embed c1 (bitString (frame s x y))) =
      bitString (markerBytes u ++ be32 s.elen ++ x ++ be32 s.plen ++ y) := by
    rw [hmb, lsbs_embed (by rw [hl1, bitString_length])]
    rfl
  have hlen : (embed c1 (bitString (frame s x y))).length = 8 * (s.mlen.toNat + x.length + y.length + 8) := by
    rw [embed_bitString_length hl1, hl1, frame_length hm hx hy, frameBytes, hx, hy]
    omega
  refine ⟨x, y, _, hxi, hx, hyi, hy,
    decodeExtractsTheFrame u hb _ x y s.elen s.plen (asItems c2) h1 h2 h3 hmu hi hspell hx hy (hx ▸ hf) (hy ▸ hg),
    rfl, rfl, rfl, rfl, rfl, by rw [hlen]⟩

end Sys2Proof.Machine
end

section
/-! Proofs, the Carrier Passthrough completed (R230 to R237): EMITHDR, COPY and COPYREST each put bytes on SOUT in PRIM, and SKIP
puts none. The loops are `emitHeader_ok`, `copyN_ok`, `copyRest_ok` and `skipN_ok`. -/

namespace Sys2Proof.Machine

/-- SOUT attached is the port of EMITHDR (R98). -/
theorem attached_sout {s : State} (h : s.sout.attached = true) : ∀ p ∈ [Port.sout], s.attached p = true := by
  simpa [State.attached] using h

/-- Writes that do not fail from the start of a command do not fail in its body: attempts count from 0 there (R65). -/
theorem OutPort.NoFails.body {s : State} {n : Nat} (h : s.sout.NoFails n) (i : Instr) :
    let t := (s.start (encode i)).withSeq .prim
    ∀ k, k < n → t.sout.attempts + k ∉ t.sout.fails := by
  simpa using h

/-- Settles O52: `emitHeader_ok` in PRIM, with CIN as it is and no byte of it counted. -/
theorem emithdrWritesTheHeldHeader : Obligations.EmithdrWritesTheHeldHeader := by
  intro s ha hf
  obtain ⟨h, e⟩ := emitHeader_ok (hf.body .emithdr)
  have he : exec .emithdr s = .next (s.completedMove .emithdr s.cin.items 0 s.hdr.toList) :=
    exec_completes_moved (by simp) (attached_sout ha) e
  rw [he, State.completedMove, Vector.length_toList]
  rfl

/-- Settles O54: `copyN_ok` in PRIM, at ARG as it was when the command started. -/
theorem copyMovesTheRange : Obligations.CopyMovesTheRange := by
  intro s cs rest h1 h2 hl hi hf
  obtain ⟨h, e⟩ := copyN_ok hl (s := (s.start (encode .copy)).withSeq .prim) hi ((hl ▸ hf).body .copy)
  rw [exec_completes_moved (i := .copy) (by simp) (attached_cin_sout h1 h2) e, ← hl]
  rfl

/-- Settles O55: `skipN_ok` in PRIM, at ARG as it was when the command started; SOUT need not be attached. -/
theorem skipDiscardsTheRange : Obligations.SkipDiscardsTheRange := by
  intro s cs rest ha hl hi
  obtain ⟨h, e⟩ := skipN_ok (s := (s.start (encode .skip)).withSeq .prim) hl hi
  rw [exec_completes (i := .skip) (by simp) (attached_cin ha) e, finish_readTo, hl]

/-- Settles O57: `copyRest_ok` in PRIM, the end of the carrier being its normal end. -/
theorem copyrestMovesEverythingLeft : Obligations.CopyrestMovesEverythingLeft := by
  intro s cs h1 h2 hi hf
  have e := copyRest_ok (s := (s.start (encode .copyrest)).withSeq .prim) hi (hf.body .copyrest)
  exact exec_completes_moved (i := .copyrest) (by simp) (attached_cin_sout h1 h2) e

end Sys2Proof.Machine
end

section
/-! Proofs, the end of a command (R95, R255, R271): STATUS is legal there (`exec_status`), and of the three legal forms it
is not the one that stands before any command. -/

namespace Sys2Proof.Machine

/-- The end of a command sets DONE or FAIL. -/
theorem exec_status_ne_reset {i : Instr} {s t : State} (h : exec i s = .next t) : t.status ≠ Status.reset := by
  intro e
  obtain ⟨u, -, rfl | ⟨r, rfl⟩⟩ := exec_path h
  · exact Bool.noConfusion (congrArg Status.done e)
  · exact Bool.noConfusion (congrArg Status.fail e)

/-- Settles O14: legal STATUS after a command is that of DONE or that of FAIL. -/
theorem everyCommandEndsDoneOrFail : Obligations.EveryCommandEndsDoneOrFail := by
  intro i s
  obtain ⟨t, h⟩ := exec_next i s
  obtain ⟨⟨hb, hq⟩, hc⟩ := exec_status h
  refine ⟨t, h, hb, hc, ?_⟩
  obtain e | ⟨hd, hf, -, hs, -⟩ | ⟨hd, hf, he, -, hs, -⟩ := hq
  · exact absurd e (exec_status_ne_reset h)
  · exact .inl ⟨hd, hf, hs⟩
  · have hne : t.status.err ≠ 0 := fun e => by simp [e] at he
    exact .inr ⟨hf, hd, hs, hne⟩

end Sys2Proof.Machine
end

section
/-! Proofs, the extension that the host derives from a filename (R284). -/

namespace Sys2Proof.Machine

theorem afterLastDot_of_not_mem {l : List Byte} (h : 0x2E ∉ l) : afterLastDot l = none := by
  induction l with
  | nil => rfl
  | cons b l ih =>
    obtain ⟨hb, hl⟩ := not_or.mp (List.mem_cons.not.mp h)
    rw [afterLastDot, ih hl]
    exact if_neg (Ne.symm hb)

/-- What stands before the last dot, dots included, does not matter. -/
theorem afterLastDot_append (name : List Byte) {tail : List Byte} (h : 0x2E ∉ tail) :
    afterLastDot (name ++ 0x2E :: tail) = some tail := by
  induction name with
  | nil =>
    rw [List.nil_append, afterLastDot, afterLastDot_of_not_mem h]
    exact if_pos rfl
  | cons b name ih => rw [List.cons_append, afterLastDot, ih]

/-- Settles O59. -/
theorem hostExtensionFollowsTheLastDot : Obligations.HostExtensionFollowsTheLastDot := by
  intro name tail h
  rw [hostExtension, afterLastDot_append name h]

end Sys2Proof.Machine
end

section
/-! Proofs, the host's mark on the output ports that hold bytes of a failed command (R260, R283 point 4; log 16): what sets
it, what keeps it, what removes it. -/

namespace Sys2Proof.Machine

/-! ## What sets the mark -/

/-- A port that was only appended to is longer exactly when its data changed. -/
theorem OutPort.Extended.length_lt_iff {q q' : OutPort} (h : q.Extended q') :
    q.data.length < q'.data.length ↔ q'.data ≠ q.data := by
  obtain ⟨-, -, out, e⟩ := h
  simp [e, List.length_pos_iff]

/-- After a command the host marks the ports it had marked and, when the command failed, those whose data it changed. -/
theorem mem_spoiled_judged {i : Instr} {s t : State} (h : exec i s = .next t) (p : OutId) :
    p ∈ (t.judged s).host.spoiled ↔
      p ∈ s.host.spoiled ∨ t.status.fail = true ∧ (t.outPort p).data ≠ (s.outPort p).data := by
  obtain ⟨-, hout⟩ := inputsAreConsumedAndOutputsAppended i s t h
  rw [State.judged_host, mem_spoiledAfter, OutPort.Extended.length_lt_iff (hout p)]

/-- A rejected word puts no byte on a port. -/
theorem rejectCommand_data (v : Word) (s : State) (p : OutId) :
    ((rejectCommand v s).outPort p).data = (s.outPort p).data := by
  cases p <;> rfl

/-- A write of CMD marks what `mem_spoiled_judged` says, whether its word is a command or not. -/
theorem writeCmd_spoiled {v : Word} {s t : State} (h : writeCmd v s = .next t) (p : OutId) :
    p ∈ t.host.spoiled ↔
      p ∈ s.host.spoiled ∨ t.status.fail = true ∧ (t.outPort p).data ≠ (s.outPort p).data := by
  obtain rfl | ⟨i, u, -, hu, rfl⟩ | rfl := writeCmd_cases h
  · simp
  · exact mem_spoiled_judged hu p
  · rw [rejectCommand_data]
    exact (or_iff_left fun ⟨_, hne⟩ => hne rfl).symm

/-! ## What keeps the mark, and what removes it -/

theorem portAction_next {f : State → State} {s t : State} (h : portAction f s = .next t) : t = f s := by
  rw [portAction] at h
  split at h <;> cases h
  rfl

theorem hostWrite_keeps_spoiled {off size : Nat} {v : Word} {s t : State} {p : OutId}
    (h : hostWrite off size v s = .next t) (hp : p ∈ s.host.spoiled) : p ∈ t.host.spoiled := by
  obtain rfl | ⟨r, -, rfl⟩ | h := hostWrite_cases h
  · exact hp
  · cases r <;> exact hp
  · obtain rfl | ⟨i, u, -, hu, rfl⟩ | rfl := writeCmd_cases h
    · exact hp
    · exact (mem_spoiled_judged hu p).mpr (.inl hp)
    · exact hp

/-- Only the clearing of a port removes its mark. -/
theorem hostAct_keeps_spoiled {c : HostStmt} {s t : State} {p : OutId} (h : hostAct c s = .next t)
    (hp : p ∈ s.host.spoiled) (hc : c ≠ .clearData p) : p ∈ t.host.spoiled := by
  cases c with
  | wr => exact hostWrite_keeps_spoiled h hp
  | rd => obtain ⟨v, rfl⟩ := hostRead_next h; exact hp
  | beq => obtain ⟨v, rfl | rfl⟩ := hostBranch_next h <;> exact hp
  | bne => obtain ⟨v, rfl | rfl⟩ := hostBranch_next h <;> exact hp
  | halt => cases h; exact hp
  | reset => cases h; exact hp
  | clearData p' =>
    have hne : p ≠ p' := fun e => hc (e ▸ rfl)
    rw [hostAct] at h
    rw [portAction_next h, State.cleared_host]
    exact List.mem_filter.mpr ⟨hp, by simpa using hne⟩
  | _ =>
    rw [hostAct] at h
    rw [portAction_next h]
    simpa using hp

/-- Settles O60: `writeCmd_spoiled` for the setting, `hostAct_keeps_spoiled` for the keeping; a reset keeps the host's side. -/
theorem failedOutputIsNeverTakenAsValid : Obligations.FailedOutputIsNeverTakenAsValid := by
  refine ⟨fun s t v p h1 h2 _ h => ?_, fun s t p h hp hc => ?_, fun s t p h1 h2 h => ?_, fun s t p h1 h2 h => ?_⟩
  · rw [step_writeCmd h1 h2] at h
    exact writeCmd_spoiled (s := s.advance) h p
  · rw [step, stepOnce] at h
    split at h
    · cases h
      exact hp
    · cases hn : nextStmt s with
      | none =>
        rw [hn] at h
        cases h
        exact hp
      | some c =>
        rw [hn] at h hc
        exact hostAct_keeps_spoiled (s := s.advance) h hp fun e => hc (e ▸ rfl)
  · rw [step_hostAct h1 h2, hostAct] at h
    rw [portAction_next h]
    simp
  · rw [step_hostAct h1 h2, hostAct] at h
    rw [portAction_next h]
    exact ⟨_, rfl, rfl, rfl, State.outputValid_eq (s := s.advance)⟩

end Sys2Proof.Machine
end
